-- ==== Sys2Proof/Word.lean ====
section
/-! DEFINITION. The word types of the machine (00_scope.md R5, R6). -/

namespace Sys2Proof

/-- A byte of memory, 8 bits (R5). -/
abbrev Byte := BitVec 8

/-- A 16-bit unit of the instruction stream: the source's word (R5, R100). -/
abbrev Half := BitVec 16

/-- A dword: a general register, an address, the program counter (R5, R20, R22). -/
abbrev Word := BitVec 32

end Sys2Proof
end

