-- ==== Sys2Proof/Syntax.lean ====
section
/-! DEFINITION. Instructions as data: operands and one constructor for each row of
spec/opcode_table.json (30_encoding.md R104, R106; 40_operands_and_prefixes.md R140). -/

namespace Sys2Proof

/-- A 4-bit register field. Values 0 to 14 name general registers, 15 names the program
counter (10_state.md R20 to R22, R25). -/
abbrev Reg := BitVec 4

/-- A general register that is not the program counter: R0 to R14, R14 being SP (R20, R21). -/
abbrev GReg := Fin 15

/-- The field value that names general register `g`. -/
def regOf (g : GReg) : Reg := BitVec.ofNat 4 g.val

/-- Field value 14: the stack pointer (R21). -/
def spReg : Reg := 14#4

/-- Field value 15: the program counter (R22). -/
def pcReg : Reg := 15#4

/-- Size modifier m: byte, word, dword (R8, R103). -/
inductive Size where
  | byte | word | dword
  deriving DecidableEq, Repr

/-- n(m), the width in bits (R8). -/
@[reducible] def Size.bits : Size → Nat
  | .byte => 8
  | .word => 16
  | .dword => 32

/-- k(m), the width in bytes (R8). -/
def Size.bytes : Size → Nat
  | .byte => 1
  | .word => 2
  | .dword => 4

/-- Size modifier z: byte or word (R8, R103). -/
inductive ZSize where
  | byte | word
  deriving DecidableEq, Repr

/-- A z size as an m size. -/
@[reducible] def ZSize.size : ZSize → Size
  | .byte => .byte
  | .word => .word

/-- The sixteen condition codes of Table 3-1, in code order (10_state.md R34). -/
inductive Cond where
  | cc | cs | ne | eq | vc | vs | pl | mi | ls | hi | ge | lt | gt | le | a | wf
  deriving DecidableEq, Repr

/-- The sixteen special-register numbers P0 to P15 in order (10_state.md R26). -/
inductive SpecialReg where
  | p0 | vr | p2 | p3 | p4 | ccr | p6 | mof | p8 | ibr | irp | srp | bar | dccr | brp | usp
  deriving DecidableEq, Repr

/-- The flag list of SETF and CLEARF (30_encoding.md R117). -/
structure FlagList where
  m : Bool
  b : Bool
  i : Bool
  x : Bool
  n : Bool
  z : Bool
  v : Bool
  c : Bool
  deriving DecidableEq, Repr

/-- The option list of SWAP (42_logic_shift_bit.md R276). -/
structure SwapOptions where
  n : Bool
  w : Bool
  b : Bool
  r : Bool
  deriving DecidableEq, Repr

/-- A memory operand with no prefix pending (R143, R144, R146). -/
inductive SimpleMem where
  /-- Mode 10: `[Rs]`. -/
  | indirect (r : Reg)
  /-- Mode 11 with Operand1 other than 15: `[Rs+]`. -/
  | autoinc (r : Reg)
  /-- Mode 11 with Operand1 = 15: the operand follows in the instruction stream. -/
  | immediate
  deriving DecidableEq, Repr

/-- A memory operand (R160): one of the simple modes, or, after a prefix word, the address the
prefix computed, with md = 0 or with md = 1. -/
inductive MemOperand where
  | simple (o : SimpleMem)
  /-- md = 0; the Operand1 field is kept because some instructions check it (R157). -/
  | complex (op1 : Reg)
  /-- md = 1: the address is also stored in the register that Operand1 names (R150). -/
  | assign (r : Reg)
  deriving DecidableEq, Repr

/-- One constructor for each row of spec/opcode_table.json, in the table's order. -/
inductive Instr where
  -- Mode 00 (R107)
  | bcc (q : Cond) (o : BitVec 8)
  | bdapQ (o : BitVec 8) (rb : Reg)
  | addq (j : BitVec 6) (rd : Reg)
  | moveq (i : BitVec 6) (rd : Reg)
  | subq (j : BitVec 6) (rd : Reg)
  | cmpq (i : BitVec 6) (rd : Reg)
  | andq (i : BitVec 6) (rd : Reg)
  | orq (i : BitVec 6) (rd : Reg)
  | btstq (c : BitVec 5) (rd : Reg)
  | asrq (c : BitVec 5) (rd : Reg)
  | lslq (c : BitVec 5) (rd : Reg)
  | lsrq (c : BitVec 5) (rd : Reg)
  -- Mode 01, sized (R108)
  | adduR (z : ZSize) (rs rd : Reg)
  | addsR (z : ZSize) (rs rd : Reg)
  | movuR (z : ZSize) (rs rd : Reg)
  | movsR (z : ZSize) (rs rd : Reg)
  | subuR (z : ZSize) (rs rd : Reg)
  | subsR (z : ZSize) (rs rd : Reg)
  | lslR (m : Size) (rs rd : Reg)
  | negR (m : Size) (rs rd : Reg)
  | boundR (m : Size) (rs rd : Reg)
  | addR (m : Size) (rs rd : Reg)
  | moveR (m : Size) (rs rd : Reg)
  | subR (m : Size) (rs rd : Reg)
  | cmpR (m : Size) (rs rd : Reg)
  | andR (m : Size) (rs rd : Reg)
  | orR (m : Size) (rs rd : Reg)
  | asrR (m : Size) (rs rd : Reg)
  | lsrR (m : Size) (rs rd : Reg)
  | addi (m : Size) (rs rd : Reg)
  | nop
  | biap (m : Size) (ri rb : Reg)
  -- Mode 01, Size 11 (R109)
  | btst (rs rd : Reg)
  | abs (rs rd : Reg)
  | dstep (rs rd : Reg)
  | lz (rs rd : Reg)
  | xor (rs rd : Reg)
  | mstep (rs rd : Reg)
  | scc (q : Cond) (rd : Reg)
  | setf (l : FlagList)
  | clearf (l : FlagList)
  | moveRP (rs : Reg) (pd : SpecialReg)
  | movePR (ps : SpecialReg) (rd : Reg)
  | swap (o : SwapOptions) (rd : Reg)
  | clearR (m : Size) (rd : Reg)
  -- Mode 1x, sized (R110)
  | addu (z : ZSize) (s : MemOperand) (rd : Reg)
  | adds (z : ZSize) (s : MemOperand) (rd : Reg)
  | movu (z : ZSize) (s : MemOperand) (rd : Reg)
  | movs (z : ZSize) (s : MemOperand) (rd : Reg)
  | subu (z : ZSize) (s : MemOperand) (rd : Reg)
  | subs (z : ZSize) (s : MemOperand) (rd : Reg)
  | cmpu (z : ZSize) (s : MemOperand) (rd : Reg)
  | cmps (z : ZSize) (s : MemOperand) (rd : Reg)
  | bound (m : Size) (s : MemOperand) (rd : Reg)
  | add (m : Size) (s : MemOperand) (rd : Reg)
  | move (m : Size) (s : MemOperand) (rd : Reg)
  | sub (m : Size) (s : MemOperand) (rd : Reg)
  | cmp (m : Size) (s : MemOperand) (rd : Reg)
  | and (m : Size) (s : MemOperand) (rd : Reg)
  | or (m : Size) (s : MemOperand) (rd : Reg)
  | mulu (m : Size) (rs rd : Reg)
  | muls (m : Size) (rs rd : Reg)
  -- the jump group (R112)
  | jump (s : MemOperand)
  | jumpR (rs : Reg)
  | jirc (s : MemOperand)
  | jircR (rs : Reg)
  | jsrc (s : MemOperand)
  | jsrcR (rs : Reg)
  | jbrc (s : MemOperand)
  | jbrcR (rs : Reg)
  | jir (s : MemOperand)
  | jirR (rs : Reg)
  | jsr (s : MemOperand)
  | jsrR (rs : Reg)
  | jmpu (s : MemOperand)
  | brk (n : BitVec 4)
  -- Mode 1x, the other rows (R110, R111, R113)
  | bdap (m : Size) (s : SimpleMem) (rb : Reg)
  | dip (s : SimpleMem)
  | bccW (q : Cond)
  | moveSP (s : MemOperand) (pd : SpecialReg)
  | movePD (ps : SpecialReg) (d : MemOperand)
  | clear (m : Size) (d : MemOperand)
  | rbf (s : MemOperand)
  | sbfs (d : MemOperand)
  | test (m : Size) (s : MemOperand)
  | movemLoad (s : MemOperand) (rd : Reg)
  | moveStore (m : Size) (rs : Reg) (d : MemOperand)
  | movemStore (rs : Reg) (d : MemOperand)
  -- the 3-operand forms, after a prefix word only (R158)
  | add3 (m : Size) (rn rd : Reg)
  | sub3 (m : Size) (rn rd : Reg)
  | and3 (m : Size) (rn rd : Reg)
  | or3 (m : Size) (rn rd : Reg)
  | bound3 (m : Size) (rn rd : Reg)
  | addu3 (z : ZSize) (rn rd : Reg)
  | adds3 (z : ZSize) (rn rd : Reg)
  | subu3 (z : ZSize) (rn rd : Reg)
  | subs3 (z : ZSize) (rn rd : Reg)
  -- the predefined assembler macros (R116)
  | ax
  | di
  | ei
  | not (rd : Reg)
  | ret
  | retb
  | reti
  | popR (rd : Reg)
  | popP (pd : SpecialReg)
  | pushR (rs : Reg)
  | pushP (ps : SpecialReg)
  | testR (m : Size) (rs : Reg)
  deriving DecidableEq, Repr

end Sys2Proof
end

