-- ==== Sys2Proof/WellFormed.lean ====
section
/-! DEFINITION. Which instructions are well formed: exactly those that a word of the encoding
stands for under their own name (30_encoding.md R106, R116). What a well-formed instruction may not
do when it executes (PC operands, hazards) is refused by its meaning, not here. -/

namespace Sys2Proof

/-- Autoincrement on register 15 is the immediate mode (R146), never `[PC+]` as such. -/
def SimpleMem.wf : SimpleMem → Bool
  | .indirect _ => true
  | .autoinc r => r != pcReg
  | .immediate => true

/-- The operand of an instruction that has no 3-operand form. -/
def MemOperand.wf : MemOperand → Bool
  | .simple o => o.wf
  | .complex _ => true
  | .assign _ => true

/-- The operand of one of the nine instructions that have a 3-operand form: with md = 0 after a
prefix the word belongs to the 3-operand row (R106, R114, R158). -/
def MemOperand.wfTwo : MemOperand → Bool
  | .simple o => o.wf
  | .complex _ => false
  | .assign _ => true

/-- The operand is reached through a prefix word. -/
def MemOperand.prefixed : MemOperand → Bool
  | .simple _ => false
  | .complex _ => true
  | .assign _ => true

/-- P0, P4, P8, the constant-zero registers (R27): a MOVE from them is CLEAR (R116). -/
def SpecialReg.isZero : SpecialReg → Bool
  | .p0 | .p4 | .p8 => true
  | _ => false

/-- The list of AX (R351). -/
def axList : FlagList := ⟨false, false, false, true, false, false, false, false⟩

/-- The list of EI and DI (R353, R354). -/
def iList : FlagList := ⟨false, false, true, false, false, false, false, false⟩

/-- The options of NOT (R272). -/
def notOptions : SwapOptions := ⟨true, false, false, false⟩

/-- The name the source gives a word that a macro of R116 stands for; every other instruction keeps
its own (log 1). -/
def Instr.named : Instr → Instr
  | .setf l => if l = axList then .ax else if l = iList then .ei else .setf l
  | .clearf l => if l = iList then .di else .clearf l
  | .swap o rd => if o = notOptions then .not rd else .swap o rd
  | .movePR ps rd =>
    if rd = pcReg then
      match ps with
      | .srp => .ret
      | .brp => .retb
      | .irp => .reti
      | ps => .movePR ps rd
    else .movePR ps rd
  | .moveR m rs rd => if rs = rd then .testR m rs else .moveR m rs rd
  | .move m s rd =>
    if m = .dword ∧ s = .simple (.autoinc spReg) then .popR rd else .move m s rd
  | .moveSP s pd => if s = .simple (.autoinc spReg) then .popP pd else .moveSP s pd
  | .moveStore m rs d =>
    if m = .dword ∧ d = .assign spReg then .pushR rs else .moveStore m rs d
  | .movePD ps d => if d = .assign spReg then .pushP ps else .movePD ps d
  | i => i

/-- Each operand and field is one that the row's encoding can hold, row by row. -/
def Instr.fieldsWf : Instr → Bool
  | .bcc _ _ => true
  | .bdapQ _ _ => true
  | .addq _ _ => true
  | .moveq _ _ => true
  | .subq _ _ => true
  | .cmpq _ _ => true
  | .andq _ _ => true
  | .orq _ _ => true
  | .btstq _ _ => true
  | .asrq _ _ => true
  | .lslq _ _ => true
  | .lsrq _ _ => true
  | .adduR _ _ _ => true
  | .addsR _ _ _ => true
  | .movuR _ _ _ => true
  | .movsR _ _ _ => true
  | .subuR _ _ _ => true
  | .subsR _ _ _ => true
  | .lslR _ _ _ => true
  | .negR _ _ _ => true
  | .boundR _ _ _ => true
  | .addR _ _ _ => true
  | .moveR _ _ _ => true
  | .subR _ _ _ => true
  | .cmpR _ _ _ => true
  | .andR _ _ _ => true
  | .orR _ _ _ => true
  | .asrR _ _ _ => true
  | .lsrR _ _ _ => true
  | .addi m rs rd => !(m == .byte && rs == 0#4 && rd == pcReg)
  | .nop => true
  | .biap _ _ _ => true
  | .btst _ _ => true
  | .abs _ _ => true
  | .dstep _ _ => true
  | .lz _ _ => true
  | .xor _ _ => true
  | .mstep _ _ => true
  | .scc _ _ => true
  | .setf _ => true
  | .clearf _ => true
  | .moveRP _ _ => true
  | .movePR ps _ => !ps.isZero
  | .swap _ _ => true
  | .clearR _ _ => true
  | .addu _ s _ => s.wfTwo
  | .adds _ s _ => s.wfTwo
  | .movu _ s _ => s.wf
  | .movs _ s _ => s.wf
  | .subu _ s _ => s.wfTwo
  | .subs _ s _ => s.wfTwo
  | .cmpu _ s _ => s.wf
  | .cmps _ s _ => s.wf
  | .bound _ s _ => s.wfTwo
  | .add _ s _ => s.wfTwo
  | .move _ s _ => s.wf
  | .sub _ s _ => s.wfTwo
  | .cmp _ s _ => s.wf
  | .and _ s _ => s.wfTwo
  | .or _ s _ => s.wfTwo
  | .mulu _ _ _ => true
  | .muls _ _ _ => true
  | .jump s => s.wf
  | .jumpR _ => true
  | .jirc s => s.wf
  | .jircR _ => true
  | .jsrc s => s.wf
  | .jsrcR _ => true
  | .jbrc s => s.wf
  | .jbrcR _ => true
  | .jir s => s.wf
  | .jirR _ => true
  | .jsr s => s.wf
  | .jsrR _ => true
  | .jmpu s => s.wf
  | .brk _ => true
  | .bdap _ s _ => s.wf
  | .dip s => s.wf
  | .bccW _ => true
  | .moveSP s _ => s.wf
  | .movePD ps d => !ps.isZero && d.wf
  | .clear _ d => d.wf
  | .rbf s => s.wf
  | .sbfs d => d.wf
  | .test _ s => s.wf
  | .movemLoad s _ => s.wf
  | .moveStore _ _ d => d.wf
  | .movemStore _ d => d.wf
  | .add3 _ _ _ => true
  | .sub3 _ _ _ => true
  | .and3 _ _ _ => true
  | .or3 _ _ _ => true
  | .bound3 _ _ _ => true
  | .addu3 _ _ _ => true
  | .adds3 _ _ _ => true
  | .subu3 _ _ _ => true
  | .subs3 _ _ _ => true
  | .ax => true
  | .di => true
  | .ei => true
  | .not _ => true
  | .ret => true
  | .retb => true
  | .reti => true
  | .popR _ => true
  | .popP _ => true
  | .pushR _ => true
  | .pushP ps => !ps.isZero
  | .testR _ _ => true

/-- Well formed: the fields are encodable, and the instruction goes by its own name. -/
def Instr.wf (i : Instr) : Bool := i.fieldsWf && i.named == i

/-- The word stands after a prefix word (R114, R158). -/
def Instr.prefixed : Instr → Bool
  | .bcc _ _ => false
  | .bdapQ _ _ => false
  | .addq _ _ => false
  | .moveq _ _ => false
  | .subq _ _ => false
  | .cmpq _ _ => false
  | .andq _ _ => false
  | .orq _ _ => false
  | .btstq _ _ => false
  | .asrq _ _ => false
  | .lslq _ _ => false
  | .lsrq _ _ => false
  | .adduR _ _ _ => false
  | .addsR _ _ _ => false
  | .movuR _ _ _ => false
  | .movsR _ _ _ => false
  | .subuR _ _ _ => false
  | .subsR _ _ _ => false
  | .lslR _ _ _ => false
  | .negR _ _ _ => false
  | .boundR _ _ _ => false
  | .addR _ _ _ => false
  | .moveR _ _ _ => false
  | .subR _ _ _ => false
  | .cmpR _ _ _ => false
  | .andR _ _ _ => false
  | .orR _ _ _ => false
  | .asrR _ _ _ => false
  | .lsrR _ _ _ => false
  | .addi _ _ _ => false
  | .nop => false
  | .biap _ _ _ => false
  | .btst _ _ => false
  | .abs _ _ => false
  | .dstep _ _ => false
  | .lz _ _ => false
  | .xor _ _ => false
  | .mstep _ _ => false
  | .scc _ _ => false
  | .setf _ => false
  | .clearf _ => false
  | .moveRP _ _ => false
  | .movePR _ _ => false
  | .swap _ _ => false
  | .clearR _ _ => false
  | .addu _ s _ => s.prefixed
  | .adds _ s _ => s.prefixed
  | .movu _ s _ => s.prefixed
  | .movs _ s _ => s.prefixed
  | .subu _ s _ => s.prefixed
  | .subs _ s _ => s.prefixed
  | .cmpu _ s _ => s.prefixed
  | .cmps _ s _ => s.prefixed
  | .bound _ s _ => s.prefixed
  | .add _ s _ => s.prefixed
  | .move _ s _ => s.prefixed
  | .sub _ s _ => s.prefixed
  | .cmp _ s _ => s.prefixed
  | .and _ s _ => s.prefixed
  | .or _ s _ => s.prefixed
  | .mulu _ _ _ => false
  | .muls _ _ _ => false
  | .jump s => s.prefixed
  | .jumpR _ => false
  | .jirc s => s.prefixed
  | .jircR _ => false
  | .jsrc s => s.prefixed
  | .jsrcR _ => false
  | .jbrc s => s.prefixed
  | .jbrcR _ => false
  | .jir s => s.prefixed
  | .jirR _ => false
  | .jsr s => s.prefixed
  | .jsrR _ => false
  | .jmpu s => s.prefixed
  | .brk _ => false
  | .bdap _ _ _ => false
  | .dip _ => false
  | .bccW _ => false
  | .moveSP s _ => s.prefixed
  | .movePD _ d => d.prefixed
  | .clear _ d => d.prefixed
  | .rbf s => s.prefixed
  | .sbfs d => d.prefixed
  | .test _ s => s.prefixed
  | .movemLoad s _ => s.prefixed
  | .moveStore _ _ d => d.prefixed
  | .movemStore _ d => d.prefixed
  | .add3 _ _ _ => true
  | .sub3 _ _ _ => true
  | .and3 _ _ _ => true
  | .or3 _ _ _ => true
  | .bound3 _ _ _ => true
  | .addu3 _ _ _ => true
  | .adds3 _ _ _ => true
  | .subu3 _ _ _ => true
  | .subs3 _ _ _ => true
  | .ax => false
  | .di => false
  | .ei => false
  | .not _ => false
  | .ret => false
  | .retb => false
  | .reti => false
  | .popR _ => false
  | .popP _ => false
  | .pushR _ => true
  | .pushP _ => true
  | .testR _ _ => false

/-- The key `prefix` of the opcode table (R106). -/
inductive PrefixUse where
  | never | optional | required
  deriving DecidableEq, Repr

/-- Whether a row applies with a prefix pending (R106, R114), row by row of the table. -/
def Instr.prefixUse : Instr → PrefixUse
  | .bcc _ _ => .never
  | .bdapQ _ _ => .never
  | .addq _ _ => .never
  | .moveq _ _ => .never
  | .subq _ _ => .never
  | .cmpq _ _ => .never
  | .andq _ _ => .never
  | .orq _ _ => .never
  | .btstq _ _ => .never
  | .asrq _ _ => .never
  | .lslq _ _ => .never
  | .lsrq _ _ => .never
  | .adduR _ _ _ => .never
  | .addsR _ _ _ => .never
  | .movuR _ _ _ => .never
  | .movsR _ _ _ => .never
  | .subuR _ _ _ => .never
  | .subsR _ _ _ => .never
  | .lslR _ _ _ => .never
  | .negR _ _ _ => .never
  | .boundR _ _ _ => .never
  | .addR _ _ _ => .never
  | .moveR _ _ _ => .never
  | .subR _ _ _ => .never
  | .cmpR _ _ _ => .never
  | .andR _ _ _ => .never
  | .orR _ _ _ => .never
  | .asrR _ _ _ => .never
  | .lsrR _ _ _ => .never
  | .addi _ _ _ => .never
  | .nop => .never
  | .biap _ _ _ => .never
  | .btst _ _ => .never
  | .abs _ _ => .never
  | .dstep _ _ => .never
  | .lz _ _ => .never
  | .xor _ _ => .never
  | .mstep _ _ => .never
  | .scc _ _ => .never
  | .setf _ => .never
  | .clearf _ => .never
  | .moveRP _ _ => .never
  | .movePR _ _ => .never
  | .swap _ _ => .never
  | .clearR _ _ => .never
  | .addu _ _ _ => .optional
  | .adds _ _ _ => .optional
  | .movu _ _ _ => .optional
  | .movs _ _ _ => .optional
  | .subu _ _ _ => .optional
  | .subs _ _ _ => .optional
  | .cmpu _ _ _ => .optional
  | .cmps _ _ _ => .optional
  | .bound _ _ _ => .optional
  | .add _ _ _ => .optional
  | .move _ _ _ => .optional
  | .sub _ _ _ => .optional
  | .cmp _ _ _ => .optional
  | .and _ _ _ => .optional
  | .or _ _ _ => .optional
  | .mulu _ _ _ => .never
  | .muls _ _ _ => .never
  | .jump _ => .optional
  | .jumpR _ => .never
  | .jirc _ => .optional
  | .jircR _ => .never
  | .jsrc _ => .optional
  | .jsrcR _ => .never
  | .jbrc _ => .optional
  | .jbrcR _ => .never
  | .jir _ => .optional
  | .jirR _ => .never
  | .jsr _ => .optional
  | .jsrR _ => .never
  | .jmpu _ => .optional
  | .brk _ => .never
  | .bdap _ _ _ => .never
  | .dip _ => .never
  | .bccW _ => .never
  | .moveSP _ _ => .optional
  | .movePD _ _ => .optional
  | .clear _ _ => .optional
  | .rbf _ => .optional
  | .sbfs _ => .optional
  | .test _ _ => .optional
  | .movemLoad _ _ => .optional
  | .moveStore _ _ _ => .optional
  | .movemStore _ _ => .optional
  | .add3 _ _ _ => .required
  | .sub3 _ _ _ => .required
  | .and3 _ _ _ => .required
  | .or3 _ _ _ => .required
  | .bound3 _ _ _ => .required
  | .addu3 _ _ _ => .required
  | .adds3 _ _ _ => .required
  | .subu3 _ _ _ => .required
  | .subs3 _ _ _ => .required
  | .ax => .never
  | .di => .never
  | .ei => .never
  | .not _ => .never
  | .ret => .never
  | .retb => .never
  | .reti => .never
  | .popR _ => .never
  | .popP _ => .never
  | .pushR _ => .required
  | .pushP _ => .required
  | .testR _ _ => .never

end Sys2Proof
end

