-- ==== Sys2Proof/Decode.lean ====
section
/-! DEFINITION. Decoding and encoding of instruction words (30_encoding.md R101 to R120). Every
instruction is one 16-bit word; an immediate operand, the offset word of Bcc xx and a context dword
follow it in the stream and are read, or skipped, when the instruction executes (R115, R119). -/

namespace Sys2Proof

/-- Why a word has no instruction. -/
inductive DecodeError where
  /-- No row of the opcode table matches (R120). -/
  | reserved
  /-- A prefix word is pending and the word takes none (R114). -/
  | prefixNotTaken
  /-- Fewer than the two bytes of a word. -/
  | truncated
  deriving DecidableEq, Repr

/-- The five boxes of an instruction word, high to low (R101). -/
def wordOf (op2 : BitVec 4) (mode : BitVec 2) (opc : BitVec 4) (size : BitVec 2)
    (op1 : BitVec 4) : Half :=
  op2 ++ mode ++ opc ++ size ++ op1

/-- Bits 15:12, "Operand2" (R101). -/
def op2Of (w : Half) : BitVec 4 := w.extractLsb' 12 4

/-- Bits 11:10, "Mode" (R101, R102). -/
def modeOf (w : Half) : BitVec 2 := w.extractLsb' 10 2

/-- Bits 9:6, "Opcode" (R101). -/
def opcOf (w : Half) : BitVec 4 := w.extractLsb' 6 4

/-- Bits 5:4, "Size" (R101, R103). -/
def sizeBitsOf (w : Half) : BitVec 2 := w.extractLsb' 4 2

/-- Bits 3:0, "Operand1" (R101). -/
def op1Of (w : Half) : BitVec 4 := w.extractLsb' 0 4

/-- The Size table (R103); 11 is not a size. -/
def sizeOf? (b : BitVec 2) : Option Size :=
  match b.toNat with
  | 0 => some .byte
  | 1 => some .word
  | 2 => some .dword
  | _ => none

/-- The Size field of a size (R103). -/
def sizeCode : Size → BitVec 2
  | .byte => 0#2
  | .word => 1#2
  | .dword => 2#2

/-- The z bit is bit 4 (R103). -/
def zOf (b : BitVec 2) : ZSize := if b.getLsbD 0 then .word else .byte

/-- Bits 5:4 of a z-sized instruction: bit 5 tells signed from unsigned, bit 4 is z (R103). -/
def zCode (signed : Bool) (z : ZSize) : BitVec 2 :=
  BitVec.ofBool signed ++ BitVec.ofBool (z == .word)

/-- Bit 5 of a z-sized instruction: signed. -/
def zSigned (b : BitVec 2) : Bool := b.getLsbD 1

/-- Condition codes in code order (10_state.md R34). -/
def condOf (b : BitVec 4) : Cond :=
  match b.toNat with
  | 0 => .cc
  | 1 => .cs
  | 2 => .ne
  | 3 => .eq
  | 4 => .vc
  | 5 => .vs
  | 6 => .pl
  | 7 => .mi
  | 8 => .ls
  | 9 => .hi
  | 10 => .ge
  | 11 => .lt
  | 12 => .gt
  | 13 => .le
  | 14 => .a
  | _ => .wf

/-- The code of a condition (R34). -/
def condCode : Cond → BitVec 4
  | .cc => 0#4
  | .cs => 1#4
  | .ne => 2#4
  | .eq => 3#4
  | .vc => 4#4
  | .vs => 5#4
  | .pl => 6#4
  | .mi => 7#4
  | .ls => 8#4
  | .hi => 9#4
  | .ge => 10#4
  | .lt => 11#4
  | .gt => 12#4
  | .le => 13#4
  | .a => 14#4
  | .wf => 15#4

/-- Special registers by number (10_state.md R26). -/
def specialOf (b : BitVec 4) : SpecialReg :=
  match b.toNat with
  | 0 => .p0
  | 1 => .vr
  | 2 => .p2
  | 3 => .p3
  | 4 => .p4
  | 5 => .ccr
  | 6 => .p6
  | 7 => .mof
  | 8 => .p8
  | 9 => .ibr
  | 10 => .irp
  | 11 => .srp
  | 12 => .bar
  | 13 => .dccr
  | 14 => .brp
  | _ => .usp

/-- The number of a special register (R26). -/
def specialCode : SpecialReg → BitVec 4
  | .p0 => 0#4
  | .vr => 1#4
  | .p2 => 2#4
  | .p3 => 3#4
  | .p4 => 4#4
  | .ccr => 5#4
  | .p6 => 6#4
  | .mof => 7#4
  | .p8 => 8#4
  | .ibr => 9#4
  | .irp => 10#4
  | .srp => 11#4
  | .bar => 12#4
  | .dccr => 13#4
  | .brp => 14#4
  | .usp => 15#4

/-- The flag list: bits 7:4 of the list in w[15:12], bits 3:0 in w[3:0] (R117). -/
def flagListOf (op2 op1 : BitVec 4) : FlagList :=
  ⟨op2.getLsbD 3, op2.getLsbD 2, op2.getLsbD 1, op2.getLsbD 0,
   op1.getLsbD 3, op1.getLsbD 2, op1.getLsbD 1, op1.getLsbD 0⟩

/-- Four one-bit boxes, high to low. -/
def nibble (b3 b2 b1 b0 : Bool) : BitVec 4 :=
  BitVec.ofBool b3 ++ BitVec.ofBool b2 ++ BitVec.ofBool b1 ++ BitVec.ofBool b0

/-- The options of SWAP, bits 15:12 (R109). -/
def swapOptionsOf (op2 : BitVec 4) : SwapOptions :=
  ⟨op2.getLsbD 3, op2.getLsbD 2, op2.getLsbD 1, op2.getLsbD 0⟩

/-- A memory operand with no prefix pending; `a` is bit 10 (R110, R146). -/
def simpleMemOf (a : Bool) (op1 : BitVec 4) : SimpleMem :=
  if a then (if op1 = pcReg then .immediate else .autoinc op1) else .indirect op1

/-- A memory operand; after a prefix word bit 10 is md (R114, R149). -/
def memOperandOf (pending a : Bool) (op1 : BitVec 4) : MemOperand :=
  if pending then (if a then .assign op1 else .complex op1) else .simple (simpleMemOf a op1)

/-- Mode 00: quick immediates, the 8-bit branch, the 8-bit offset prefix (R107, R105, R118). -/
def decodeQuick (op2 opc : BitVec 4) (size : BitVec 2) (op1 : BitVec 4) : Instr :=
  match opc.toNat with
  | 0 | 1 | 2 | 3 => .bcc (condOf op2) (opc.extractLsb' 0 2 ++ size ++ op1)
  | 4 | 5 | 6 | 7 => .bdapQ (opc.extractLsb' 0 2 ++ size ++ op1) op2
  | 8 => .addq (size ++ op1) op2
  | 9 => .moveq (size ++ op1) op2
  | 10 => .subq (size ++ op1) op2
  | 11 => .cmpq (size ++ op1) op2
  | 12 => .andq (size ++ op1) op2
  | 13 => .orq (size ++ op1) op2
  | 14 =>
    if size.getLsbD 1 then .asrq (size.extractLsb' 0 1 ++ op1) op2
    else .btstq (size.extractLsb' 0 1 ++ op1) op2
  | _ =>
    if size.getLsbD 1 then .lsrq (size.extractLsb' 0 1 ++ op1) op2
    else .lslq (size.extractLsb' 0 1 ++ op1) op2

/-- Bits 15:12 of MOVE Ps,d choose CLEAR for the constant-zero registers (R116). -/
def clearOr (op2 : BitVec 4) (clear : Size → Instr) (move : SpecialReg → Instr) : Instr :=
  match specialOf op2 with
  | .p0 => clear .byte
  | .p4 => clear .word
  | .p8 => clear .dword
  | ps => move ps

/-- Mode 01: register mode and the register-only instructions (R108, R109). -/
def decodeRegister (op2 opc : BitVec 4) (size : BitVec 2) (op1 : BitVec 4) : Option Instr :=
  match opc.toNat with
  | 0 => some (if zSigned size then .addsR (zOf size) op1 op2 else .adduR (zOf size) op1 op2)
  | 1 => some (if zSigned size then .movsR (zOf size) op1 op2 else .movuR (zOf size) op1 op2)
  | 2 => some (if zSigned size then .subsR (zOf size) op1 op2 else .subuR (zOf size) op1 op2)
  | 3 =>
    match sizeOf? size with
    | some m => some (.lslR m op1 op2)
    | none => some (.btst op1 op2)
  | 4 =>
    match sizeOf? size with
    | some m =>
      some (if m = .byte ∧ op2 = 0#4 ∧ op1 = pcReg then .nop else .addi m op2 op1)
    | none => some (.scc (condOf op2) op1)
  | 5 =>
    match sizeOf? size with
    | some m => some (.biap m op2 op1)
    | none => none
  | 6 =>
    match sizeOf? size with
    | some m => some (.negR m op1 op2)
    | none => some (.setf (flagListOf op2 op1))
  | 7 =>
    match sizeOf? size with
    | some m => some (.boundR m op1 op2)
    | none => some (.clearf (flagListOf op2 op1))
  | 8 =>
    match sizeOf? size with
    | some m => some (.addR m op1 op2)
    | none => some (.moveRP op1 (specialOf op2))
  | 9 =>
    match sizeOf? size with
    | some m => some (.moveR m op1 op2)
    | none => some (clearOr op2 (fun m => .clearR m op1) (fun ps => .movePR ps op1))
  | 10 =>
    match sizeOf? size with
    | some m => some (.subR m op1 op2)
    | none => some (.abs op1 op2)
  | 11 =>
    match sizeOf? size with
    | some m => some (.cmpR m op1 op2)
    | none => some (.dstep op1 op2)
  | 12 =>
    match sizeOf? size with
    | some m => some (.andR m op1 op2)
    | none => some (.lz op1 op2)
  | 13 =>
    match sizeOf? size with
    | some m => some (.orR m op1 op2)
    | none => some (.swap (swapOptionsOf op2) op1)
  | 14 =>
    match sizeOf? size with
    | some m => some (.asrR m op1 op2)
    | none => some (.xor op1 op2)
  | _ =>
    match sizeOf? size with
    | some m => some (.lsrR m op1 op2)
    | none => some (.mstep op1 op2)

/-- The jump group with a memory operand, and BREAK (R112). -/
def decodeJump (op2 : BitVec 4) (a : Bool) (o : MemOperand) (op1 : BitVec 4) : Option Instr :=
  match op2.toNat with
  | 0 => some (.jump o)
  | 2 => some (.jirc o)
  | 3 => some (.jsrc o)
  | 6 => some (.jbrc o)
  | 8 => some (.jmpu o)
  | 10 => some (.jir o)
  | 11 => some (.jsr o)
  | 14 => if a then none else some (.brk op1)
  | _ => none

/-- The jump group with a register operand (R112). -/
def decodeJumpRegister (op2 op1 : BitVec 4) : Option Instr :=
  match op2.toNat with
  | 0 => some (.jumpR op1)
  | 2 => some (.jircR op1)
  | 3 => some (.jsrcR op1)
  | 6 => some (.jbrcR op1)
  | 10 => some (.jirR op1)
  | 11 => some (.jsrR op1)
  | _ => none

/-- With a prefix pending and bit 10 = 0 the 3-operand row applies (R106, R158). -/
def twoOrThree (pending a : Bool) (two three : Instr) : Instr :=
  if pending && !a then three else two

/-- Mode 10 and 11: memory operands (R110 to R112); `a` is bit 10. -/
def decodeMemory (pending a : Bool) (op2 opc : BitVec 4) (size : BitVec 2) (op1 : BitVec 4) :
    Option Instr :=
  let o := memOperandOf pending a op1
  match opc.toNat with
  | 0 =>
    some (if zSigned size
      then twoOrThree pending a (.adds (zOf size) o op2) (.adds3 (zOf size) op2 op1)
      else twoOrThree pending a (.addu (zOf size) o op2) (.addu3 (zOf size) op2 op1))
  | 1 => some (if zSigned size then .movs (zOf size) o op2 else .movu (zOf size) o op2)
  | 2 =>
    some (if zSigned size
      then twoOrThree pending a (.subs (zOf size) o op2) (.subs3 (zOf size) op2 op1)
      else twoOrThree pending a (.subu (zOf size) o op2) (.subu3 (zOf size) op2 op1))
  | 3 => some (if zSigned size then .cmps (zOf size) o op2 else .cmpu (zOf size) o op2)
  | 4 =>
    match sizeOf? size with
    | some m => some (if a then .muls m op1 op2 else .mulu m op1 op2)
    | none => decodeJump op2 a o op1
  | 5 =>
    match sizeOf? size with
    | some m => some (.bdap m (simpleMemOf a op1) op2)
    | none => if op2 = 0#4 then some (.dip (simpleMemOf a op1)) else none
  | 6 =>
    match sizeOf? size with
    | some _ => none
    | none => if a then none else decodeJumpRegister op2 op1
  | 7 =>
    match sizeOf? size with
    | some m => some (twoOrThree pending a (.bound m o op2) (.bound3 m op2 op1))
    | none => if a && op1 == pcReg then some (.bccW (condOf op2)) else none
  | 8 =>
    match sizeOf? size with
    | some m => some (twoOrThree pending a (.add m o op2) (.add3 m op2 op1))
    | none => some (.moveSP o (specialOf op2))
  | 9 =>
    match sizeOf? size with
    | some m => some (.move m o op2)
    | none => some (clearOr op2 (fun m => .clear m o) (fun ps => .movePD ps o))
  | 10 =>
    match sizeOf? size with
    | some m => some (twoOrThree pending a (.sub m o op2) (.sub3 m op2 op1))
    | none => none
  | 11 =>
    match sizeOf? size with
    | some m => some (.cmp m o op2)
    | none => none
  | 12 =>
    match sizeOf? size with
    | some m => some (twoOrThree pending a (.and m o op2) (.and3 m op2 op1))
    | none => if op2 = 3#4 then some (.rbf o) else none
  | 13 =>
    match sizeOf? size with
    | some m => some (twoOrThree pending a (.or m o op2) (.or3 m op2 op1))
    | none => if op2 = 3#4 then some (.sbfs o) else none
  | 14 =>
    match sizeOf? size with
    | some m => if op2 = 0#4 then some (.test m o) else none
    | none => some (.movemLoad o op2)
  | _ =>
    match sizeOf? size with
    | some m => some (.moveStore m op2 o)
    | none => some (.movemStore op2 o)

/-- The row of the opcode table that a word belongs to, macro rows skipped (R106). -/
def decodeRow (pending : Bool) (op2 : BitVec 4) (mode : BitVec 2) (opc : BitVec 4)
    (size : BitVec 2) (op1 : BitVec 4) : Option Instr :=
  match mode.toNat with
  | 0 => some (decodeQuick op2 opc size op1)
  | 1 => decodeRegister op2 opc size op1
  | 2 => decodeMemory pending false op2 opc size op1
  | _ => decodeMemory pending true op2 opc size op1

/-- Decode one word, given whether a prefix is pending (R106, R114). -/
def decodeWord (pending : Bool) (w : Half) : Except DecodeError Instr :=
  match decodeRow pending (op2Of w) (modeOf w) (opcOf w) (sizeBitsOf w) (op1Of w) with
  | none => .error .reserved
  | some i => if pending && i.prefixUse == .never then .error .prefixNotTaken else .ok i.named

/-- The word at two consecutive bytes, the lower address first (20_memory.md R71). -/
def halfOfBytes (lo hi : Byte) : Half := hi ++ lo

/-- Decode from the bytes of the instruction stream, lowest address first. -/
def decode (pending : Bool) : List Byte → Except DecodeError Instr
  | lo :: hi :: _ => decodeWord pending (halfOfBytes lo hi)
  | _ => .error .truncated

/-- The boxes of an Mode 1x word: bit 10 and Operand1 of a memory operand (R110, R114). -/
def simpleMemCode : SimpleMem → BitVec 2 × BitVec 4
  | .indirect r => (2#2, r)
  | .autoinc r => (3#2, r)
  | .immediate => (3#2, pcReg)

/-- As `simpleMemCode`, for every memory operand. -/
def memCode : MemOperand → BitVec 2 × BitVec 4
  | .simple o => simpleMemCode o
  | .complex op1 => (2#2, op1)
  | .assign r => (3#2, r)

/-- A Mode 1x word. -/
def memWord (op2 opc : BitVec 4) (size : BitVec 2) (o : MemOperand) : Half :=
  wordOf op2 (memCode o).1 opc size (memCode o).2

/-- A word whose low six bits are a quick immediate (R105). -/
def quick6Word (rd opc : BitVec 4) (i : BitVec 6) : Half :=
  wordOf rd 0#2 opc (i.extractLsb' 4 2) (i.extractLsb' 0 4)

/-- A word whose low five bits are a shift count or bit number, bit 5 a sub-opcode (R105, R107). -/
def quick5Word (rd opc : BitVec 4) (sub : BitVec 1) (c : BitVec 5) : Half :=
  wordOf rd 0#2 opc (sub ++ c.extractLsb' 4 1) (c.extractLsb' 0 4)

/-- A word whose low byte is an offset (R107, R118). -/
def offsetWord (op2 : BitVec 4) (opc : BitVec 2) (o : BitVec 8) : Half :=
  wordOf op2 0#2 (opc ++ o.extractLsb' 6 2) (o.extractLsb' 4 2) (o.extractLsb' 0 4)

/-- The Size field of the fixed-size instructions (R109, R111). -/
def noSize : BitVec 2 := 3#2

/-- Bits 15:12 of CLEAR: the Size table over 00 (R116). -/
def clearCode (m : Size) : BitVec 4 := sizeCode m ++ 0#2

/-- The word of an instruction, row by row of R104 and R107 to R116. -/
def encodeWord : Instr → Half
  | .bcc q o => offsetWord (condCode q) 0#2 o
  | .bdapQ o rb => offsetWord rb 1#2 o
  | .addq j rd => quick6Word rd 8#4 j
  | .moveq i rd => quick6Word rd 9#4 i
  | .subq j rd => quick6Word rd 10#4 j
  | .cmpq i rd => quick6Word rd 11#4 i
  | .andq i rd => quick6Word rd 12#4 i
  | .orq i rd => quick6Word rd 13#4 i
  | .btstq c rd => quick5Word rd 14#4 0#1 c
  | .asrq c rd => quick5Word rd 14#4 1#1 c
  | .lslq c rd => quick5Word rd 15#4 0#1 c
  | .lsrq c rd => quick5Word rd 15#4 1#1 c
  | .adduR z rs rd => wordOf rd 1#2 0#4 (zCode false z) rs
  | .addsR z rs rd => wordOf rd 1#2 0#4 (zCode true z) rs
  | .movuR z rs rd => wordOf rd 1#2 1#4 (zCode false z) rs
  | .movsR z rs rd => wordOf rd 1#2 1#4 (zCode true z) rs
  | .subuR z rs rd => wordOf rd 1#2 2#4 (zCode false z) rs
  | .subsR z rs rd => wordOf rd 1#2 2#4 (zCode true z) rs
  | .lslR m rs rd => wordOf rd 1#2 3#4 (sizeCode m) rs
  | .negR m rs rd => wordOf rd 1#2 6#4 (sizeCode m) rs
  | .boundR m rs rd => wordOf rd 1#2 7#4 (sizeCode m) rs
  | .addR m rs rd => wordOf rd 1#2 8#4 (sizeCode m) rs
  | .moveR m rs rd => wordOf rd 1#2 9#4 (sizeCode m) rs
  | .subR m rs rd => wordOf rd 1#2 10#4 (sizeCode m) rs
  | .cmpR m rs rd => wordOf rd 1#2 11#4 (sizeCode m) rs
  | .andR m rs rd => wordOf rd 1#2 12#4 (sizeCode m) rs
  | .orR m rs rd => wordOf rd 1#2 13#4 (sizeCode m) rs
  | .asrR m rs rd => wordOf rd 1#2 14#4 (sizeCode m) rs
  | .lsrR m rs rd => wordOf rd 1#2 15#4 (sizeCode m) rs
  | .addi m rs rd => wordOf rs 1#2 4#4 (sizeCode m) rd
  | .nop => 0x050F#16
  | .biap m ri rb => wordOf ri 1#2 5#4 (sizeCode m) rb
  | .btst rs rd => wordOf rd 1#2 3#4 noSize rs
  | .abs rs rd => wordOf rd 1#2 10#4 noSize rs
  | .dstep rs rd => wordOf rd 1#2 11#4 noSize rs
  | .lz rs rd => wordOf rd 1#2 12#4 noSize rs
  | .xor rs rd => wordOf rd 1#2 14#4 noSize rs
  | .mstep rs rd => wordOf rd 1#2 15#4 noSize rs
  | .scc q rd => wordOf (condCode q) 1#2 4#4 noSize rd
  | .setf l => wordOf (nibble l.m l.b l.i l.x) 1#2 6#4 noSize (nibble l.n l.z l.v l.c)
  | .clearf l => wordOf (nibble l.m l.b l.i l.x) 1#2 7#4 noSize (nibble l.n l.z l.v l.c)
  | .moveRP rs pd => wordOf (specialCode pd) 1#2 8#4 noSize rs
  | .movePR ps rd => wordOf (specialCode ps) 1#2 9#4 noSize rd
  | .swap o rd => wordOf (nibble o.n o.w o.b o.r) 1#2 13#4 noSize rd
  | .clearR m rd => wordOf (clearCode m) 1#2 9#4 noSize rd
  | .addu z s rd => memWord rd 0#4 (zCode false z) s
  | .adds z s rd => memWord rd 0#4 (zCode true z) s
  | .movu z s rd => memWord rd 1#4 (zCode false z) s
  | .movs z s rd => memWord rd 1#4 (zCode true z) s
  | .subu z s rd => memWord rd 2#4 (zCode false z) s
  | .subs z s rd => memWord rd 2#4 (zCode true z) s
  | .cmpu z s rd => memWord rd 3#4 (zCode false z) s
  | .cmps z s rd => memWord rd 3#4 (zCode true z) s
  | .bound m s rd => memWord rd 7#4 (sizeCode m) s
  | .add m s rd => memWord rd 8#4 (sizeCode m) s
  | .move m s rd => memWord rd 9#4 (sizeCode m) s
  | .sub m s rd => memWord rd 10#4 (sizeCode m) s
  | .cmp m s rd => memWord rd 11#4 (sizeCode m) s
  | .and m s rd => memWord rd 12#4 (sizeCode m) s
  | .or m s rd => memWord rd 13#4 (sizeCode m) s
  | .mulu m rs rd => wordOf rd 2#2 4#4 (sizeCode m) rs
  | .muls m rs rd => wordOf rd 3#2 4#4 (sizeCode m) rs
  | .jump s => memWord 0#4 4#4 noSize s
  | .jumpR rs => wordOf 0#4 2#2 6#4 noSize rs
  | .jirc s => memWord 2#4 4#4 noSize s
  | .jircR rs => wordOf 2#4 2#2 6#4 noSize rs
  | .jsrc s => memWord 3#4 4#4 noSize s
  | .jsrcR rs => wordOf 3#4 2#2 6#4 noSize rs
  | .jbrc s => memWord 6#4 4#4 noSize s
  | .jbrcR rs => wordOf 6#4 2#2 6#4 noSize rs
  | .jir s => memWord 10#4 4#4 noSize s
  | .jirR rs => wordOf 10#4 2#2 6#4 noSize rs
  | .jsr s => memWord 11#4 4#4 noSize s
  | .jsrR rs => wordOf 11#4 2#2 6#4 noSize rs
  | .jmpu s => memWord 8#4 4#4 noSize s
  | .brk n => wordOf 14#4 2#2 4#4 noSize n
  | .bdap m s rb => memWord rb 5#4 (sizeCode m) (.simple s)
  | .dip s => memWord 0#4 5#4 noSize (.simple s)
  | .bccW q => wordOf (condCode q) 3#2 7#4 noSize 15#4
  | .moveSP s pd => memWord (specialCode pd) 8#4 noSize s
  | .movePD ps d => memWord (specialCode ps) 9#4 noSize d
  | .clear m d => memWord (clearCode m) 9#4 noSize d
  | .rbf s => memWord 3#4 12#4 noSize s
  | .sbfs d => memWord 3#4 13#4 noSize d
  | .test m s => memWord 0#4 14#4 (sizeCode m) s
  | .movemLoad s rd => memWord rd 14#4 noSize s
  | .moveStore m rs d => memWord rs 15#4 (sizeCode m) d
  | .movemStore rs d => memWord rs 15#4 noSize d
  | .add3 m rn rd => wordOf rn 2#2 8#4 (sizeCode m) rd
  | .sub3 m rn rd => wordOf rn 2#2 10#4 (sizeCode m) rd
  | .and3 m rn rd => wordOf rn 2#2 12#4 (sizeCode m) rd
  | .or3 m rn rd => wordOf rn 2#2 13#4 (sizeCode m) rd
  | .bound3 m rn rd => wordOf rn 2#2 7#4 (sizeCode m) rd
  | .addu3 z rn rd => wordOf rn 2#2 0#4 (zCode false z) rd
  | .adds3 z rn rd => wordOf rn 2#2 0#4 (zCode true z) rd
  | .subu3 z rn rd => wordOf rn 2#2 2#4 (zCode false z) rd
  | .subs3 z rn rd => wordOf rn 2#2 2#4 (zCode true z) rd
  | .ax => 0x15B0#16
  | .di => 0x25F0#16
  | .ei => 0x25B0#16
  | .not rd => wordOf 8#4 1#2 13#4 noSize rd
  | .ret => 0xB67F#16
  | .retb => 0xE67F#16
  | .reti => 0xA67F#16
  | .popR rd => wordOf rd 3#2 9#4 2#2 14#4
  | .popP pd => wordOf (specialCode pd) 3#2 8#4 noSize 14#4
  | .pushR rs => wordOf rs 3#2 15#4 2#2 14#4
  | .pushP ps => wordOf (specialCode ps) 3#2 9#4 noSize 14#4
  | .testR m rs => wordOf rs 1#2 9#4 (sizeCode m) rs

/-- The bytes of a word, lowest address first (20_memory.md R71). -/
def bytesOfHalf (w : Half) : List Byte := [w.extractLsb' 0 8, w.extractLsb' 8 8]

/-- The bytes of an instruction's word in the instruction stream. -/
def encode (i : Instr) : List Byte := bytesOfHalf (encodeWord i)

/-- The low `8 * k` bits of a number as `k` bytes, least significant first. -/
def bytesOfNat : Nat → Nat → List Byte
  | 0, _ => []
  | k + 1, w => BitVec.ofNat 8 w :: bytesOfNat k (w / 256)

/-- The instruction the decoder reads, with no prefix pending, from an instruction whose bits are
`w`, numbered as the opcode table numbers them. -/
def decodeTableWord (nbits w : Nat) : Option Instr :=
  match decode false (bytesOfNat (nbits / 8) w) with
  | .ok i => some i
  | .error _ => none

end Sys2Proof
end

