-- ==== Sys2Proof/Config.lean ====
section
/-! DEFINITION. What the spec leaves to an implementation (00_scope.md R5): values the assumption
log names, and free values, which are opaque so that nothing can be proved of them. -/

namespace Sys2Proof.Config

/-- What a byte of memory that nothing has written reads as. DESIGN CHOICE, unsafe (log 7): R48
gives memory no value. -/
def unlistedByte : Byte := 0#8

/-- `VR_VALUE` (R5, 10_state.md R27). PRESUMED 10, unsafe (log 6). -/
def vrValue : BitVec 8 := 10#8

/-- `RESET_STATE.pc` (R48): OPEN, must be even. DESIGN CHOICE 0, unsafe (log 3). -/
def resetPc : Word := 0#32

/-- The content of the hidden CPU status record, BFSR, at each draw (10_state.md R43). A free
value: the record's content is unspecified (log 17). -/
opaque statusRecord : Nat → BitVec 128

/-- The restart address in a CPU status record (44_flags_and_system.md R358). A free function: the
record's layout is not in the source (log 14). -/
opaque recordRestart : BitVec 128 → Word

/-- The bit of the record from which RBF sets X (R358). Free (log 14). -/
opaque recordX : BitVec 128 → Bool

/-- The bit of the record from which RBF sets U (R358). Free (log 14). -/
opaque recordU : BitVec 128 → Bool

/-- The "once more" bit of the record (R358; 60_exceptions.md R429 item 5). Free (log 14). -/
opaque recordOnceMore : BitVec 128 → Bool

/-- The register number at which an interrupted MOVEM resumes, if a MOVEM was interrupted (R358;
R429 item 6). Free (log 14). -/
opaque recordMovem : BitVec 128 → Option GReg

/-- The addressing-mode prefix that was pending at the restart boundary: its address and whether it
may be assigned (R358 "restore the internal CPU state"; 10_state.md R41). Free (log 16). -/
opaque recordPrefix : BitVec 128 → Option (Word × Bool)

/-- The delayed jump that was pending at the restart boundary: its target, or none for
"sequential", and its user-mode check (R429 item 5; 10_state.md R44). Free (log 16). -/
opaque recordDelay : BitVec 128 → Option (Option Word × Bool)

/-- Whether an RBF that stands in a delay slot goes to the restart address and drops the pending
jump (R358), or completes the pending jump (R45 step 7). The spec says both; free (log 15). -/
opaque rbfReplacesPendingJump : Bool

end Sys2Proof.Config
end

