-- ==== Sys2Proof/Machine/State.lean ====
section
/-! DEFINITION. The state of the machine as plain data, and how a step can stop
(10_state.md R20 to R48, 20_memory.md R72 and R78). -/

namespace Sys2Proof.Machine

/-- The operating mode, apart from the U flag (R40). -/
inductive Mode where
  | supervisor | user
  deriving DecidableEq, Repr

/-- The eleven flags (R29, R30). CCR and DCCR are views of them (R28, R33). -/
structure Flags where
  f : Bool
  p : Bool
  u : Bool
  m : Bool
  b : Bool
  i : Bool
  x : Bool
  n : Bool
  z : Bool
  v : Bool
  c : Bool
  deriving DecidableEq, Repr

/-- PREFIX, the pending addressing-mode prefix (R41). -/
structure Prefix where
  ea : Word
  /-- False only after a DIP prefix word. -/
  assignOk : Bool
  deriving DecidableEq, Repr

/-- Where a pending delayed jump goes (R44). -/
inductive Target where
  | addr (a : Word)
  /-- A branch not taken: the address after the slot instruction. -/
  | sequential
  deriving DecidableEq, Repr

/-- DELAY, the pending delayed jump (R44). -/
structure Delay where
  target : Target
  /-- RETB and RETI: test U after the slot instruction. -/
  userCheck : Bool
  deriving DecidableEq, Repr

/-- Memory as address and byte pairs, addresses strictly rising, no byte equal to what an unlisted
address reads as (R72; log 7). -/
abbrev Memory := List Host.Cell

/-- The classes of MEMORY_MAP other than unmapped (20_memory.md R78). -/
inductive RegionKind where
  /-- Readable, writable, no side effects; fetched from (log 9). -/
  | ram
  /-- Readable and executable; a store is refused (R83). -/
  | code
  /-- Its behaviour is not in the source: refused (R78). -/
  | device
  deriving DecidableEq, Repr

/-- One region of MEMORY_MAP: the addresses `base` to `base + size - 1`. -/
structure Region where
  base : Nat
  size : Nat
  kind : RegionKind
  deriving DecidableEq, Repr

/-- The state of the machine. The last three fields are the model's own (log 8, 11, 17). -/
structure State where
  /-- R0 to R14 (R20); R14 is SP (R21). -/
  regs : Vector Word 15
  /-- PC, general register number 15: the address of the next instruction word (R22, R23). -/
  pc : Word
  flags : Flags
  /-- P7 (R35). -/
  mof : Word
  /-- P9 (R36). -/
  ibr : Word
  /-- P10 (R37). -/
  irp : Word
  /-- P11 (R37). -/
  srp : Word
  /-- P12 (R38). -/
  bar : Word
  /-- P14 (R37). -/
  brp : Word
  /-- P15 (R39). -/
  usp : Word
  mode : Mode
  pfx : Option Prefix
  delay : Option Delay
  /-- INHIBIT, the one-instruction interrupt window (R42). -/
  inhibit : Bool
  /-- Set by RBF: the register at which a restarted MOVEM resumes (R358, R429 item 6). -/
  resumeAt : Option GReg
  /-- Set by RBF: test U "once more after the restarted instruction" (R358, R431). -/
  onceMore : Bool
  mem : Memory
  /-- Which draw of the free value `Config.statusRecord` BFSR holds (R43; log 17). -/
  bfsrDraw : Nat
  /-- The addresses that stores of this run have written, strictly rising (R83, R468; log 11). -/
  stored : List Nat
  /-- MEMORY_MAP; an address in no region is unmapped (R78; log 8). -/
  memMap : List Region
  deriving DecidableEq, Repr

/-- The flags after reset: X, U and I as R48 gives them, the others DESIGN CHOICE clear, unsafe
(log 4). -/
def resetFlags : Flags :=
  ⟨false, false, false, false, false, false, false, false, false, false, false⟩

/-- The machine right after reset (R48). X = 0, U = 0, I = 0, supervisor mode, no prefix, no delayed
jump and no interrupt window are the spec's; the registers are DESIGN CHOICE zero, unsafe (log 2, 3,
5); the memory map is DESIGN CHOICE, unsafe (log 8); that nothing is left of a restart, `resumeAt`
none and `onceMore` false, is DESIGN CHOICE, unsafe (log 38). -/
def State.reset : State where
  regs := Vector.replicate 15 0#32
  pc := Config.resetPc
  flags := resetFlags
  mof := 0#32
  ibr := 0#32
  irp := 0#32
  srp := 0#32
  bar := 0#32
  brp := 0#32
  usp := 0#32
  mode := .supervisor
  pfx := none
  delay := none
  inhibit := false
  resumeAt := none
  onceMore := false
  mem := []
  bfsrDraw := 0
  stored := []
  memMap := [⟨0, 4294967296, .ram⟩]

/-- What an access does (R72). -/
inductive Access where
  | read
  | write
  /-- MemFetch: the instruction word. -/
  | fetch
  /-- An operand in the instruction stream: MemRead at `npc` (40_operands_and_prefixes.md R146,
  45_control_transfer.md R381), which counts as fetched for D11 (log 11). -/
  | stream
  deriving DecidableEq, Repr

/-- Faults: the run ends (60_exceptions.md R429). -/
inductive Fault where
  /-- `raise BusFault(addr, kind)`: an access that MEMORY_MAP does not admit, under the default
  BUSFAULT_MODEL (R72, R429, D14). Raised by every memory access and fetch. Safe: the routine's
  address and the record's layout are not in the source, so the run ends (log 19). The kind
  of a failed MemFetch is DESIGN CHOICE (log 39). -/
  | busFault (addr : Word) (kind : Access)
  deriving DecidableEq, Repr

/-- Refusals: the spec gives the case no meaning (00_scope.md R7). Each is safe: nothing can be
proved of a program that reaches it. -/
inductive Refusal where
  /-- An instruction of the table with no meaning in this model; raised by exec's arms only. -/
  | notModelled (mnemonic : String)
  /-- A fetch from an odd PC; raised by step (10_state.md R24, D3). -/
  | oddPc
  /-- A word that no row of the opcode table matches; raised by step (30_encoding.md R120, D4). -/
  | reservedWord
  /-- A prefix before a word that takes none; raised by step (R114, R151, D4). -/
  | prefixNotTaken
  /-- A form that stands only after a prefix word, with none pending; raised by meanings, never
  through step (R106, R158). -/
  | prefixMissing
  /-- An instruction that may not stand in a delay slot; raised by step (R462, D18). -/
  | invalidDelaySlot
  /-- Register number 15 where the spec gives it no meaning; raised by every register operand
  (R25, D5). -/
  | pcOperand
  /-- An immediate operand where the spec admits none: a destination, MOVEM, RBF, JMPU (R146, D5). -/
  | immediateNotAllowed
  /-- Operand1 after a prefix with md = 0 does not hold what the page requires (R157, D4). -/
  | operand1Mismatch
  /-- md = 1 after a DIP prefix (R156, D4). -/
  | assignAfterDip
  /-- One register both updated address and destination or stored register (R148, R155, D13). -/
  | sameRegister
  /-- DSTEP or MSTEP with Rs = Rd (R216, R218, D22). -/
  | stepSameRegister
  /-- P2, P3 or P6 (R27, D21). -/
  | reservedSpecial
  /-- A byte or word special register moved to PC, CLEAR.B PC, CLEAR.W PC (R301, R305). -/
  | narrowToPc
  /-- Bcc with an odd 16-bit offset (R118, R381, D3). -/
  | oddBranchOffset
  /-- A fetch of a byte that a store of this run has written (R83, R468, D11). -/
  | fetchOfStored
  /-- A store to a code region (R83). -/
  | storeToCode
  /-- An access to a device region, whose behaviour is not in the source (R78, D10). -/
  | deviceAccess
  deriving DecidableEq, Repr

/-- Why an instruction did not complete. -/
inductive Stop where
  | fault (f : Fault)
  | refused (r : Refusal)
  deriving DecidableEq, Repr

/-- What an operation answers: a value, or the reason it stopped. -/
abbrev Res (α : Type) := Except Stop α

/-- What an instruction does apart from its writes: the variables of one pass through the
instruction cycle (10_state.md R45). -/
structure Flow where
  /-- The address after the last stream word consumed. -/
  npc : Word
  /-- `inhibit` (R42). -/
  inhibit : Bool := false
  /-- `pc <- t`, an immediate jump. -/
  jump : Option Word := none
  /-- `delay <- t`, a delayed jump (R44). -/
  delay : Option Delay := none
  /-- `newprefix` (R41). -/
  pfx : Option Prefix := none
  /-- The X flag afterwards: clear by default (R46). -/
  x : Bool := false
  /-- RBF: where a restarted MOVEM resumes. -/
  resumeAt : Option GReg := none
  /-- RBF: test U once more after the restarted instruction. -/
  onceMore : Bool := false
  deriving DecidableEq, Repr

/-- A memory operand's address, and the register written after the access with its new value:
autoincrement or assign (R144, R150). -/
structure Place where
  ea : Word
  update : Option (GReg × Word)
  deriving DecidableEq, Repr

/-- A source operand read: its value, the state with the operand's register side effect, and the
stream position after it (R150). -/
structure Source (w : Nat) where
  value : BitVec w
  state : State
  npc : Word
  deriving DecidableEq, Repr

/-- What the Operand1 field must hold after a prefix word with md = 0 (R157). -/
inductive Operand1Rule where
  | ignored
  | mustBe (r : Reg)
  deriving DecidableEq, Repr

/-- A sized sum or difference with its carry (or borrow) and overflow (00_scope.md R8). -/
structure AluOut (w : Nat) where
  value : BitVec w
  carry : Bool
  overflow : Bool
  deriving DecidableEq, Repr

end Sys2Proof.Machine
end

