-- ==== Sys2Proof/Machine/Flags.lean ====
section
/-! DEFINITION. Flag computations: the add, subtract and logic patterns, the flag register views and
the condition codes (00_scope.md R8, 10_state.md R31 to R34, 41_arithmetic.md R200). -/

namespace Sys2Proof.Machine

/-- `ADD_n(a, b, cin)` (R8). -/
def addSized {w : Nat} (a b : BitVec w) (cin : Bool) : AluOut w :=
  let r := BitVec.ofNat w (a.toNat + b.toNat + cin.toNat)
  { value := r
    carry := decide (2 ^ w ≤ a.toNat + b.toNat + cin.toNat)
    overflow := a.msb == b.msb && r.msb != a.msb }

/-- `SUB_n(a, b, bin)` (R8); the carry is the borrow. -/
def subSized {w : Nat} (a b : BitVec w) (bin : Bool) : AluOut w :=
  let r := a - b - BitVec.ofNat w bin.toNat
  { value := r
    carry := decide (a.toNat < b.toNat + bin.toNat)
    overflow := a.msb != b.msb && r.msb != a.msb }

/-- `CarryIn()`: C when X is set, else 0 (R32, R200). PRESUMED, unsafe (log 12): the carry-chain
setting of X_EXTENDED_ARITH. -/
def Flags.carryIn (fl : Flags) : Bool := fl.x && fl.c

/-- `SetArith_n(r, c, v)` (R200): Z is sticky when X is set (R32; log 12). -/
def Flags.setArith {w : Nat} (fl : Flags) (o : AluOut w) : Flags :=
  { fl with
    n := o.value.msb
    z := o.value == 0#w && (!fl.x || fl.z)
    v := o.overflow
    c := o.carry }

/-- N and Z given, V and C cleared: the flags row `N=* Z=* V=0 C=0` (R260, R300). -/
def Flags.setNZ (fl : Flags) (n z : Bool) : Flags :=
  { fl with n := n, z := z, v := false, c := false }

/-- `SetLogic_n(r)` (R200). -/
def Flags.setLogic {w : Nat} (fl : Flags) (r : BitVec w) : Flags :=
  fl.setNZ r.msb (r == 0#w)

/-- The flags of a 64-bit product, with the V that the page defines (R219, R220). -/
def Flags.setProduct (fl : Flags) (p : BitVec 64) (v : Bool) : Flags :=
  { fl with n := p.msb, z := p == 0#64, v := v, c := false }

/-- `ReadFlags(32)`; CCR is its low half (R28, R29, R33). -/
def Flags.read (fl : Flags) : Word :=
  (0#21 ++ BitVec.ofBool fl.f ++ BitVec.ofBool fl.p ++ BitVec.ofBool fl.u ++ BitVec.ofBool fl.m
    ++ BitVec.ofBool fl.b ++ BitVec.ofBool fl.i ++ BitVec.ofBool fl.x ++ BitVec.ofBool fl.n
    ++ BitVec.ofBool fl.z ++ BitVec.ofBool fl.v ++ BitVec.ofBool fl.c : BitVec 32)

/-- `WriteFlags(v)`: M unchanged, X cleared (R33). -/
def Flags.write (fl : Flags) (v : Word) : Flags where
  f := v.getLsbD 10
  p := v.getLsbD 9
  u := v.getLsbD 8
  m := fl.m
  b := v.getLsbD 6
  i := v.getLsbD 5
  x := false
  n := v.getLsbD 3
  z := v.getLsbD 2
  v := v.getLsbD 1
  c := v.getLsbD 0

/-- SETF: the listed flags set; X is the list's X (R356). -/
def Flags.setList (fl : Flags) (l : FlagList) : Flags :=
  { fl with
    m := fl.m || l.m
    b := fl.b || l.b
    i := fl.i || l.i
    x := l.x
    n := fl.n || l.n
    z := fl.z || l.z
    v := fl.v || l.v
    c := fl.c || l.c }

/-- CLEARF: the listed flags cleared, and F, P, X always; M and U kept, the list's M bit ignored
(R352). -/
def Flags.clearList (fl : Flags) (l : FlagList) : Flags :=
  { fl with
    f := false
    p := false
    b := fl.b && !l.b
    i := fl.i && !l.i
    x := false
    n := fl.n && !l.n
    z := fl.z && !l.z
    v := fl.v && !l.v
    c := fl.c && !l.c }

/-- `cond(cc)`, Table 3-1 (R34). -/
def condHolds (q : Cond) (fl : Flags) : Bool :=
  match q with
  | .cc => !fl.c
  | .cs => fl.c
  | .ne => !fl.z
  | .eq => fl.z
  | .vc => !fl.v
  | .vs => fl.v
  | .pl => !fl.n
  | .mi => fl.n
  | .ls => fl.c || fl.z
  | .hi => !fl.c && !fl.z
  | .ge => (fl.n && fl.v) || (!fl.n && !fl.v)
  | .lt => (fl.n && !fl.v) || (!fl.n && fl.v)
  | .gt => (fl.n && fl.v && !fl.z) || (!fl.n && !fl.v && !fl.z)
  | .le => fl.z || (fl.n && !fl.v) || (!fl.n && fl.v)
  | .a => true
  | .wf => fl.p

end Sys2Proof.Machine
end

