-- ==== Sys2Proof/Machine/Ops.lean ====
section
/-! DEFINITION. The named operations over registers and memory, the end of the instruction cycle,
and taking and leaving the BREAK trap (10_state.md R45; 20_memory.md R72; 60_exceptions.md R422). -/

namespace Sys2Proof.Machine

/-- The outcome of an instruction. -/
def outcome (r : Res State) : Host.Outcome State Fault Refusal :=
  match r with
  | .ok s => .next s
  | .error (.fault f) => .fault f
  | .error (.refused q) => .refused q

/-- Refuse the case by name (00_scope.md R7). -/
def refuse {α : Type} (q : Refusal) : Res α := .error (.refused q)

/-- Refuse unless the condition holds. -/
def require (c : Bool) (q : Refusal) : Res Unit := if c then .ok () else refuse q

/-! ### General registers -/

/-- The general register a field names; 15 is refused (R25, D5). -/
def gpr (r : Reg) : Res GReg :=
  if h : r.toNat < 15 then .ok ⟨r.toNat, h⟩ else refuse .pcOperand

/-- `R[g]` (R7, R20). -/
def State.reg (s : State) (g : GReg) : Word := s.regs[g]

/-- `R[g] <- v` (R7, R20). -/
def State.setReg (s : State) (g : GReg) (v : Word) : State := { s with regs := s.regs.set g v }

/-- `low_m(v)` (R8). -/
def low (m : Size) (v : Word) : BitVec m.bits := v.setWidth m.bits

/-- `merge_m(old, v)`: write the low part, keep the rest (R8). -/
def merge : (m : Size) → Word → BitVec m.bits → Word
  | .byte, old, v => (old.extractLsb' 8 24 ++ v : BitVec 32)
  | .word, old, v => (old.extractLsb' 16 16 ++ v : BitVec 32)
  | .dword, _, v => v

/-- `R[g] <- merge_m(R[g], v)`. -/
def State.setLow (s : State) (m : Size) (g : GReg) (v : BitVec m.bits) : State :=
  s.setReg g (merge m (s.reg g) v)

/-! ### Memory -/

/-- Read one byte of the list; an unlisted address reads as `Config.unlistedByte`. -/
def Memory.read : Memory → Nat → Byte
  | [], _ => Config.unlistedByte
  | (x, c) :: t, a => if a = x then c else Memory.read t a

/-- Write one byte, keeping the canonical form. -/
def Memory.write : Memory → Nat → Byte → Memory
  | [], a, b => if b = Config.unlistedByte then [] else [(a, b)]
  | (x, c) :: t, a, b =>
    if a < x then (if b = Config.unlistedByte then (x, c) :: t else (a, b) :: (x, c) :: t)
    else if a = x then (if b = Config.unlistedByte then t else (a, b) :: t)
    else (x, c) :: Memory.write t a b

/-- Every listed address is at least `lo`, addresses rise, lie below 2^32, and no entry is what an
unlisted address reads as. -/
def Memory.wfFrom : Nat → Memory → Bool
  | _, [] => true
  | lo, (x, c) :: t =>
    decide (lo ≤ x) && decide (x < 4294967296) && c != Config.unlistedByte
      && Memory.wfFrom (x + 1) t

/-- The canonical form of memory. -/
def Memory.wf (m : Memory) : Bool := Memory.wfFrom 0 m

/-- Add an address to a strictly rising list. -/
def insertAddr : List Nat → Nat → List Nat
  | [], a => [a]
  | x :: t, a => if a < x then a :: x :: t else if a = x then x :: t else x :: insertAddr t a

/-- Strictly rising addresses below 2^32, the first at least `lo`. -/
def addrsRiseFrom : Nat → List Nat → Bool
  | _, [] => true
  | lo, x :: t => decide (lo ≤ x) && decide (x < 4294967296) && addrsRiseFrom (x + 1) t

/-- The byte at an address (R72). -/
def State.byteAt (s : State) (a : Word) : Byte := Memory.read s.mem a.toNat

/-- The class of an address; none is unmapped (R78). -/
def kindIn : List Region → Nat → Option RegionKind
  | [], _ => none
  | r :: t, a => if r.base ≤ a ∧ a < r.base + r.size then some r.kind else kindIn t a

/-- The kind of the bus fault that an access raises (R72). A stream operand is a MemRead (R146, R381),
so its kind is `read`. MemFetch raises `fetch`: DESIGN CHOICE, unsafe for a claim that names the
kind, since R72 says only "as MemRead" (log 39). -/
def Access.faultKind : Access → Access
  | .read => .read
  | .write => .write
  | .fetch => .fetch
  | .stream => .read

/-- The access takes bytes of the instruction stream, which no store of the run may have written
(R83, R468; log 11). -/
def Access.fetches : Access → Bool
  | .read => false
  | .write => false
  | .fetch => true
  | .stream => true

/-- Whether one byte may be accessed (R72, R78, R83); the kind of a bus fault is the model's choice for
an instruction word (log 39). -/
def accessByte (acc : Access) (s : State) (a : Word) : Res Unit :=
  match kindIn s.memMap a.toNat with
  | none => .error (.fault (.busFault a acc.faultKind))
  | some .device => refuse .deviceAccess
  | some .code => require (acc != .write) .storeToCode
  | some .ram => require (!acc.fetches || !s.stored.contains a.toNat) .fetchOfStored

/-- Whether `k` bytes from `a` upward may be accessed, in ascending order; addresses wrap (R72). -/
def accessAll (acc : Access) (s : State) (a : Word) : Nat → Res Unit
  | 0 => .ok ()
  | k + 1 => do
    accessByte acc s a
    accessAll acc s (a + 1) k

/-- The little-endian value at `a` (R71, R72). -/
def State.load (s : State) : (m : Size) → Word → BitVec m.bits
  | .byte, a => s.byteAt a
  | .word, a => (s.byteAt (a + 1) ++ s.byteAt a : BitVec 16)
  | .dword, a =>
    (s.byteAt (a + 3) ++ s.byteAt (a + 2) ++ s.byteAt (a + 1) ++ s.byteAt a : BitVec 32)

/-- `MemRead(a, k(m))` (R72). -/
def readMem (m : Size) (s : State) (a : Word) : Res (BitVec m.bits) := do
  accessAll .read s a m.bytes
  .ok (s.load m a)

/-- Store one byte and record that a store wrote it (R72, D11). -/
def State.storeByte (s : State) (a : Word) (b : Byte) : State :=
  { s with mem := Memory.write s.mem a.toNat b, stored := insertAddr s.stored a.toNat }

/-- Store the bytes of a value, the least significant at `a` (R71, R72). -/
def State.store (s : State) : (m : Size) → Word → BitVec m.bits → State
  | .byte, a, v => s.storeByte a v
  | .word, a, v =>
    (s.storeByte a (v.extractLsb' 0 8)).storeByte (a + 1) (v.extractLsb' 8 8)
  | .dword, a, v =>
    (((s.storeByte a (v.extractLsb' 0 8)).storeByte (a + 1) (v.extractLsb' 8 8)).storeByte
      (a + 2) (v.extractLsb' 16 8)).storeByte (a + 3) (v.extractLsb' 24 8)

/-- A write to memory overwrites the hidden status record: BFSR is a new draw (R43). -/
def State.redrawStatus (s : State) : State := { s with bfsrDraw := s.bfsrDraw + 1 }

/-- `MemWrite(a, k(m), v)` (R72). -/
def writeMem (m : Size) (s : State) (a : Word) (v : BitVec m.bits) : Res State := do
  accessAll .write s a m.bytes
  .ok (s.store m a v).redrawStatus

/-- The hidden status record, BFSR (R43). -/
def State.bfsr (s : State) : BitVec 128 := Config.statusRecord s.bfsrDraw

/-- `MemRead(a, 16)`, used by RBF (R72, R358). -/
def readRecord (s : State) (a : Word) : Res (BitVec 128) := do
  accessAll .read s a 16
  .ok (s.load .dword (a + 12) ++ s.load .dword (a + 8) ++ s.load .dword (a + 4)
    ++ s.load .dword a : BitVec 128)

/-- `MemWrite(a, 16, v)` as four dword writes, used by SBFS (R72, R359). -/
def writeRecord (s : State) (a : Word) (v : BitVec 128) : Res State := do
  accessAll .write s a 16
  .ok ((((s.store .dword a (v.extractLsb' 0 32)).store .dword (a + 4) (v.extractLsb' 32 32)).store
    .dword (a + 8) (v.extractLsb' 64 32)).store .dword (a + 12) (v.extractLsb' 96 32)).redrawStatus

/-- `MemFetch(a, 2)`: the bytes of an instruction word (R72). -/
def fetchBytes (s : State) (a : Word) : Res (List Byte) := do
  accessAll .fetch s a 2
  .ok [s.byteAt a, s.byteAt (a + 1)]

/-- `SrcImm(k)`: an operand in the instruction stream, and the stream position after it; a byte
takes a whole word, of which the low byte is the operand (40_operands_and_prefixes.md R146). The
bytes count as fetched (log 11), and a failed access is that of MemRead. -/
def readStream (m : Size) (s : State) (npc : Word) : Res (BitVec m.bits × Word) := do
  accessAll .stream s npc m.bytes
  .ok (s.load m npc, npc + BitVec.ofNat 32 (max m.bytes 2))

/-! ### Modes and the trap -/

/-- "make a transition to user mode if U is set" (R40, R431): the return side of an exception,
shared by JMPU, RBF and the end of a RETB or RETI slot. User mode restricts nothing: DESIGN CHOICE,
unsafe (log 13). -/
def State.returnMode (s : State) : State := if s.flags.u then { s with mode := .user } else s

/-- Taking an exception: the one entry sequence the source defines (60_exceptions.md R422). The
return address goes to BRP, the operating mode to U; supervisor mode, F set. I is not changed. -/
def State.enterTrap (s : State) (ret : Word) : State :=
  { s with
    brp := ret
    mode := .supervisor
    flags := { s.flags with u := s.mode == .user, f := true } }

/-- The handler's address for BREAK n: `IBR + 8*n`, modulo 2^32 (R422, R357). -/
def State.trapAddress (s : State) (n : BitVec 4) : Word := s.ibr + 8#32 * n.setWidth 32

/-! ### The end of the instruction cycle -/

/-- The address a delayed jump goes to after its slot instruction (R44). -/
def Target.resolve (t : Target) (npc : Word) : Word :=
  match t with
  | .addr a => a
  | .sequential => npc

/-- Step 7 of R45: where control goes next, and the user-mode check of a completed delayed jump. -/
def State.sequence (s : State) (fl : Flow) : State :=
  match s.delay with
  | some d =>
    let t := { s with pc := d.target.resolve fl.npc, delay := none }
    if d.userCheck then t.returnMode else t
  | none =>
    match fl.jump with
    | some a => { s with pc := a, delay := fl.delay }
    | none => { s with pc := fl.npc, delay := fl.delay }

/-- "set operating mode according to the U flag once more after the restarted instruction": the
request an RBF left pending (R358, R429 item 5). -/
def State.checkOnceMore (s : State) : State := if s.onceMore then s.returnMode else s

/-- Steps 5 to 8 of R45. -/
def finish (s : State) (fl : Flow) : State :=
  let s := { s with flags := { s.flags with x := fl.x }, pfx := fl.pfx }
  { (s.sequence fl).checkOnceMore with
    inhibit := fl.inhibit
    resumeAt := fl.resumeAt
    onceMore := fl.onceMore }

/-- The stream position after the instruction word (R23). -/
def State.npc0 (s : State) : Word := s.pc + 2

/-- End an instruction that consumed nothing but its word and does not jump. -/
def State.done (s : State) : State := finish s { npc := s.npc0 }

/-- As `done`, with `inhibit` (R42). -/
def State.doneInhibit (s : State) : State := finish s { npc := s.npc0, inhibit := true }

/-- An interrupt could be accepted at this boundary, were there one (60_exceptions.md R425;
R45 step 1). The model accepts none (log 18). -/
def State.interruptWindowOpen (s : State) : Bool :=
  !s.inhibit && s.pfx.isNone && s.delay.isNone

/-- As `interruptWindowOpen`, for a maskable interrupt (R424, R425). -/
def State.maskableWindowOpen (s : State) : Bool := s.interruptWindowOpen && s.flags.i

end Sys2Proof.Machine
end

