-- ==== Sys2Proof/Machine/Operands.lean ====
section
/-! DEFINITION. Operand access in every mode, and the special registers
(40_operands_and_prefixes.md R140 to R160; 10_state.md R26 to R33). -/

namespace Sys2Proof.Machine

/-- The pending prefix (R150). -/
def pendingPrefix (s : State) : Res Prefix :=
  match s.pfx with
  | some p => .ok p
  | none => refuse .prefixMissing

/-- `CheckOperand1` (R157). -/
def checkOperand1 (rule : Operand1Rule) (op1 : Reg) : Res Unit :=
  match rule with
  | .ignored => .ok ()
  | .mustBe r => require (op1 == r) .operand1Mismatch

/-- The address of a memory operand and its register side effect, `amount` being what
autoincrement adds (R143 to R145, R147, R150). The immediate mode has no place (R146). The checks
stand before the access (log 23). -/
def place (rule : Operand1Rule) (amount : Word) (s : State) : MemOperand → Res Place
  | .simple (.indirect r) => do
    let g ← gpr r
    .ok ⟨s.reg g, none⟩
  | .simple (.autoinc r) => do
    let g ← gpr r
    .ok ⟨s.reg g, some (g, s.reg g + amount)⟩
  | .simple .immediate => refuse .immediateNotAllowed
  | .complex op1 => do
    let p ← pendingPrefix s
    checkOperand1 rule op1
    .ok ⟨p.ea, none⟩
  | .assign r => do
    let p ← pendingPrefix s
    let g ← gpr r
    require p.assignOk .assignAfterDip
    .ok ⟨p.ea, some (g, p.ea)⟩

/-- The register side effect, made after the access (R144, R150). -/
def Place.commit (p : Place) (s : State) : State :=
  match p.update with
  | some (g, v) => s.setReg g v
  | none => s

/-- k(m) as an address increment (R145). -/
def Size.amount (m : Size) : Word := BitVec.ofNat 32 m.bytes

/-- The operand is not in the instruction stream. -/
def notImmediate (o : MemOperand) : Bool :=
  match o with
  | .simple .immediate => false
  | _ => true

/-- `SrcMem`: a source operand in memory or in the instruction stream (R146, R150). -/
def readSource (m : Size) (rule : Operand1Rule) (o : MemOperand) (s : State) (npc : Word) :
    Res (Source m.bits) :=
  if notImmediate o then do
    let p ← place rule (Size.amount m) s o
    let v ← readMem m s p.ea
    .ok ⟨v, p.commit s, npc⟩
  else do
    let v ← readStream m s npc
    .ok ⟨v.1, s, v.2⟩

/-- `DstMem`: store to a memory destination (R147). -/
def writeDest (m : Size) (rule : Operand1Rule) (o : MemOperand) (v : BitVec m.bits) (s : State) :
    Res State := do
  let p ← place rule (Size.amount m) s o
  let s ← writeMem m s p.ea v
  .ok (p.commit s)

/-- The register an operand updates: autoincrement or assign (R148). -/
def MemOperand.updates (o : MemOperand) : Option Reg :=
  match o with
  | .simple (.autoinc r) => some r
  | .assign r => some r
  | _ => none

/-- `Hazard(w)`: the updated address register is also the destination or the stored register
(R148, D13). -/
def noHazard (o : MemOperand) (r : Reg) : Res Unit :=
  require (MemOperand.updates o != some r) .sameRegister

/-- The same for MOVEM: the updated register lies within R0 to R`r` (R148, R306, R307). -/
def noRangeHazard (o : MemOperand) (r : Reg) : Res Unit :=
  match MemOperand.updates o with
  | some a => require (decide (r.toNat < a.toNat)) .sameRegister
  | none => .ok ()

/-! ### Special registers -/

/-- W(Pn), the width of a special register; P2, P3, P6 are refused (R26, R27, R300). -/
def specialSize : SpecialReg → Res Size
  | .p0 => .ok .byte
  | .vr => .ok .byte
  | .p2 => refuse .reservedSpecial
  | .p3 => refuse .reservedSpecial
  | .p4 => .ok .word
  | .ccr => .ok .word
  | .p6 => refuse .reservedSpecial
  | .mof => .ok .dword
  | .p8 => .ok .dword
  | .ibr => .ok .dword
  | .irp => .ok .dword
  | .srp => .ok .dword
  | .bar => .ok .dword
  | .dccr => .ok .dword
  | .brp => .ok .dword
  | .usp => .ok .dword

/-- The value of a special register, zero-extended (R27, R28, R305). P2, P3, P6 are not registers;
`specialSize` refuses them first. -/
def State.special (s : State) : SpecialReg → Word
  | .vr => Config.vrValue.setWidth 32
  | .ccr => s.flags.read
  | .dccr => s.flags.read
  | .mof => s.mof
  | .ibr => s.ibr
  | .irp => s.irp
  | .srp => s.srp
  | .bar => s.bar
  | .brp => s.brp
  | .usp => s.usp
  | .p0 => 0#32
  | .p4 => 0#32
  | .p8 => 0#32
  | .p2 => 0#32
  | .p3 => 0#32
  | .p6 => 0#32

/-- Write a special register: the zero registers and VR ignore it, CCR and DCCR write the flags
(R27, R33, R304). -/
def State.setSpecial (s : State) (p : SpecialReg) (v : Word) : State :=
  match p with
  | .ccr => { s with flags := s.flags.write v }
  | .dccr => { s with flags := s.flags.write v }
  | .mof => { s with mof := v }
  | .ibr => { s with ibr := v }
  | .irp => { s with irp := v }
  | .srp => { s with srp := v }
  | .bar => { s with bar := v }
  | .brp => { s with brp := v }
  | .usp => { s with usp := v }
  | .p0 => s
  | .vr => s
  | .p4 => s
  | .p8 => s
  | .p2 => s
  | .p3 => s
  | .p6 => s

end Sys2Proof.Machine
end

