-- ==== Sys2Proof/Machine/Forms.lean ====
section
/-! DEFINITION. The shapes that instructions share: which operands are read and written in which
order, and how the cycle ends. A meaning is one of these over an operation. An operation takes the
destination, the register that is its left operand, and the fetched operand. -/

namespace Sys2Proof.Machine

/-- Register mode, two registers (40_operands_and_prefixes.md R142). -/
def regForm (m : Size) (op : GReg → GReg → BitVec m.bits → State → State) (rs rd : Reg)
    (s : State) : Res State := do
  let d ← gpr rd
  let x ← gpr rs
  .ok (op d d (low m (s.reg x)) s).done

/-- A source operand in memory or immediate, with the same-register check (R148, R150). After a
prefix with md = 0 Operand1 must be the destination (R157). -/
def memForm (m : Size) (op : GReg → GReg → BitVec m.bits → State → State) (o : MemOperand)
    (rd : Reg) (s : State) : Res State := do
  let d ← gpr rd
  noHazard o rd
  let src ← readSource m (.mustBe rd) o s s.npc0
  .ok (finish (op d d src.value src.state) { npc := src.npc })

/-- The 3-operand form: the memory operand at the prefix's address, Rn left, Rd written (R158). -/
def threeForm (m : Size) (op : GReg → GReg → BitVec m.bits → State → State) (rn rd : Reg)
    (s : State) : Res State := do
  let d ← gpr rd
  let n ← gpr rn
  let p ← pendingPrefix s
  let v ← readMem m s p.ea
  .ok (op d n v s).done

/-- A source operand of an instruction that writes no general register but the address register:
CMP, CMPS, CMPU, TEST (R157, R212, R316). -/
def testForm (m : Size) (op : BitVec m.bits → State → State) (o : MemOperand) (s : State) :
    Res State := do
  let src ← readSource m .ignored o s s.npc0
  .ok (finish (op src.value src.state) { npc := src.npc })

/-- One destination register and a quick immediate (R141). -/
def quickForm (op : GReg → State → State) (rd : Reg) (s : State) : Res State := do
  let d ← gpr rd
  .ok (op d s).done

/-- Two registers, both read whole (R109): source, destination. -/
def pairForm (op : GReg → GReg → State → State) (rs rd : Reg) (s : State) : Res State := do
  let d ← gpr rd
  let x ← gpr rs
  .ok (op x d s).done

end Sys2Proof.Machine
end

