-- ==== Sys2Proof/Machine/Arithmetic.lean ====
section
/-! DEFINITION. Arithmetic instructions (41_arithmetic.md R200 to R228). -/

namespace Sys2Proof.Machine

/-! ### Operations -/

/-- Add at size m: the left operand is R[n], the result goes to R[d] (R202, R203). -/
def addOp (m : Size) (d n : GReg) (b : BitVec m.bits) (s : State) : State :=
  let o := addSized (low m (s.reg n)) b s.flags.carryIn
  { s.setLow m d o.value with flags := s.flags.setArith o }

/-- Subtract at size m (R222, R223). -/
def subOp (m : Size) (d n : GReg) (b : BitVec m.bits) (s : State) : State :=
  let o := subSized (low m (s.reg n)) b s.flags.carryIn
  { s.setLow m d o.value with flags := s.flags.setArith o }

/-- Add a sign-extended operand to a dword (R206, R207). -/
def addsOp (z : ZSize) (d n : GReg) (b : BitVec z.size.bits) (s : State) : State :=
  addOp .dword d n (b.signExtend 32) s

/-- Add a zero-extended operand to a dword (R208, R209). -/
def adduOp (z : ZSize) (d n : GReg) (b : BitVec z.size.bits) (s : State) : State :=
  addOp .dword d n (b.setWidth 32) s

/-- Subtract a sign-extended operand (R225, R226). -/
def subsOp (z : ZSize) (d n : GReg) (b : BitVec z.size.bits) (s : State) : State :=
  subOp .dword d n (b.signExtend 32) s

/-- Subtract a zero-extended operand (R227, R228). -/
def subuOp (z : ZSize) (d n : GReg) (b : BitVec z.size.bits) (s : State) : State :=
  subOp .dword d n (b.setWidth 32) s

/-- Compare at size m: flags only (R212). -/
def cmpOp (m : Size) (d : GReg) (b : BitVec m.bits) (s : State) : State :=
  { s with flags := s.flags.setArith (subSized (low m (s.reg d)) b s.flags.carryIn) }

/-- BOUND: the bound is zero-extended from size m; all of R[n] is compared (R210, R211). -/
def boundOp (m : Size) (d n : GReg) (b : BitVec m.bits) (s : State) : State :=
  let limit : Word := b.setWidth 32
  let r := if s.reg n > limit then limit else s.reg n
  { s.setReg d r with flags := s.flags.setLogic r }

/-- NEG: a subtraction from zero (R221). -/
def negOp (m : Size) (d : GReg) (b : BitVec m.bits) (s : State) : State :=
  let o := subSized 0#m.bits b s.flags.carryIn
  { s.setLow m d o.value with flags := s.flags.setArith o }

/-- Write a dword result with the logic flags (R31). -/
def logicResult (d : GReg) (r : Word) (s : State) : State :=
  { s.setReg d r with flags := s.flags.setLogic r }

/-- The number of zero bits above the highest 1 bit among bits `k - 1` down to 0 of `v`, plus
`32 - k` (R217). -/
def leadingZeros (v : Word) : Nat → Nat
  | 0 => 32
  | k + 1 => if v.getLsbD k then 31 - k else leadingZeros v k

/-- Write a product: MOF the high dword, R[d] the low (R219, R220). -/
def productResult (d : GReg) (p : BitVec 64) (v : Bool) (s : State) : State :=
  { s.setReg d (p.extractLsb' 0 32) with
    mof := p.extractLsb' 32 32
    flags := s.flags.setProduct p v }

/-- MULS (R219). -/
def mulsOp (m : Size) (d : GReg) (b : BitVec m.bits) (s : State) : State :=
  let p := b.signExtend 64 * (low m (s.reg d)).signExtend 64
  let hi := p.extractLsb' 32 32
  productResult d p ((!p.getLsbD 31 && hi != 0#32) || (p.getLsbD 31 && hi != 0xFFFFFFFF#32)) s

/-- MULU (R220). -/
def muluOp (m : Size) (d : GReg) (b : BitVec m.bits) (s : State) : State :=
  let p := b.setWidth 64 * (low m (s.reg d)).setWidth 64
  productResult d p (p.extractLsb' 32 32 != 0#32) s

/-- DSTEP (R216). -/
def dstepOp (x d : GReg) (s : State) : State :=
  let t := s.reg d <<< 1
  logicResult d (if t < s.reg x then t else t - s.reg x) s

/-- MSTEP; N is the flag before the instruction (R218). -/
def mstepOp (x d : GReg) (s : State) : State :=
  let t := s.reg d <<< 1
  logicResult d (if s.flags.n then t + s.reg x else t) s

/-- ADDI: no flag but X (R204). -/
def addiOp (m : Size) (x d : GReg) (s : State) : State :=
  s.setReg d (s.reg d + s.reg x * Size.amount m)

/-! ### Meanings -/

/-- ABS Rs,Rd (R201). -/
def execAbs (rs rd : Reg) (s : State) : Host.Outcome State Fault Refusal :=
  outcome (pairForm
    (fun x d s => logicResult d (if (s.reg x).msb then 0#32 - s.reg x else s.reg x) s) rs rd s)

/-- ADD.m Rs,Rd (R202). -/
def execAddR (m : Size) (rs rd : Reg) (s : State) : Host.Outcome State Fault Refusal :=
  outcome (regForm m (addOp m) rs rd s)

/-- ADD.m s,Rd with a memory or immediate source (R202). -/
def execAdd (m : Size) (o : MemOperand) (rd : Reg) (s : State) :
    Host.Outcome State Fault Refusal :=
  outcome (memForm m (addOp m) o rd s)

/-- ADD.m se,Rn,Rd (R203). -/
def execAdd3 (m : Size) (rn rd : Reg) (s : State) : Host.Outcome State Fault Refusal :=
  outcome (threeForm m (addOp m) rn rd s)

/-- ADDI Rs.m,Rd (R204). -/
def execAddi (m : Size) (rs rd : Reg) (s : State) : Host.Outcome State Fault Refusal :=
  outcome (pairForm (addiOp m) rs rd s)

/-- ADDQ j,Rd (R205). -/
def execAddq (j : BitVec 6) (rd : Reg) (s : State) : Host.Outcome State Fault Refusal :=
  outcome (quickForm (fun d s => addOp .dword d d (j.setWidth 32) s) rd s)

/-- ADDS.z Rs,Rd (R206). -/
def execAddsR (z : ZSize) (rs rd : Reg) (s : State) : Host.Outcome State Fault Refusal :=
  outcome (regForm z.size (addsOp z) rs rd s)

/-- ADDS.z s,Rd with a memory or immediate source (R206). -/
def execAdds (z : ZSize) (o : MemOperand) (rd : Reg) (s : State) :
    Host.Outcome State Fault Refusal :=
  outcome (memForm z.size (addsOp z) o rd s)

/-- ADDS.z se,Rn,Rd (R207). -/
def execAdds3 (z : ZSize) (rn rd : Reg) (s : State) : Host.Outcome State Fault Refusal :=
  outcome (threeForm z.size (addsOp z) rn rd s)

/-- ADDU.z Rs,Rd (R208). -/
def execAdduR (z : ZSize) (rs rd : Reg) (s : State) : Host.Outcome State Fault Refusal :=
  outcome (regForm z.size (adduOp z) rs rd s)

/-- ADDU.z s,Rd with a memory or immediate source (R208). -/
def execAddu (z : ZSize) (o : MemOperand) (rd : Reg) (s : State) :
    Host.Outcome State Fault Refusal :=
  outcome (memForm z.size (adduOp z) o rd s)

/-- ADDU.z se,Rn,Rd (R209). -/
def execAddu3 (z : ZSize) (rn rd : Reg) (s : State) : Host.Outcome State Fault Refusal :=
  outcome (threeForm z.size (adduOp z) rn rd s)

/-- BOUND.m Rs,Rd (R210). -/
def execBoundR (m : Size) (rs rd : Reg) (s : State) : Host.Outcome State Fault Refusal :=
  outcome (regForm m (boundOp m) rs rd s)

/-- BOUND.m s,Rd with a memory or immediate source (R210). -/
def execBound (m : Size) (o : MemOperand) (rd : Reg) (s : State) :
    Host.Outcome State Fault Refusal :=
  outcome (memForm m (boundOp m) o rd s)

/-- BOUND.m se,Rn,Rd (R211). -/
def execBound3 (m : Size) (rn rd : Reg) (s : State) : Host.Outcome State Fault Refusal :=
  outcome (threeForm m (boundOp m) rn rd s)

/-- CMP.m Rs,Rd (R212). -/
def execCmpR (m : Size) (rs rd : Reg) (s : State) : Host.Outcome State Fault Refusal :=
  outcome (regForm m (fun d _ b s => cmpOp m d b s) rs rd s)

/-- CMP.m s,Rd with a memory or immediate source (R212). Rd is read after the source operand's
increment (log 22). -/
def execCmp (m : Size) (o : MemOperand) (rd : Reg) (s : State) :
    Host.Outcome State Fault Refusal :=
  outcome (do
    let d ← gpr rd
    testForm m (cmpOp m d) o s)

/-- CMPQ i,Rd (R213). -/
def execCmpq (i : BitVec 6) (rd : Reg) (s : State) : Host.Outcome State Fault Refusal :=
  outcome (quickForm (fun d s => cmpOp .dword d (i.signExtend 32) s) rd s)

/-- CMPS.z si,Rd (R214). -/
def execCmps (z : ZSize) (o : MemOperand) (rd : Reg) (s : State) :
    Host.Outcome State Fault Refusal :=
  outcome (do
    let d ← gpr rd
    testForm z.size (fun b s => cmpOp .dword d (b.signExtend 32) s) o s)

/-- CMPU.z si,Rd (R215). -/
def execCmpu (z : ZSize) (o : MemOperand) (rd : Reg) (s : State) :
    Host.Outcome State Fault Refusal :=
  outcome (do
    let d ← gpr rd
    testForm z.size (fun b s => cmpOp .dword d (b.setWidth 32) s) o s)

/-- DSTEP Rs,Rd (R216). -/
def execDstep (rs rd : Reg) (s : State) : Host.Outcome State Fault Refusal :=
  outcome (do
    require (rs != rd) .stepSameRegister
    pairForm dstepOp rs rd s)

/-- LZ Rs,Rd (R217). -/
def execLz (rs rd : Reg) (s : State) : Host.Outcome State Fault Refusal :=
  outcome (pairForm
    (fun x d s =>
      let r := BitVec.ofNat 32 (leadingZeros (s.reg x) 32)
      { s.setReg d r with flags := s.flags.setNZ false (r == 0#32) }) rs rd s)

/-- MSTEP Rs,Rd (R218). -/
def execMstep (rs rd : Reg) (s : State) : Host.Outcome State Fault Refusal :=
  outcome (do
    require (rs != rd) .stepSameRegister
    pairForm mstepOp rs rd s)

/-- MULS.m Rs,Rd (R219). -/
def execMuls (m : Size) (rs rd : Reg) (s : State) : Host.Outcome State Fault Refusal :=
  outcome (regForm m (fun d _ b s => mulsOp m d b s) rs rd s)

/-- MULU.m Rs,Rd (R220). -/
def execMulu (m : Size) (rs rd : Reg) (s : State) : Host.Outcome State Fault Refusal :=
  outcome (regForm m (fun d _ b s => muluOp m d b s) rs rd s)

/-- NEG.m Rs,Rd (R221). -/
def execNegR (m : Size) (rs rd : Reg) (s : State) : Host.Outcome State Fault Refusal :=
  outcome (regForm m (fun d _ b s => negOp m d b s) rs rd s)

/-- SUB.m Rs,Rd (R222). -/
def execSubR (m : Size) (rs rd : Reg) (s : State) : Host.Outcome State Fault Refusal :=
  outcome (regForm m (subOp m) rs rd s)

/-- SUB.m s,Rd with a memory or immediate source (R222). -/
def execSub (m : Size) (o : MemOperand) (rd : Reg) (s : State) :
    Host.Outcome State Fault Refusal :=
  outcome (memForm m (subOp m) o rd s)

/-- SUB.m se,Rn,Rd (R223). -/
def execSub3 (m : Size) (rn rd : Reg) (s : State) : Host.Outcome State Fault Refusal :=
  outcome (threeForm m (subOp m) rn rd s)

/-- SUBQ j,Rd (R224). -/
def execSubq (j : BitVec 6) (rd : Reg) (s : State) : Host.Outcome State Fault Refusal :=
  outcome (quickForm (fun d s => subOp .dword d d (j.setWidth 32) s) rd s)

/-- SUBS.z Rs,Rd (R225). -/
def execSubsR (z : ZSize) (rs rd : Reg) (s : State) : Host.Outcome State Fault Refusal :=
  outcome (regForm z.size (subsOp z) rs rd s)

/-- SUBS.z s,Rd with a memory or immediate source (R225). -/
def execSubs (z : ZSize) (o : MemOperand) (rd : Reg) (s : State) :
    Host.Outcome State Fault Refusal :=
  outcome (memForm z.size (subsOp z) o rd s)

/-- SUBS.z se,Rn,Rd (R226). -/
def execSubs3 (z : ZSize) (rn rd : Reg) (s : State) : Host.Outcome State Fault Refusal :=
  outcome (threeForm z.size (subsOp z) rn rd s)

/-- SUBU.z Rs,Rd (R227). -/
def execSubuR (z : ZSize) (rs rd : Reg) (s : State) : Host.Outcome State Fault Refusal :=
  outcome (regForm z.size (subuOp z) rs rd s)

/-- SUBU.z s,Rd with a memory or immediate source (R227). -/
def execSubu (z : ZSize) (o : MemOperand) (rd : Reg) (s : State) :
    Host.Outcome State Fault Refusal :=
  outcome (memForm z.size (subuOp z) o rd s)

/-- SUBU.z se,Rn,Rd (R228). -/
def execSubu3 (z : ZSize) (rn rd : Reg) (s : State) : Host.Outcome State Fault Refusal :=
  outcome (threeForm z.size (subuOp z) rn rd s)

end Sys2Proof.Machine
end

