-- ==== Sys2Proof/Machine/Logic.lean ====
section
/-! DEFINITION. Logical, shift and bit instructions (42_logic_shift_bit.md R260 to R277). -/

namespace Sys2Proof.Machine

/-! ### Operations -/

/-- Write a result of size m with the logic flags (R260). -/
def sizedResult (m : Size) (d : GReg) (r : BitVec m.bits) (s : State) : State :=
  { s.setLow m d r with flags := s.flags.setLogic r }

/-- AND at size m (R261, R262). -/
def andOp (m : Size) (d n : GReg) (b : BitVec m.bits) (s : State) : State :=
  sizedResult m d (low m (s.reg n) &&& b) s

/-- OR at size m (R273, R274). -/
def orOp (m : Size) (d n : GReg) (b : BitVec m.bits) (s : State) : State :=
  sizedResult m d (low m (s.reg n) ||| b) s

/-- "the 6 least significant bits of the source register" (R260). -/
def shiftCount (v : Word) : Nat := (v.extractLsb' 0 6).toNat

/-- ASR: the sized operand read as signed, the count clamped at 31 (R264). -/
def asrOp (m : Size) (x d : GReg) (s : State) : State :=
  let v : Word := (low m (s.reg d)).signExtend 32
  sizedResult m d (low m (v.sshiftRight (min (shiftCount (s.reg x)) 31))) s

/-- LSL: zero for a count of 32 or more (R268). -/
def lslOp (m : Size) (x d : GReg) (s : State) : State :=
  let n := shiftCount (s.reg x)
  sizedResult m d (if 32 ≤ n then 0#m.bits else low m (s.reg d) <<< n) s

/-- LSR: zero for a count of 32 or more (R270). -/
def lsrOp (m : Size) (x d : GReg) (s : State) : State :=
  let n := shiftCount (s.reg x)
  sizedResult m d (if 32 ≤ n then 0#m.bits else low m (s.reg d) >>> n) s

/-- BTST: N is bit `b` of R[d], Z says bits `b` to 0 are zero (R266, R267). -/
def bitTest (d : GReg) (b : Nat) (s : State) : State :=
  { s with
    flags := s.flags.setNZ ((s.reg d).getLsbD b) (decide ((s.reg d).toNat % 2 ^ (b + 1) = 0)) }

/-- "Swap the words of the operand." (R276) -/
def swapWords (v : Word) : Word := v <<< 16 ||| (v >>> 16 &&& 0xFFFF#32)

/-- "Swap the two bytes within each word of the operand." (R276) -/
def swapBytes (v : Word) : Word :=
  (v <<< 8 &&& 0xFF00FF00#32) ||| (v >>> 8 &&& 0x00FF00FF#32)

/-- "Reverse the bit order within each byte of the operand." (R276) -/
def reverseBits (v : Word) : Word :=
  (v <<< 7 &&& 0x80808080#32) ||| (v <<< 5 &&& 0x40404040#32) |||
  (v <<< 3 &&& 0x20202020#32) ||| (v <<< 1 &&& 0x10101010#32) |||
  (v >>> 1 &&& 0x08080808#32) ||| (v >>> 3 &&& 0x04040404#32) |||
  (v >>> 5 &&& 0x02020202#32) ||| (v >>> 7 &&& 0x01010101#32)

/-- The options of SWAP in the order N, W, B, R (R276). -/
def swapValue (o : SwapOptions) (v : Word) : Word :=
  let v := if o.n then ~~~v else v
  let v := if o.w then swapWords v else v
  let v := if o.b then swapBytes v else v
  if o.r then reverseBits v else v

/-- SWAP on a register (R276). -/
def swapOp (o : SwapOptions) (d : GReg) (s : State) : State :=
  logicResult d (swapValue o (s.reg d)) s

/-! ### Meanings -/

/-- AND.m Rs,Rd (R261). -/
def execAndR (m : Size) (rs rd : Reg) (s : State) : Host.Outcome State Fault Refusal :=
  outcome (regForm m (andOp m) rs rd s)

/-- AND.m s,Rd with a memory or immediate source (R261). -/
def execAnd (m : Size) (o : MemOperand) (rd : Reg) (s : State) :
    Host.Outcome State Fault Refusal :=
  outcome (memForm m (andOp m) o rd s)

/-- AND.m se,Rn,Rd (R262). -/
def execAnd3 (m : Size) (rn rd : Reg) (s : State) : Host.Outcome State Fault Refusal :=
  outcome (threeForm m (andOp m) rn rd s)

/-- ANDQ i,Rd (R263). -/
def execAndq (i : BitVec 6) (rd : Reg) (s : State) : Host.Outcome State Fault Refusal :=
  outcome (quickForm (fun d s => logicResult d (s.reg d &&& i.signExtend 32) s) rd s)

/-- ASR.m Rs,Rd (R264). -/
def execAsrR (m : Size) (rs rd : Reg) (s : State) : Host.Outcome State Fault Refusal :=
  outcome (pairForm (asrOp m) rs rd s)

/-- ASRQ c,Rd (R265). -/
def execAsrq (c : BitVec 5) (rd : Reg) (s : State) : Host.Outcome State Fault Refusal :=
  outcome (quickForm (fun d s => logicResult d ((s.reg d).sshiftRight c.toNat) s) rd s)

/-- BTST Rs,Rd (R266). -/
def execBtst (rs rd : Reg) (s : State) : Host.Outcome State Fault Refusal :=
  outcome (pairForm (fun x d s => bitTest d ((s.reg x).extractLsb' 0 5).toNat s) rs rd s)

/-- BTSTQ c,Rd (R267). -/
def execBtstq (c : BitVec 5) (rd : Reg) (s : State) : Host.Outcome State Fault Refusal :=
  outcome (quickForm (fun d s => bitTest d c.toNat s) rd s)

/-- LSL.m Rs,Rd (R268). -/
def execLslR (m : Size) (rs rd : Reg) (s : State) : Host.Outcome State Fault Refusal :=
  outcome (pairForm (lslOp m) rs rd s)

/-- LSLQ c,Rd (R269). -/
def execLslq (c : BitVec 5) (rd : Reg) (s : State) : Host.Outcome State Fault Refusal :=
  outcome (quickForm (fun d s => logicResult d (s.reg d <<< c.toNat) s) rd s)

/-- LSR.m Rs,Rd (R270). -/
def execLsrR (m : Size) (rs rd : Reg) (s : State) : Host.Outcome State Fault Refusal :=
  outcome (pairForm (lsrOp m) rs rd s)

/-- LSRQ c,Rd (R271). -/
def execLsrq (c : BitVec 5) (rd : Reg) (s : State) : Host.Outcome State Fault Refusal :=
  outcome (quickForm (fun d s => logicResult d (s.reg d >>> c.toNat) s) rd s)

/-- NOT Rd, which is SWAPN Rd (R272). -/
def execNot (rd : Reg) (s : State) : Host.Outcome State Fault Refusal :=
  outcome (quickForm (swapOp notOptions) rd s)

/-- OR.m Rs,Rd (R273). -/
def execOrR (m : Size) (rs rd : Reg) (s : State) : Host.Outcome State Fault Refusal :=
  outcome (regForm m (orOp m) rs rd s)

/-- OR.m s,Rd with a memory or immediate source (R273). -/
def execOr (m : Size) (o : MemOperand) (rd : Reg) (s : State) :
    Host.Outcome State Fault Refusal :=
  outcome (memForm m (orOp m) o rd s)

/-- OR.m se,Rn,Rd (R274). -/
def execOr3 (m : Size) (rn rd : Reg) (s : State) : Host.Outcome State Fault Refusal :=
  outcome (threeForm m (orOp m) rn rd s)

/-- ORQ i,Rd (R275). -/
def execOrq (i : BitVec 6) (rd : Reg) (s : State) : Host.Outcome State Fault Refusal :=
  outcome (quickForm (fun d s => logicResult d (s.reg d ||| i.signExtend 32) s) rd s)

/-- SWAP<options> Rd (R276). -/
def execSwap (o : SwapOptions) (rd : Reg) (s : State) : Host.Outcome State Fault Refusal :=
  outcome (quickForm (swapOp o) rd s)

/-- XOR Rs,Rd (R277). -/
def execXor (rs rd : Reg) (s : State) : Host.Outcome State Fault Refusal :=
  outcome (pairForm (fun x d s => logicResult d (s.reg d ^^^ s.reg x) s) rs rd s)

end Sys2Proof.Machine
end

