-- ==== Sys2Proof/Machine/Move.lean ====
section
/-! DEFINITION. Moves, loads, stores and the addressing-mode prefix words (43_move.md R300 to R316,
40_operands_and_prefixes.md R152 to R156). -/

namespace Sys2Proof.Machine

/-! ### Operations -/

/-- MOVE.m to a register (R302). -/
def moveOp (m : Size) (d _n : GReg) (v : BitVec m.bits) (s : State) : State :=
  sizedResult m d v s

/-- MOVS (R309). -/
def movsOp (z : ZSize) (d _n : GReg) (v : BitVec z.size.bits) (s : State) : State :=
  logicResult d (v.signExtend 32) s

/-- MOVU: N is cleared (R310). -/
def movuOp (z : ZSize) (d _n : GReg) (v : BitVec z.size.bits) (s : State) : State :=
  let r : Word := v.setWidth 32
  { s.setReg d r with flags := s.flags.setNZ false (r == 0#32) }

/-- MOVE.m Rs,di (R303). -/
def storeForm (m : Size) (rs : Reg) (o : MemOperand) (s : State) : Res State := do
  let x ← gpr rs
  noHazard o rs
  let t ← writeDest m .ignored o (low m (s.reg x)) s
  .ok t.done

/-- MOVE s,Pd from memory or the instruction stream (R304). -/
def toSpecialForm (o : MemOperand) (pd : SpecialReg) (s : State) : Res State := do
  let m ← specialSize pd
  let src ← readSource m .ignored o s s.npc0
  .ok (finish (src.state.setSpecial pd (src.value.setWidth 32)) { npc := src.npc, inhibit := true })

/-- MOVE Ps,d with a memory destination (R305). -/
def fromSpecialForm (ps : SpecialReg) (o : MemOperand) (s : State) : Res State := do
  let m ← specialSize ps
  let t ← writeDest m .ignored o (low m (s.special ps)) s
  .ok t.doneInhibit

/-- Whether a return pointer moved to PC brings the user-mode check: RETB and RETI (R305). -/
def returnChecks (ps : SpecialReg) : Bool := ps == .brp || ps == .irp

/-- A delayed jump to an address (R44, R380). -/
def delayedJump (a : Word) (check : Bool) (s : State) : State :=
  finish s { npc := s.npc0, inhibit := true, delay := some ⟨.addr a, check⟩ }

/-- A sized value moved to a register, or, for register 15, a delayed jump that only a dword may
make (R301, R305). -/
def toRegisterOrPc (m : Size) (v : Word) (check : Bool) (rd : Reg) (s : State) : Res State :=
  if rd = pcReg then do
    require (m == .dword) .narrowToPc
    .ok (delayedJump v check s)
  else do
    let d ← gpr rd
    .ok (s.setLow m d (low m v)).doneInhibit

/-- MOVE Ps,Rd and MOVE Ps,PC (R305). -/
def specialToRegister (ps : SpecialReg) (rd : Reg) (s : State) : Res State := do
  let m ← specialSize ps
  toRegisterOrPc m (s.special ps) (returnChecks ps) rd s

/-- R14 down to R0. -/
def registersDown : List GReg := [14, 13, 12, 11, 10, 9, 8, 7, 6, 5, 4, 3, 2, 1, 0]

/-- The registers a MOVEM of R0 to R`r` transfers, in order: from R`r` down, or, restarted after a
bus fault, from the recorded register down (R306, R307, R358; log 24). -/
def movemRegisters (resume : Option GReg) (r : GReg) : List GReg :=
  registersDown.filter (fun k => decide (k ≤ r) && (match resume with
    | some n => decide (k ≤ n)
    | none => true))

/-- The address of register `k` in a MOVEM of R0 to R`r` at `ea`: R`r` lowest (R77, R306). -/
def movemAddress (ea : Word) (r k : GReg) : Word := ea + BitVec.ofNat 32 (4 * (r.val - k.val))

/-- Load registers one by one (R306). -/
def loadRegisters (ea : Word) (r : GReg) : List GReg → State → Res State
  | [], s => .ok s
  | k :: t, s => do
    let v ← readMem .dword s (movemAddress ea r k)
    loadRegisters ea r t (s.setReg k v)

/-- Store registers one by one (R307). -/
def storeRegisters (ea : Word) (r : GReg) : List GReg → State → Res State
  | [], s => .ok s
  | k :: t, s => do
    let s ← writeMem .dword s (movemAddress ea r k) (s.reg k)
    storeRegisters ea r t s

/-- What MOVEM adds to an autoincremented register (R145). -/
def movemAmount (r : GReg) : Word := BitVec.ofNat 32 (4 * (r.val + 1))

/-- A prefix word ends: PREFIX set, every flag kept, X too, no `inhibit` (R46, R152). -/
def finishPrefix (s : State) (npc ea : Word) (assignOk : Bool) : State :=
  finish s { npc := npc, pfx := some ⟨ea, assignOk⟩, x := s.flags.x }

/-! ### Meanings: prefix words -/

/-- BDAP o,Rb: base plus a signed byte offset (R153). -/
def execBdapQ (o : BitVec 8) (rb : Reg) (s : State) : Host.Outcome State Fault Refusal :=
  outcome (do
    let b ← gpr rb
    .ok (finishPrefix s s.npc0 (s.reg b + o.signExtend 32) true))

/-- BIAP Ri.m,Rb: base plus scaled index (R154). -/
def execBiap (m : Size) (ri rb : Reg) (s : State) : Host.Outcome State Fault Refusal :=
  outcome (do
    let b ← gpr rb
    let i ← gpr ri
    .ok (finishPrefix s s.npc0 (s.reg b + s.reg i * Size.amount m) true))

/-- BDAP with a memory or immediate offset, signed at its size (R155). -/
def execBdap (m : Size) (o : SimpleMem) (rb : Reg) (s : State) :
    Host.Outcome State Fault Refusal :=
  outcome (do
    let b ← gpr rb
    noHazard (.simple o) rb
    let src ← readSource m .ignored (.simple o) s s.npc0
    .ok (finishPrefix src.state src.npc (src.state.reg b + src.value.signExtend 32) true))

/-- DIP: the operand's address is itself fetched (R156). -/
def execDip (o : SimpleMem) (s : State) : Host.Outcome State Fault Refusal :=
  outcome (do
    let src ← readSource .dword .ignored (.simple o) s s.npc0
    .ok (finishPrefix src.state src.npc src.value false))

/-! ### Meanings: moves -/

/-- CLEAR.m Rd; CLEAR.D PC is a delayed jump to 0 (R301). -/
def execClearR (m : Size) (rd : Reg) (s : State) : Host.Outcome State Fault Refusal :=
  outcome (toRegisterOrPc m 0#32 false rd s)

/-- CLEAR.m d with a memory destination (R301). -/
def execClear (m : Size) (o : MemOperand) (s : State) : Host.Outcome State Fault Refusal :=
  outcome (do
    let t ← writeDest m .ignored o 0#m.bits s
    .ok t.doneInhibit)

/-- MOVE.m Rs,Rd (R302). -/
def execMoveR (m : Size) (rs rd : Reg) (s : State) : Host.Outcome State Fault Refusal :=
  outcome (regForm m (moveOp m) rs rd s)

/-- MOVE.m s,Rd with a memory or immediate source (R302). -/
def execMove (m : Size) (o : MemOperand) (rd : Reg) (s : State) :
    Host.Outcome State Fault Refusal :=
  outcome (memForm m (moveOp m) o rd s)

/-- MOVE.m Rs,di (R303). -/
def execMoveStore (m : Size) (rs : Reg) (o : MemOperand) (s : State) :
    Host.Outcome State Fault Refusal :=
  outcome (storeForm m rs o s)

/-- MOVE Rs,Pd (R304). -/
def execMoveRP (rs : Reg) (pd : SpecialReg) (s : State) : Host.Outcome State Fault Refusal :=
  outcome (do
    let m ← specialSize pd
    let x ← gpr rs
    .ok (s.setSpecial pd ((low m (s.reg x)).setWidth 32)).doneInhibit)

/-- MOVE s,Pd with a memory or immediate source (R304). -/
def execMoveSP (o : MemOperand) (pd : SpecialReg) (s : State) :
    Host.Outcome State Fault Refusal :=
  outcome (toSpecialForm o pd s)

/-- MOVE Ps,Rd and MOVE Ps,PC (R305). -/
def execMovePR (ps : SpecialReg) (rd : Reg) (s : State) : Host.Outcome State Fault Refusal :=
  outcome (specialToRegister ps rd s)

/-- MOVE Ps,d with a memory destination (R305). -/
def execMovePD (ps : SpecialReg) (o : MemOperand) (s : State) :
    Host.Outcome State Fault Refusal :=
  outcome (fromSpecialForm ps o s)

/-- MOVEM si,Rd (R306). Restarted by an RBF (R358) in indirect mode, it takes its address from the
address register as it then stands, even where that register is one it had loaded before the fault:
DESIGN CHOICE, unsafe, the spec is silent (log 37). -/
def execMovemLoad (o : MemOperand) (rd : Reg) (s : State) : Host.Outcome State Fault Refusal :=
  outcome (do
    let r ← gpr rd
    noRangeHazard o rd
    let p ← place .ignored (movemAmount r) s o
    let t ← loadRegisters p.ea r (movemRegisters s.resumeAt r) s
    .ok (p.commit t).done)

/-- MOVEM Rs,di (R307). -/
def execMovemStore (rs : Reg) (o : MemOperand) (s : State) : Host.Outcome State Fault Refusal :=
  outcome (do
    let r ← gpr rs
    noRangeHazard o rs
    let p ← place .ignored (movemAmount r) s o
    let t ← storeRegisters p.ea r (movemRegisters s.resumeAt r) s
    .ok (p.commit t).done)

/-- MOVEQ i,Rd (R308). -/
def execMoveq (i : BitVec 6) (rd : Reg) (s : State) : Host.Outcome State Fault Refusal :=
  outcome (quickForm (fun d s => logicResult d (i.signExtend 32) s) rd s)

/-- MOVS.z Rs,Rd (R309). -/
def execMovsR (z : ZSize) (rs rd : Reg) (s : State) : Host.Outcome State Fault Refusal :=
  outcome (regForm z.size (movsOp z) rs rd s)

/-- MOVS.z s,Rd with a memory or immediate source (R309). -/
def execMovs (z : ZSize) (o : MemOperand) (rd : Reg) (s : State) :
    Host.Outcome State Fault Refusal :=
  outcome (memForm z.size (movsOp z) o rd s)

/-- MOVU.z Rs,Rd (R310). -/
def execMovuR (z : ZSize) (rs rd : Reg) (s : State) : Host.Outcome State Fault Refusal :=
  outcome (regForm z.size (movuOp z) rs rd s)

/-- MOVU.z s,Rd with a memory or immediate source (R310). -/
def execMovu (z : ZSize) (o : MemOperand) (rd : Reg) (s : State) :
    Host.Outcome State Fault Refusal :=
  outcome (memForm z.size (movuOp z) o rd s)

/-- POP Rd, which is MOVE.D [SP+],Rd (R311). -/
def execPopR (rd : Reg) (s : State) : Host.Outcome State Fault Refusal :=
  outcome (memForm .dword (moveOp .dword) (.simple (.autoinc spReg)) rd s)

/-- POP Pd, which is MOVE [SP+],Pd (R312). -/
def execPopP (pd : SpecialReg) (s : State) : Host.Outcome State Fault Refusal :=
  outcome (toSpecialForm (.simple (.autoinc spReg)) pd s)

/-- PUSH Rs, second word: MOVE.D Rs,[SP=...] after its prefix (R313). -/
def execPushR (rs : Reg) (s : State) : Host.Outcome State Fault Refusal :=
  outcome (storeForm .dword rs (.assign spReg) s)

/-- PUSH Ps, second word: MOVE Ps,[SP=...] after its prefix (R314). -/
def execPushP (ps : SpecialReg) (s : State) : Host.Outcome State Fault Refusal :=
  outcome (fromSpecialForm ps (.assign spReg) s)

/-- Scc Rd (R315). -/
def execScc (q : Cond) (rd : Reg) (s : State) : Host.Outcome State Fault Refusal :=
  outcome (do
    let d ← gpr rd
    .ok (s.setReg d (if condHolds q s.flags then 1#32 else 0#32)).doneInhibit)

/-- TEST.m s with a memory or immediate source (R316). -/
def execTest (m : Size) (o : MemOperand) (s : State) : Host.Outcome State Fault Refusal :=
  outcome (testForm m (fun v s => { s with flags := s.flags.setLogic v }) o s)

/-- TEST.m Rs, which is MOVE.m Rs,Rs (R316). -/
def execTestR (m : Size) (rs : Reg) (s : State) : Host.Outcome State Fault Refusal :=
  outcome (regForm m (moveOp m) rs rs s)

end Sys2Proof.Machine
end

