-- ==== Sys2Proof/Machine/System.lean ====
section
/-! DEFINITION. Flag and system instructions (44_flags_and_system.md R350 to R359). -/

namespace Sys2Proof.Machine

/-- SETF: the flags set, X the list's (R356). -/
def setFlags (l : FlagList) (s : State) : Res State :=
  .ok (finish { s with flags := s.flags.setList l } { npc := s.npc0, inhibit := true, x := l.x })

/-- CLEARF (R352). -/
def clearFlags (l : FlagList) (s : State) : Res State :=
  .ok (State.doneInhibit { s with flags := s.flags.clearList l })

/-- The prefix that was pending at the restart boundary of a record (log 16). -/
def recordPrefix (v : BitVec 128) : Option Prefix :=
  match Config.recordPrefix v with
  | some (ea, ok) => some ⟨ea, ok⟩
  | none => none

/-- The delayed jump that was pending at the restart boundary of a record (log 16). -/
def recordDelay (v : BitVec 128) : Option Delay :=
  match Config.recordDelay v with
  | some (some a, check) => some ⟨.addr a, check⟩
  | some (none, check) => some ⟨.sequential, check⟩
  | none => none

/-- The delayed jump that RBF leaves to the end of its cycle when it stands in a delay slot itself
(log 15). -/
def delayAtRestore (d : Option Delay) : Option Delay :=
  match d with
  | some d => if Config.rbfReplacesPendingJump then none else some d
  | none => none

/-- Restore the internal state from a status record: the return from a bus fault (R358). User mode
if U was set, then X and U, the restart address, and what was pending there. -/
def restoreRecord (v : BitVec 128) (s : State) : State :=
  let t := s.returnMode
  finish
    { t with
      flags := { t.flags with u := Config.recordU v }
      delay := delayAtRestore t.delay }
    { npc := s.npc0
      jump := some (Config.recordRestart v)
      delay := recordDelay v
      pfx := recordPrefix v
      x := Config.recordX v
      resumeAt := Config.recordMovem v
      onceMore := Config.recordOnceMore v }

/-- The length of the CPU status record, which autoincrement adds (R145, R358, R359). -/
def recordAmount : Word := 16#32

/-- AX, which is SETF X (R351). -/
def execAx (s : State) : Host.Outcome State Fault Refusal := outcome (setFlags axList s)

/-- CLEARF list (R352). -/
def execClearf (l : FlagList) (s : State) : Host.Outcome State Fault Refusal :=
  outcome (clearFlags l s)

/-- DI, which is CLEARF I (R353). -/
def execDi (s : State) : Host.Outcome State Fault Refusal := outcome (clearFlags iList s)

/-- EI, which is SETF I (R354). -/
def execEi (s : State) : Host.Outcome State Fault Refusal := outcome (setFlags iList s)

/-- NOP (R355). -/
def execNop (s : State) : Host.Outcome State Fault Refusal := outcome (.ok s.done)

/-- SETF list (R356). -/
def execSetf (l : FlagList) (s : State) : Host.Outcome State Fault Refusal :=
  outcome (setFlags l s)

/-- BREAK n: takes the trap; no `inhibit` (R357). -/
def execBrk (n : BitVec 4) (s : State) : Host.Outcome State Fault Refusal :=
  outcome (.ok (finish (s.enterTrap s.npc0) { npc := s.npc0, jump := some (s.trapAddress n) }))

/-- RBF si (R358). -/
def execRbf (o : MemOperand) (s : State) : Host.Outcome State Fault Refusal :=
  outcome (do
    let p ← place (.mustBe 0#4) recordAmount s o
    let v ← readRecord s p.ea
    .ok (restoreRecord v (p.commit s)))

/-- SBFS di (R359). -/
def execSbfs (o : MemOperand) (s : State) : Host.Outcome State Fault Refusal :=
  outcome (do
    let p ← place (.mustBe 0#4) recordAmount s o
    let t ← writeRecord s p.ea s.bfsr
    .ok (p.commit t).doneInhibit)

end Sys2Proof.Machine
end

