-- ==== Sys2Proof/Machine/Control.lean ====
section
/-! DEFINITION. Branches, jumps and returns (45_control_transfer.md R380 to R391). -/

namespace Sys2Proof.Machine

/-- The computed offset of the 8-bit form: bit 0 of the field is its sign (30_encoding.md R118). -/
def branchOffset (o : BitVec 8) : Word :=
  (o.extractLsb' 0 1 ++ o.extractLsb' 1 7 ++ 0#1 : BitVec 9).signExtend 32

/-- A branch: a delayed jump, taken or not, that opens an interrupt window (R381, R44). -/
def branch (q : Cond) (npc off : Word) (s : State) : State :=
  finish s
    { npc := npc
      inhibit := true
      delay := some ⟨if condHolds q s.flags then .addr (npc + off) else .sequential, false⟩ }

/-- An immediate jump; `link` writes the return pointer from the address after the instruction
(R380). -/
def jumpTo (link : Word → State → State) (npc target : Word) (s : State) : State :=
  finish (link npc s) { npc := npc, inhibit := true, jump := some target }

/-- The jump group with a register operand (R380 `JumpSrc`, Opcode 0110). -/
def jumpRegForm (link : Word → State → State) (rs : Reg) (s : State) : Res State := do
  let x ← gpr rs
  .ok (jumpTo link s.npc0 (s.reg x) s)

/-- The jump group with a memory or immediate operand (R380 `JumpSrc`, Opcode 0100). -/
def jumpMemForm (link : Word → State → State) (o : MemOperand) (s : State) : Res State := do
  let src ← readSource .dword .ignored o s s.npc0
  .ok (jumpTo link src.npc src.value src.state)

/-- JUMP writes no return pointer (R388). -/
def linkNone (_npc : Word) (s : State) : State := s

/-- JSR (R386). -/
def linkSrp (npc : Word) (s : State) : State := { s with srp := npc }

/-- JIR (R383). -/
def linkIrp (npc : Word) (s : State) : State := { s with irp := npc }

/-- JSRC: the return address is after the context dword (R387). -/
def linkSrpContext (npc : Word) (s : State) : State := { s with srp := npc + 4 }

/-- JIRC (R384). -/
def linkIrpContext (npc : Word) (s : State) : State := { s with irp := npc + 4 }

/-- JBRC (R382). -/
def linkBrpContext (npc : Word) (s : State) : State := { s with brp := npc + 4 }

/-! ### Meanings -/

/-- Bcc o (R381). -/
def execBcc (q : Cond) (o : BitVec 8) (s : State) : Host.Outcome State Fault Refusal :=
  outcome (.ok (branch q s.npc0 (branchOffset o) s))

/-- Bcc xx: the offset word follows; an odd offset is refused (R381). -/
def execBccW (q : Cond) (s : State) : Host.Outcome State Fault Refusal :=
  outcome (do
    let v ← readStream .word s s.npc0
    require (!v.1.getLsbD 0) .oddBranchOffset
    .ok (branch q v.2 (v.1.signExtend 32) s))

/-- JBRC Rs (R382). -/
def execJbrcR (rs : Reg) (s : State) : Host.Outcome State Fault Refusal :=
  outcome (jumpRegForm linkBrpContext rs s)

/-- JBRC s (R382). -/
def execJbrc (o : MemOperand) (s : State) : Host.Outcome State Fault Refusal :=
  outcome (jumpMemForm linkBrpContext o s)

/-- JIR Rs (R383). -/
def execJirR (rs : Reg) (s : State) : Host.Outcome State Fault Refusal :=
  outcome (jumpRegForm linkIrp rs s)

/-- JIR s (R383). -/
def execJir (o : MemOperand) (s : State) : Host.Outcome State Fault Refusal :=
  outcome (jumpMemForm linkIrp o s)

/-- JIRC Rs (R384). -/
def execJircR (rs : Reg) (s : State) : Host.Outcome State Fault Refusal :=
  outcome (jumpRegForm linkIrpContext rs s)

/-- JIRC s (R384). -/
def execJirc (o : MemOperand) (s : State) : Host.Outcome State Fault Refusal :=
  outcome (jumpMemForm linkIrpContext o s)

/-- JMPU si: to user mode if U is set; no immediate; Operand1 must be 3 when md = 0 (R385). -/
def execJmpu (o : MemOperand) (s : State) : Host.Outcome State Fault Refusal :=
  outcome (do
    require (notImmediate o) .immediateNotAllowed
    let src ← readSource .dword (.mustBe 3#4) o s s.npc0
    .ok (jumpTo linkNone src.npc src.value src.state.returnMode))

/-- JSR Rs (R386). -/
def execJsrR (rs : Reg) (s : State) : Host.Outcome State Fault Refusal :=
  outcome (jumpRegForm linkSrp rs s)

/-- JSR s (R386). -/
def execJsr (o : MemOperand) (s : State) : Host.Outcome State Fault Refusal :=
  outcome (jumpMemForm linkSrp o s)

/-- JSRC Rs (R387). -/
def execJsrcR (rs : Reg) (s : State) : Host.Outcome State Fault Refusal :=
  outcome (jumpRegForm linkSrpContext rs s)

/-- JSRC s (R387). -/
def execJsrc (o : MemOperand) (s : State) : Host.Outcome State Fault Refusal :=
  outcome (jumpMemForm linkSrpContext o s)

/-- JUMP Rs (R388). -/
def execJumpR (rs : Reg) (s : State) : Host.Outcome State Fault Refusal :=
  outcome (jumpRegForm linkNone rs s)

/-- JUMP s (R388). -/
def execJump (o : MemOperand) (s : State) : Host.Outcome State Fault Refusal :=
  outcome (jumpMemForm linkNone o s)

/-- RET, which is MOVE SRP,PC (R389). -/
def execRet (s : State) : Host.Outcome State Fault Refusal :=
  outcome (specialToRegister .srp pcReg s)

/-- RETB, which is MOVE BRP,PC (R390). -/
def execRetb (s : State) : Host.Outcome State Fault Refusal :=
  outcome (specialToRegister .brp pcReg s)

/-- RETI, which is MOVE IRP,PC (R391). -/
def execReti (s : State) : Host.Outcome State Fault Refusal :=
  outcome (specialToRegister .irp pcReg s)

/-! ### What may stand in a delay slot -/

/-- A simple memory operand of an instruction in a delay slot: not an immediate (R462). -/
def slotMem (o : SimpleMem) : Bool :=
  match o with
  | .immediate => false
  | _ => true

/-- A memory operand of an instruction in a delay slot: no immediate, no prefix (R462). -/
def slotOperand (o : MemOperand) : Bool :=
  match o with
  | .simple o => slotMem o
  | .complex _ => false
  | .assign _ => false

/-- "Valid instructions for the delay slot are all instructions except" the list of
70_reset_and_hazards.md R462. -/
def slotValid : Instr → Bool
  | .bcc _ _ => false
  | .bdapQ _ _ => false
  | .addq _ _ => true
  | .moveq _ _ => true
  | .subq _ _ => true
  | .cmpq _ _ => true
  | .andq _ _ => true
  | .orq _ _ => true
  | .btstq _ _ => true
  | .asrq _ _ => true
  | .lslq _ _ => true
  | .lsrq _ _ => true
  | .adduR _ _ _ => true
  | .addsR _ _ _ => true
  | .movuR _ _ _ => true
  | .movsR _ _ _ => true
  | .subuR _ _ _ => true
  | .subsR _ _ _ => true
  | .lslR _ _ _ => true
  | .negR _ _ _ => true
  | .boundR _ _ _ => true
  | .addR _ _ _ => true
  | .moveR _ _ _ => true
  | .subR _ _ _ => true
  | .cmpR _ _ _ => true
  | .andR _ _ _ => true
  | .orR _ _ _ => true
  | .asrR _ _ _ => true
  | .lsrR _ _ _ => true
  | .addi _ _ _ => true
  | .nop => true
  | .biap _ _ _ => false
  | .btst _ _ => true
  | .abs _ _ => true
  | .dstep _ _ => true
  | .lz _ _ => true
  | .xor _ _ => true
  | .mstep _ _ => true
  | .scc _ _ => true
  | .setf _ => true
  | .clearf _ => true
  | .moveRP _ _ => true
  | .movePR _ rd => rd != pcReg
  | .swap _ _ => true
  | .clearR _ rd => rd != pcReg
  | .addu _ s _ => slotOperand s
  | .adds _ s _ => slotOperand s
  | .movu _ s _ => slotOperand s
  | .movs _ s _ => slotOperand s
  | .subu _ s _ => slotOperand s
  | .subs _ s _ => slotOperand s
  | .cmpu _ s _ => slotOperand s
  | .cmps _ s _ => slotOperand s
  | .bound _ s _ => slotOperand s
  | .add _ s _ => slotOperand s
  | .move _ s _ => slotOperand s
  | .sub _ s _ => slotOperand s
  | .cmp _ s _ => slotOperand s
  | .and _ s _ => slotOperand s
  | .or _ s _ => slotOperand s
  | .mulu _ _ _ => true
  | .muls _ _ _ => true
  | .jump _ => false
  | .jumpR _ => false
  | .jirc _ => false
  | .jircR _ => false
  | .jsrc _ => false
  | .jsrcR _ => false
  | .jbrc _ => false
  | .jbrcR _ => false
  | .jir _ => false
  | .jirR _ => false
  | .jsr _ => false
  | .jsrR _ => false
  | .jmpu _ => false
  | .brk _ => false
  | .bdap _ _ _ => false
  | .dip _ => false
  | .bccW _ => false
  | .moveSP s _ => slotOperand s
  | .movePD _ d => slotOperand d
  | .clear _ d => slotOperand d
  | .rbf s => slotOperand s
  | .sbfs d => slotOperand d
  | .test _ s => slotOperand s
  | .movemLoad s _ => slotOperand s
  | .moveStore _ _ d => slotOperand d
  | .movemStore _ d => slotOperand d
  | .add3 _ _ _ => false
  | .sub3 _ _ _ => false
  | .and3 _ _ _ => false
  | .or3 _ _ _ => false
  | .bound3 _ _ _ => false
  | .addu3 _ _ _ => false
  | .adds3 _ _ _ => false
  | .subu3 _ _ _ => false
  | .subs3 _ _ _ => false
  | .ax => true
  | .di => true
  | .ei => true
  | .not _ => true
  | .ret => false
  | .retb => false
  | .reti => false
  | .popR _ => true
  | .popP _ => true
  | .pushR _ => false
  | .pushP _ => false
  | .testR _ _ => true

end Sys2Proof.Machine
end

