-- ==== Sys2Proof/Machine/Dispatch.lean ====
section
/-! DEFINITION. Which meaning each instruction has: one arm per constructor. -/

namespace Sys2Proof.Machine

open Sys2Proof

def exec (i : Instr) (s : State) : Host.Outcome State Fault Refusal :=
  match i with
  | .bcc q o => Sys2Proof.Machine.execBcc q o s
  | .bdapQ o rb => Sys2Proof.Machine.execBdapQ o rb s
  | .addq j rd => Sys2Proof.Machine.execAddq j rd s
  | .moveq k rd => Sys2Proof.Machine.execMoveq k rd s
  | .subq j rd => Sys2Proof.Machine.execSubq j rd s
  | .cmpq k rd => Sys2Proof.Machine.execCmpq k rd s
  | .andq k rd => Sys2Proof.Machine.execAndq k rd s
  | .orq k rd => Sys2Proof.Machine.execOrq k rd s
  | .btstq c rd => Sys2Proof.Machine.execBtstq c rd s
  | .asrq c rd => Sys2Proof.Machine.execAsrq c rd s
  | .lslq c rd => Sys2Proof.Machine.execLslq c rd s
  | .lsrq c rd => Sys2Proof.Machine.execLsrq c rd s
  | .adduR z rs rd => Sys2Proof.Machine.execAdduR z rs rd s
  | .addsR z rs rd => Sys2Proof.Machine.execAddsR z rs rd s
  | .movuR z rs rd => Sys2Proof.Machine.execMovuR z rs rd s
  | .movsR z rs rd => Sys2Proof.Machine.execMovsR z rs rd s
  | .subuR z rs rd => Sys2Proof.Machine.execSubuR z rs rd s
  | .subsR z rs rd => Sys2Proof.Machine.execSubsR z rs rd s
  | .lslR m rs rd => Sys2Proof.Machine.execLslR m rs rd s
  | .negR m rs rd => Sys2Proof.Machine.execNegR m rs rd s
  | .boundR m rs rd => Sys2Proof.Machine.execBoundR m rs rd s
  | .addR m rs rd => Sys2Proof.Machine.execAddR m rs rd s
  | .moveR m rs rd => Sys2Proof.Machine.execMoveR m rs rd s
  | .subR m rs rd => Sys2Proof.Machine.execSubR m rs rd s
  | .cmpR m rs rd => Sys2Proof.Machine.execCmpR m rs rd s
  | .andR m rs rd => Sys2Proof.Machine.execAndR m rs rd s
  | .orR m rs rd => Sys2Proof.Machine.execOrR m rs rd s
  | .asrR m rs rd => Sys2Proof.Machine.execAsrR m rs rd s
  | .lsrR m rs rd => Sys2Proof.Machine.execLsrR m rs rd s
  | .addi m rs rd => Sys2Proof.Machine.execAddi m rs rd s
  | .nop => Sys2Proof.Machine.execNop s
  | .biap m ri rb => Sys2Proof.Machine.execBiap m ri rb s
  | .btst rs rd => Sys2Proof.Machine.execBtst rs rd s
  | .abs rs rd => Sys2Proof.Machine.execAbs rs rd s
  | .dstep rs rd => Sys2Proof.Machine.execDstep rs rd s
  | .lz rs rd => Sys2Proof.Machine.execLz rs rd s
  | .xor rs rd => Sys2Proof.Machine.execXor rs rd s
  | .mstep rs rd => Sys2Proof.Machine.execMstep rs rd s
  | .scc q rd => Sys2Proof.Machine.execScc q rd s
  | .setf l => Sys2Proof.Machine.execSetf l s
  | .clearf l => Sys2Proof.Machine.execClearf l s
  | .moveRP rs pd => Sys2Proof.Machine.execMoveRP rs pd s
  | .movePR ps rd => Sys2Proof.Machine.execMovePR ps rd s
  | .swap o rd => Sys2Proof.Machine.execSwap o rd s
  | .clearR m rd => Sys2Proof.Machine.execClearR m rd s
  | .addu z o rd => Sys2Proof.Machine.execAddu z o rd s
  | .adds z o rd => Sys2Proof.Machine.execAdds z o rd s
  | .movu z o rd => Sys2Proof.Machine.execMovu z o rd s
  | .movs z o rd => Sys2Proof.Machine.execMovs z o rd s
  | .subu z o rd => Sys2Proof.Machine.execSubu z o rd s
  | .subs z o rd => Sys2Proof.Machine.execSubs z o rd s
  | .cmpu z o rd => Sys2Proof.Machine.execCmpu z o rd s
  | .cmps z o rd => Sys2Proof.Machine.execCmps z o rd s
  | .bound m o rd => Sys2Proof.Machine.execBound m o rd s
  | .add m o rd => Sys2Proof.Machine.execAdd m o rd s
  | .move m o rd => Sys2Proof.Machine.execMove m o rd s
  | .sub m o rd => Sys2Proof.Machine.execSub m o rd s
  | .cmp m o rd => Sys2Proof.Machine.execCmp m o rd s
  | .and m o rd => Sys2Proof.Machine.execAnd m o rd s
  | .or m o rd => Sys2Proof.Machine.execOr m o rd s
  | .mulu m rs rd => Sys2Proof.Machine.execMulu m rs rd s
  | .muls m rs rd => Sys2Proof.Machine.execMuls m rs rd s
  | .jump o => Sys2Proof.Machine.execJump o s
  | .jumpR rs => Sys2Proof.Machine.execJumpR rs s
  | .jirc o => Sys2Proof.Machine.execJirc o s
  | .jircR rs => Sys2Proof.Machine.execJircR rs s
  | .jsrc o => Sys2Proof.Machine.execJsrc o s
  | .jsrcR rs => Sys2Proof.Machine.execJsrcR rs s
  | .jbrc o => Sys2Proof.Machine.execJbrc o s
  | .jbrcR rs => Sys2Proof.Machine.execJbrcR rs s
  | .jir o => Sys2Proof.Machine.execJir o s
  | .jirR rs => Sys2Proof.Machine.execJirR rs s
  | .jsr o => Sys2Proof.Machine.execJsr o s
  | .jsrR rs => Sys2Proof.Machine.execJsrR rs s
  | .jmpu o => Sys2Proof.Machine.execJmpu o s
  | .brk n => Sys2Proof.Machine.execBrk n s
  | .bdap m o rb => Sys2Proof.Machine.execBdap m o rb s
  | .dip o => Sys2Proof.Machine.execDip o s
  | .bccW q => Sys2Proof.Machine.execBccW q s
  | .moveSP o pd => Sys2Proof.Machine.execMoveSP o pd s
  | .movePD ps d => Sys2Proof.Machine.execMovePD ps d s
  | .clear m d => Sys2Proof.Machine.execClear m d s
  | .rbf o => Sys2Proof.Machine.execRbf o s
  | .sbfs d => Sys2Proof.Machine.execSbfs d s
  | .test m o => Sys2Proof.Machine.execTest m o s
  | .movemLoad o rd => Sys2Proof.Machine.execMovemLoad o rd s
  | .moveStore m rs d => Sys2Proof.Machine.execMoveStore m rs d s
  | .movemStore rs d => Sys2Proof.Machine.execMovemStore rs d s
  | .add3 m rn rd => Sys2Proof.Machine.execAdd3 m rn rd s
  | .sub3 m rn rd => Sys2Proof.Machine.execSub3 m rn rd s
  | .and3 m rn rd => Sys2Proof.Machine.execAnd3 m rn rd s
  | .or3 m rn rd => Sys2Proof.Machine.execOr3 m rn rd s
  | .bound3 m rn rd => Sys2Proof.Machine.execBound3 m rn rd s
  | .addu3 z rn rd => Sys2Proof.Machine.execAddu3 z rn rd s
  | .adds3 z rn rd => Sys2Proof.Machine.execAdds3 z rn rd s
  | .subu3 z rn rd => Sys2Proof.Machine.execSubu3 z rn rd s
  | .subs3 z rn rd => Sys2Proof.Machine.execSubs3 z rn rd s
  | .ax => Sys2Proof.Machine.execAx s
  | .di => Sys2Proof.Machine.execDi s
  | .ei => Sys2Proof.Machine.execEi s
  | .not rd => Sys2Proof.Machine.execNot rd s
  | .ret => Sys2Proof.Machine.execRet s
  | .retb => Sys2Proof.Machine.execRetb s
  | .reti => Sys2Proof.Machine.execReti s
  | .popR rd => Sys2Proof.Machine.execPopR rd s
  | .popP pd => Sys2Proof.Machine.execPopP pd s
  | .pushR rs => Sys2Proof.Machine.execPushR rs s
  | .pushP ps => Sys2Proof.Machine.execPushP ps s
  | .testR m rs => Sys2Proof.Machine.execTestR m rs s

end Sys2Proof.Machine
end

