-- ==== Sys2Proof/Machine/Step.lean ====
section
/-! DEFINITION. One step of the CPU (10_state.md R45), and the placing of one instruction for the
host. -/

namespace Sys2Proof.Machine

/-- The refusal for a word that has no instruction (R114, R120). -/
def decodeRefusal (e : DecodeError) : Refusal :=
  match e with
  | .reserved => .reservedWord
  | .prefixNotTaken => .prefixNotTaken
  | .truncated => .reservedWord

/-- Steps 2 and 3 of R45: the instruction at PC, given what is pending. -/
def fetchInstr (s : State) : Res Instr := do
  require (!s.pc.getLsbD 0) .oddPc
  let b ← fetchBytes s s.pc
  match decode s.pfx.isSome b with
  | .error e => refuse (decodeRefusal e)
  | .ok i => do
    require (s.delay.isNone || slotValid i) .invalidDelaySlot
    .ok i

/-- One step (R45). Step 1, the interrupt agent, does nothing: IRQ_MODEL is `none` (R425, log 18). -/
def step (s : State) : Host.Outcome State Fault Refusal :=
  match fetchInstr s with
  | .error (.fault f) => .fault f
  | .error (.refused q) => .refused q
  | .ok i => exec i s

/-- Place bytes in memory from an address upward, as a loader does: no store of the run. -/
def placeBytes (m : Memory) (a : Word) : List Byte → Memory
  | [] => m
  | b :: t => placeBytes (Memory.write m a.toNat b) (a + 1) t

/-- The state with an instruction stored where step fetches next: ten bytes, the longest
instruction's length (30_encoding.md R100), the bits above `nbits` zero. -/
def State.withFetchWord (s : State) (nbits w : Nat) : State :=
  { s with mem := placeBytes s.mem s.pc (bytesOfNat 10 (w % 2 ^ nbits)) }

end Sys2Proof.Machine
end

