-- ==== Sys2Proof/Safety.lean ====
section
/-! DEFINITION. The terms that claims about runs are stated in: when a run ends, which accesses are
admitted, what an instruction writes and what it leaves as it was. -/

namespace Sys2Proof.Machine

/-- `END_OF_RUN`: PC is at the address the host named, at a boundary with no prefix and no delayed
jump pending (70_reset_and_hazards.md R474, D20; log 29). -/
def endOfRun (stop : Word) (s : State) : Bool := s.pc == stop && s.pfx.isNone && s.delay.isNone

/-! ### Admitted accesses (20_memory.md R72, R78, R83) -/

/-- The `k` bytes from `a` upward lie in RAM or code regions; addresses wrap. -/
abbrev Readable (s : State) (a : Word) (k : Nat) : Prop :=
  ∀ j < k, kindIn s.memMap (a + BitVec.ofNat 32 j).toNat = some .ram ∨
    kindIn s.memMap (a + BitVec.ofNat 32 j).toNat = some .code

/-- The `k` bytes from `a` upward lie in RAM regions. -/
abbrev Writable (s : State) (a : Word) (k : Nat) : Prop :=
  ∀ j < k, kindIn s.memMap (a + BitVec.ofNat 32 j).toNat = some .ram

/-- The `k` bytes from `a` upward may be fetched: readable, and no store of the run wrote them. -/
abbrev Fetchable (s : State) (a : Word) (k : Nat) : Prop :=
  ∀ j < k, (kindIn s.memMap (a + BitVec.ofNat 32 j).toNat = some .ram ∧
      (a + BitVec.ofNat 32 j).toNat ∉ s.stored) ∨
    kindIn s.memMap (a + BitVec.ofNat 32 j).toNat = some .code

/-- Among the `k` bytes from `a` upward, the first that may not be fetched is a byte of RAM that a
store of the run has written. -/
def FetchMeetsStored (s : State) (a : Word) (k : Nat) : Prop :=
  ∃ j < k, Fetchable s a j ∧ kindIn s.memMap (a + BitVec.ofNat 32 j).toNat = some .ram ∧
    (a + BitVec.ofNat 32 j).toNat ∈ s.stored

/-- Address `b` is one of the `k` addresses from `a` upward. -/
def Within (b a : Word) (k : Nat) : Prop := ∃ j < k, b = a + BitVec.ofNat 32 j

/-! ### Operands -/

/-- The source operand `o` of size `m` can be read in `s`: its value is `v`, the address register it
updates takes the value in `upd`, and the stream position afterwards is `npc`
(40_operands_and_prefixes.md R146, R150). -/
def SourceReads (m : Size) (rule : Operand1Rule) (o : MemOperand) (s : State)
    (v : BitVec m.bits) (upd : Option (GReg × Word)) (npc : Word) : Prop :=
  (o = .simple .immediate ∧ Fetchable s s.npc0 m.bytes ∧ v = s.load m s.npc0 ∧ upd = none ∧
    npc = s.npc0 + BitVec.ofNat 32 (max m.bytes 2)) ∨
  (∃ ea, place rule (Size.amount m) s o = .ok ⟨ea, upd⟩ ∧ Readable s ea m.bytes ∧
    v = s.load m ea ∧ npc = s.npc0)

/-- The register writes an operand brings with it. -/
def updateWrites (upd : Option (GReg × Word)) : List (GReg × Word) := upd.toList

/-- What a register holds once the operand's own update is made. -/
def regAfter (s : State) (upd : Option (GReg × Word)) (g : GReg) : Word :=
  match upd with
  | some (h, v) => if h = g then v else s.reg g
  | none => s.reg g

/-- The operand does not update register `g` (R148). -/
def NotUpdated (upd : Option (GReg × Word)) (g : GReg) : Prop := ∀ v, upd ≠ some (g, v)

/-! ### Effects and frames -/

/-- The special registers that have storage of their own (10_state.md R26); CCR and DCCR are the
flags. -/
def storedSpecials : List SpecialReg := [.mof, .ibr, .irp, .srp, .bar, .brp, .usp]

/-- From `s` to `t`: exactly these general registers and these special registers are written, with
these values, the flags are `fl`, and no instruction changes the memory map. -/
structure Effect (s t : State) (regs : List (GReg × Word)) (sps : List (SpecialReg × Word))
    (fl : Flags) : Prop where
  written : ∀ p ∈ regs, t.reg p.1 = p.2
  otherRegs : ∀ g, g ∉ regs.map Prod.fst → t.reg g = s.reg g
  writtenSpecials : ∀ p ∈ sps, t.special p.1 = p.2
  otherSpecials : ∀ p ∈ storedSpecials, p ∉ sps.map Prod.fst → t.special p = s.special p
  flags : t.flags = fl
  map : t.memMap = s.memMap

/-- Memory is untouched: every byte, the set of stored addresses, and the hidden status record. -/
structure KeepsMemory (s t : State) : Prop where
  bytes : ∀ a, t.byteAt a = s.byteAt a
  stored : t.stored = s.stored
  record : t.bfsr = s.bfsr

/-- The value `v` of size `m` is stored at `ea`; every other byte is as before. -/
structure StoresAt (s t : State) (m : Size) (ea : Word) (v : BitVec m.bits) : Prop where
  value : t.load m ea = v
  others : ∀ a, ¬ Within a ea m.bytes → t.byteAt a = s.byteAt a

/-- PC after an instruction that ends at `npc` and does not jump: the target of a pending delayed
jump, if there is one (10_state.md R44, R45). -/
def pcAfter (s : State) (npc : Word) : Word :=
  match s.delay with
  | some d => d.target.resolve npc
  | none => npc

/-- A user-mode check falls due at the end of this instruction: a RETB or RETI before it, or a
restarting RBF (R44, 60_exceptions.md R429 item 5). -/
def checkDue (s : State) : Bool :=
  s.onceMore || (match s.delay with
    | some d => d.userCheck
    | none => false)

/-- The mode after an instruction that does not set it itself; `u` is the U flag at its end. -/
def modeAfter (s : State) (u : Bool) : Mode := if u && checkDue s then .user else s.mode

/-- Control after an instruction: PC, DELAY, PREFIX, INHIBIT; nothing is left of a restart. -/
structure Control (t : State) (pc : Word) (delay : Option Delay) (pfx : Option Prefix)
    (inhibit : Bool) : Prop where
  pc : t.pc = pc
  delay : t.delay = delay
  pfx : t.pfx = pfx
  inhibit : t.inhibit = inhibit
  resumeAt : t.resumeAt = none
  onceMore : t.onceMore = false

/-- The instruction ends at `npc` without a jump of its own (R45 steps 6 to 8). -/
structure Ends (s t : State) (npc : Word) (inhibit : Bool) : Prop where
  control : Control t (pcAfter s npc) none none inhibit
  mode : t.mode = modeAfter s t.flags.u

/-- The instruction runs in `s`, and the state it ends in satisfies `P`. -/
def Completes (i : Instr) (s : State) (P : State → Prop) : Prop :=
  ∃ t, exec i s = .next t ∧ P t

/-- The instruction runs in `s` as one that writes these registers and flags, touches no memory and
does not jump. -/
def RunsTo (i : Instr) (s : State) (regs : List (GReg × Word)) (fl : Flags) (npc : Word)
    (inhibit : Bool) : Prop :=
  Completes i s fun t => Effect s t regs [] fl ∧ KeepsMemory s t ∧ Ends s t npc inhibit

/-! ### Values and flags, in the words of 00_scope.md R8 and 10_state.md R31 -/

/-- `trunc_n(a + b + cin)`. -/
def sumOf {w : Nat} (a b : BitVec w) (cin : Bool) : BitVec w := a + b + BitVec.ofNat w cin.toNat

/-- `trunc_n(a - b - bin)`. -/
def diffOf {w : Nat} (a b : BitVec w) (bin : Bool) : BitVec w := a - b - BitVec.ofNat w bin.toNat

/-- An integer has no two's-complement reading in `w` bits. -/
def signedOverflow (w : Nat) (x : Int) : Bool :=
  decide (x < -(2 : Int) ^ (w - 1)) || decide ((2 : Int) ^ (w - 1) ≤ x)

/-- N, Z, V, C as given, X cleared, every other flag as it was. -/
def ccFlags (fl : Flags) (n z v c : Bool) : Flags :=
  { fl with x := false, n := n, z := z, v := v, c := c }

/-- The flags with X cleared and nothing else changed: the row `- - - - - - 0 - - - -`. -/
def clearX (fl : Flags) : Flags := { fl with x := false }

/-- The move/logic pattern. -/
def logicFlags (fl : Flags) {w : Nat} (r : BitVec w) : Flags :=
  ccFlags fl r.msb (r == 0#w) false false

/-- The carry-in of the add and subtract patterns (R32; log 12). -/
def chainIn (fl : Flags) : Bool := fl.x && fl.c

/-- The Z flag of the add and subtract patterns: sticky in a chain (R32; log 12). -/
def chainZ (fl : Flags) (zero : Bool) : Bool := if fl.x then fl.z && zero else zero

/-- The add pattern: C is the unsigned carry, V the signed overflow of the exact sum. -/
def sumFlags (fl : Flags) {w : Nat} (a b : BitVec w) : Flags :=
  let cin := chainIn fl
  ccFlags fl (sumOf a b cin).msb (chainZ fl (sumOf a b cin == 0#w))
    (signedOverflow w (a.toInt + b.toInt + cin.toNat))
    (decide (2 ^ w ≤ a.toNat + b.toNat + cin.toNat))

/-- The subtract pattern: C is the unsigned borrow, V the signed overflow of the exact
difference. -/
def diffFlags (fl : Flags) {w : Nat} (a b : BitVec w) : Flags :=
  let bin := chainIn fl
  ccFlags fl (diffOf a b bin).msb (chainZ fl (diffOf a b bin == 0#w))
    (signedOverflow w (a.toInt - b.toInt - bin.toNat))
    (decide (a.toNat < b.toNat + bin.toNat))

/-! ### The invariant -/

/-- Memory has its canonical form, and the addresses stored to are listed once, rising. -/
def StateInv (s : State) : Prop := Memory.wf s.mem = true ∧ addrsRiseFrom 0 s.stored = true

/-! ### Kinds of instruction that whole-machine claims name -/

/-- The addressing-mode prefix words (30_encoding.md R113). -/
def isPrefixWord : Instr → Bool
  | .bdapQ _ _ | .biap _ _ _ | .bdap _ _ _ | .dip _ => true
  | _ => false

/-- The instructions whose pages say "Interrupts are disabled until the next instruction has been
executed" (10_state.md R42; 44_flags_and_system.md R350). -/
def opensWindow : Instr → Bool
  | .bcc _ _ | .bccW _ | .clearR _ _ | .clear _ _ | .clearf _ | .setf _ | .ax | .di | .ei => true
  | .jbrc _ | .jbrcR _ | .jir _ | .jirR _ | .jirc _ | .jircR _ | .jmpu _ | .jsr _ | .jsrR _ => true
  | .jsrc _ | .jsrcR _ | .jump _ | .jumpR _ | .ret | .retb | .reti | .sbfs _ | .scc _ _ => true
  | .moveRP _ _ | .moveSP _ _ | .movePR _ _ | .movePD _ _ | .popP _ | .pushP _ => true
  | _ => false

/-- The instructions that store to memory (20_memory.md R75). -/
def storesToMemory : Instr → Bool
  | .moveStore _ _ _ | .pushR _ | .clear _ _ | .movePD _ _ | .pushP _ | .movemStore _ _
  | .sbfs _ => true
  | _ => false

/-- The special register an instruction writes by name, if it is a move to one (43_move.md R304,
R312). -/
def movesTo : Instr → Option SpecialReg
  | .moveRP _ pd => some pd
  | .moveSP _ pd => some pd
  | .popP pd => some pd
  | _ => none

/-- A move into CCR or DCCR, which writes the flags (10_state.md R33). -/
def writesFlagRegister (i : Instr) : Bool := movesTo i == some .ccr || movesTo i == some .dccr

end Sys2Proof.Machine
end

