-- ==== Sys2Proof/Certificates/Slice0/Obligations.lean ====
section
/-! DEFINITION. The statements for the provers. "log n" is notes/assumptions/n.md. General registers
appear as `regOf g` for `g : GReg`, which is every field value but 15; what register number 15 does
is `RegisterFifteenIsRefused`. -/

open Sys2Proof Sys2Proof.Machine

/-! ### Reset and the invariant -/

/-- 10_state.md R48: what the spec requires after reset. -/
def Obligations.ResetLeavesTheRequiredState : Prop :=
  let s := State.reset
  s.flags.x = false ∧ s.flags.u = false ∧ s.flags.i = false ∧ s.mode = .supervisor ∧
  s.pfx = none ∧ s.delay = none ∧ s.inhibit = false ∧ s.pc.getLsbD 0 = false ∧
  s.special .p0 = 0#32 ∧ s.special .p4 = 0#32 ∧ s.special .p8 = 0#32 ∧
  s.special .vr = Config.vrValue.setWidth 32

/-- The invariant holds right after reset. -/
def Obligations.ResetSatisfiesTheInvariant : Prop := StateInv State.reset

/-- Every step keeps memory canonical and the list of stored addresses rising (log 7, log 11). -/
def Obligations.StepKeepsTheInvariant : Prop :=
  ∀ s t : State, StateInv s → step s = .next t → StateInv t

/-! ### Encoding -/

/-- 30_encoding.md R106 to R116: decoding an encoded well-formed instruction, in its own context,
gives it back. -/
def Obligations.DecodeOfEncodeIsTheInstruction : Prop :=
  ∀ i : Instr, i.wf = true → decode i.prefixed (encode i) = .ok i

/-- R106, R114: a word that decodes is the encoding of what it decodes to, which is well formed and
stands after a prefix exactly when one was pending. -/
def Obligations.EncodeOfDecodeIsTheWord : Prop :=
  ∀ (pending : Bool) (w : Half) (i : Instr), decodeWord pending w = .ok i →
    encodeWord i = w ∧ i.wf = true ∧ i.prefixed = pending

/-- Words that the spec writes out, and the instructions they stand for. -/
def Obligations.WrittenOutWordsDecode : Prop :=
  decodeWord false 0x26B1#16 = .ok (.abs 1#4 2#4) ∧
  decodeWord false 0x4E23#16 = .ok (.add .dword (.simple (.autoinc 3#4)) 4#4) ∧
  decodeWord false 0x5E0F#16 = .ok (.add .byte (.simple .immediate) 5#4) ∧
  decodeWord false 0x5108#16 = .ok (.bdapQ 8#8 5#4) ∧
  decodeWord true 0x6A27#16 = .ok (.add3 .dword 6#4 7#4) ∧
  decodeWord true 0x2E64#16 = .ok (.move .dword (.assign 4#4) 2#4) ∧
  decodeWord false 0x333E#16 = .ok (.andq 0x3E#6 3#4) ∧
  decodeWord false 0x20FD#16 = .ok (.bcc .ne 0xFD#8) ∧
  decodeWord false 0xB9B3#16 = .ok (.jsrR 3#4) ∧
  decodeWord false 0xE938#16 = .ok (.brk 8#4) ∧
  decodeWord false 0x2FB5#16 = .ok (.movemLoad (.simple (.autoinc 5#4)) 2#4) ∧
  decodeWord false 0x15B0#16 = .ok .ax ∧ decodeWord false 0xB67F#16 = .ok .ret

/-- 30_encoding.md R120: the reserved words, pattern by pattern, by the five boxes of the word. -/
def Obligations.ReservedWordsAreTheListedPatterns : Prop :=
  ∀ w : Half, decodeWord false w = .error .reserved ↔
    (modeOf w = 1#2 ∧ opcOf w = 5#4 ∧ sizeBitsOf w = 3#2) ∨
    ((modeOf w).getLsbD 1 = true ∧ opcOf w = 4#4 ∧ sizeBitsOf w = 3#2 ∧
      (op2Of w ∈ [1#4, 4#4, 5#4, 7#4, 9#4, 12#4, 13#4, 15#4] ∨
        (op2Of w = 14#4 ∧ modeOf w = 3#2))) ∨
    ((modeOf w).getLsbD 1 = true ∧ opcOf w = 5#4 ∧ sizeBitsOf w = 3#2 ∧ op2Of w ≠ 0#4) ∨
    ((modeOf w).getLsbD 1 = true ∧ opcOf w = 6#4 ∧ sizeBitsOf w ≠ 3#2) ∨
    (modeOf w = 2#2 ∧ opcOf w = 6#4 ∧ sizeBitsOf w = 3#2 ∧
      op2Of w ∈ [1#4, 4#4, 5#4, 7#4, 8#4, 9#4, 12#4, 13#4, 14#4, 15#4]) ∨
    (modeOf w = 3#2 ∧ opcOf w = 6#4 ∧ sizeBitsOf w = 3#2) ∨
    (modeOf w = 2#2 ∧ opcOf w = 7#4 ∧ sizeBitsOf w = 3#2) ∨
    (modeOf w = 3#2 ∧ opcOf w = 7#4 ∧ sizeBitsOf w = 3#2 ∧ op1Of w ≠ 15#4) ∨
    ((modeOf w).getLsbD 1 = true ∧ (opcOf w = 10#4 ∨ opcOf w = 11#4) ∧ sizeBitsOf w = 3#2) ∨
    ((modeOf w).getLsbD 1 = true ∧ (opcOf w = 12#4 ∨ opcOf w = 13#4) ∧ sizeBitsOf w = 3#2 ∧
      op2Of w ≠ 3#4) ∨
    ((modeOf w).getLsbD 1 = true ∧ opcOf w = 14#4 ∧ sizeBitsOf w ≠ 3#2 ∧ op2Of w ≠ 0#4)

/-! ### The step -/

/-- 10_state.md R45: where the word at PC may be fetched and decodes to an instruction that may stand
there, a step is that instruction; no interrupt comes first (log 18). -/
def Obligations.StepRunsTheDecodedInstruction : Prop :=
  ∀ (s : State) (i : Instr), s.pc.getLsbD 0 = false → Fetchable s s.pc 2 →
    decode s.pfx.isSome [s.byteAt s.pc, s.byteAt (s.pc + 1)] = .ok i →
    (s.delay = none ∨ slotValid i = true) → step s = exec i s

/-- R24, R114, R120, R462: an odd PC, a reserved word, a prefix before a word that takes none and an
instruction that may not stand in a delay slot are refused. -/
def Obligations.StepRefusesWhatMayNotRun : Prop :=
  ∀ s : State,
    (s.pc.getLsbD 0 = true → step s = .refused .oddPc) ∧
    (s.pc.getLsbD 0 = false → Fetchable s s.pc 2 →
      (decode s.pfx.isSome [s.byteAt s.pc, s.byteAt (s.pc + 1)] = .error .reserved →
        step s = .refused .reservedWord) ∧
      (decode s.pfx.isSome [s.byteAt s.pc, s.byteAt (s.pc + 1)] = .error .prefixNotTaken →
        step s = .refused .prefixNotTaken) ∧
      (∀ i, decode s.pfx.isSome [s.byteAt s.pc, s.byteAt (s.pc + 1)] = .ok i →
        s.delay ≠ none → slotValid i = false → step s = .refused .invalidDelaySlot))

/-- 20_memory.md R83, 70_reset_and_hazards.md R468: a store marks its bytes, and a marked byte of RAM
that is reached in the instruction word is refused. That an immediate operand and a branch's offset
word, which come from the same stream, are refused likewise is the model's reading (log 11). -/
def Obligations.FetchOfAStoredByteIsRefused : Prop :=
  (∀ (m : Size) (s t : State) (a b : Word) (v : BitVec m.bits), writeMem m s a v = .ok t →
    Within b a m.bytes → b.toNat ∈ t.stored) ∧
  (∀ s : State, s.pc.getLsbD 0 = false → FetchMeetsStored s s.pc 2 →
    step s = .refused .fetchOfStored) ∧
  (∀ (s : State) (m : Size) (d : GReg), FetchMeetsStored s s.npc0 m.bytes →
    let imm : MemOperand := .simple .immediate
    ∀ i ∈ [Instr.add m imm (regOf d), .sub m imm (regOf d), .cmp m imm (regOf d),
      .and m imm (regOf d), .or m imm (regOf d), .bound m imm (regOf d), .move m imm (regOf d),
      .test m imm, .bdap m .immediate (regOf d)],
    exec i s = .refused .fetchOfStored) ∧
  (∀ (s : State) (z : ZSize) (d : GReg), FetchMeetsStored s s.npc0 z.size.bytes →
    let imm : MemOperand := .simple .immediate
    ∀ i ∈ [Instr.addu z imm (regOf d), .adds z imm (regOf d), .subu z imm (regOf d),
      .subs z imm (regOf d), .cmpu z imm (regOf d), .cmps z imm (regOf d), .movu z imm (regOf d),
      .movs z imm (regOf d)],
    exec i s = .refused .fetchOfStored) ∧
  (∀ s : State, FetchMeetsStored s s.npc0 4 →
    let imm : MemOperand := .simple .immediate
    ∀ i ∈ [Instr.jump imm, .jsr imm, .jir imm, .jsrc imm, .jirc imm, .jbrc imm, .dip .immediate],
    exec i s = .refused .fetchOfStored) ∧
  (∀ (s : State) (pd : SpecialReg) (m : Size), specialSize pd = .ok m →
    FetchMeetsStored s s.npc0 m.bytes →
    exec (.moveSP (.simple .immediate) pd) s = .refused .fetchOfStored) ∧
  (∀ (s : State) (q : Cond), FetchMeetsStored s s.npc0 2 →
    exec (.bccW q) s = .refused .fetchOfStored)

/-! ### Flags -/

/-- 10_state.md R34: Table 3-1, code by code. -/
def Obligations.ConditionCodesFollowTheTable : Prop :=
  ∀ fl : Flags,
    condHolds (condOf 0#4) fl = !fl.c ∧ condHolds (condOf 1#4) fl = fl.c ∧
    condHolds (condOf 2#4) fl = !fl.z ∧ condHolds (condOf 3#4) fl = fl.z ∧
    condHolds (condOf 4#4) fl = !fl.v ∧ condHolds (condOf 5#4) fl = fl.v ∧
    condHolds (condOf 6#4) fl = !fl.n ∧ condHolds (condOf 7#4) fl = fl.n ∧
    condHolds (condOf 8#4) fl = (fl.c || fl.z) ∧
    condHolds (condOf 9#4) fl = (!fl.c && !fl.z) ∧
    condHolds (condOf 10#4) fl = (fl.n == fl.v) ∧
    condHolds (condOf 11#4) fl = (fl.n != fl.v) ∧
    condHolds (condOf 12#4) fl = (fl.n == fl.v && !fl.z) ∧
    condHolds (condOf 13#4) fl = (fl.z || fl.n != fl.v) ∧
    condHolds (condOf 14#4) fl = true ∧ condHolds (condOf 15#4) fl = fl.p

/-- R28, R29, R33: the flag register reads as the eleven flags at bits 10 to 0 and zero above; a
write sets each flag from its bit, leaves M and clears X. -/
def Obligations.FlagRegisterReadsAndWrites : Prop :=
  (∀ (s : State) (k : Nat), (s.special .dccr).getLsbD k =
    [s.flags.c, s.flags.v, s.flags.z, s.flags.n, s.flags.x, s.flags.i, s.flags.b, s.flags.m,
      s.flags.u, s.flags.p, s.flags.f].getD k false) ∧
  (∀ s : State, s.special .ccr = s.special .dccr) ∧
  (∀ (fl : Flags) (v : Word),
    fl.write v = ⟨v.getLsbD 10, v.getLsbD 9, v.getLsbD 8, fl.m, v.getLsbD 6, v.getLsbD 5, false,
      v.getLsbD 3, v.getLsbD 2, v.getLsbD 1, v.getLsbD 0⟩)

/-! ### Memory -/

/-- R71, R72: what a store of any size wrote is read back, its bytes lie in rising addresses from the
least significant, and every other byte is as before. -/
def Obligations.StoreThenLoadReturnsTheValue : Prop :=
  ∀ (m : Size) (s t : State) (a : Word) (v : BitVec m.bits), Memory.wf s.mem = true →
    writeMem m s a v = .ok t →
    readMem m t a = .ok v ∧
    (∀ j < m.bytes, t.byteAt (a + BitVec.ofNat 32 j) = v.extractLsb' (8 * j) 8) ∧
    (∀ b, ¬ Within b a m.bytes → t.byteAt b = s.byteAt b)

/-- R72, 60_exceptions.md R430: bytes are checked in rising order, and the first unmapped one is the
bus fault, for a read, for a write, and as a read for an operand in the instruction stream (R146). -/
def Obligations.FirstUnmappedByteFaults : Prop :=
  ∀ (m : Size) (s : State) (a : Word) (v : BitVec m.bits) (j : Nat), j < m.bytes →
    kindIn s.memMap (a + BitVec.ofNat 32 j).toNat = none →
    (Readable s a j →
      readMem m s a = .error (.fault (.busFault (a + BitVec.ofNat 32 j) .read))) ∧
    (Writable s a j →
      writeMem m s a v = .error (.fault (.busFault (a + BitVec.ofNat 32 j) .write))) ∧
    (Fetchable s a j →
      readStream m s a = .error (.fault (.busFault (a + BitVec.ofNat 32 j) .read)))

/-- The canonical form: two memories in it that read the same everywhere are the same data. -/
def Obligations.CanonicalMemoriesAreEqualWhenTheyReadEqual : Prop :=
  ∀ m n : Memory, Memory.wf m = true → Memory.wf n = true →
    (∀ a, Memory.read m a = Memory.read n a) → m = n

/-- 40_operands_and_prefixes.md R143, R144, R147, R150, R156, R157: the address of an operand in each
mode and the register it updates, and the forms that are refused. -/
def Obligations.OperandAddressesInEveryMode : Prop :=
  ∀ (s : State) (rule : Operand1Rule) (amount : Word) (g : GReg) (op1 : Reg) (p : Prefix),
    place rule amount s (.simple (.indirect (regOf g))) = .ok ⟨s.reg g, none⟩ ∧
    place rule amount s (.simple (.autoinc (regOf g))) =
      .ok ⟨s.reg g, some (g, s.reg g + amount)⟩ ∧
    place rule amount s (.simple .immediate) = .error (.refused .immediateNotAllowed) ∧
    place rule amount s (.simple (.indirect pcReg)) = .error (.refused .pcOperand) ∧
    (s.pfx = some p → place .ignored amount s (.complex op1) = .ok ⟨p.ea, none⟩) ∧
    (s.pfx = some p → place (.mustBe op1) amount s (.complex op1) = .ok ⟨p.ea, none⟩) ∧
    (s.pfx = some p → op1 ≠ regOf g →
      place (.mustBe (regOf g)) amount s (.complex op1) =
        .error (.refused .operand1Mismatch)) ∧
    (s.pfx = some p → p.assignOk = true →
      place rule amount s (.assign (regOf g)) = .ok ⟨p.ea, some (g, p.ea)⟩) ∧
    (s.pfx = some p → p.assignOk = false →
      place rule amount s (.assign (regOf g)) = .error (.refused .assignAfterDip)) ∧
    (s.pfx = some p →
      place rule amount s (.assign pcReg) = .error (.refused .pcOperand))

/-! ### Rules of the whole machine -/

/-- R46: every instruction but AX, SETF, RBF and the prefix words leaves X clear; AX sets it, SETF
makes it what its list says, a prefix word keeps it. -/
def Obligations.EveryInstructionDecidesX : Prop :=
  ∀ (i : Instr) (s t : State), exec i s = .next t →
    (isPrefixWord i = true → t.flags.x = s.flags.x) ∧
    (i = .ax → t.flags.x = true) ∧
    (∀ l, i = .setf l → t.flags.x = l.x) ∧
    (isPrefixWord i = false → i ≠ .ax → (∀ l, i ≠ .setf l) → (∀ o, i ≠ .rbf o) →
      t.flags.x = false)

/-- R42, 60_exceptions.md R425: an instruction opens the one-instruction interrupt window exactly
when it is in the list; while the window, a prefix or a delayed jump is pending no interrupt could
be accepted, and a maskable one needs I. -/
def Obligations.InterruptWindowOpensForTheListedInstructions : Prop :=
  ∀ (i : Instr) (s t : State), exec i s = .next t →
    t.inhibit = opensWindow i ∧
    (t.interruptWindowOpen = true ↔ opensWindow i = false ∧ t.pfx = none ∧ t.delay = none) ∧
    (t.maskableWindowOpen = true ↔ t.interruptWindowOpen = true ∧ t.flags.i = true)

/-- R30, 60_exceptions.md R428, R441: who may change M, U, F, P, I and B. M is never cleared. -/
def Obligations.SystemFlagsChangeOnlyByTheirWriters : Prop :=
  ∀ (i : Instr) (s t : State), exec i s = .next t →
    (s.flags.m = true → t.flags.m = true) ∧
    (t.flags.m ≠ s.flags.m → ∃ l, i = .setf l ∧ l.m = true) ∧
    (t.flags.u ≠ s.flags.u → writesFlagRegister i = true ∨ (∃ n, i = .brk n) ∨ ∃ o, i = .rbf o) ∧
    (t.flags.f ≠ s.flags.f → writesFlagRegister i = true ∨ (∃ n, i = .brk n) ∨ i = .di ∨
      ∃ l, i = .clearf l) ∧
    (t.flags.p ≠ s.flags.p → writesFlagRegister i = true ∨ i = .di ∨ ∃ l, i = .clearf l) ∧
    (t.flags.i ≠ s.flags.i → writesFlagRegister i = true ∨ i = .di ∨ i = .ei ∨
      ∃ l, l.i = true ∧ (i = .setf l ∨ i = .clearf l)) ∧
    (t.flags.b ≠ s.flags.b → writesFlagRegister i = true ∨
      ∃ l, l.b = true ∧ (i = .setf l ∨ i = .clearf l))

/-- R40, 60_exceptions.md R431: the mode changes only to supervisor by BREAK, or to user where U is
set: by JMPU or RBF on U before it, or on U after it at the end of a RETB or RETI slot or of a
restarted instruction. -/
def Obligations.ModeChangesOnlyWhereAllowed : Prop :=
  ∀ (i : Instr) (s t : State), exec i s = .next t → t.mode ≠ s.mode →
    (t.mode = .supervisor ∧ ∃ n, i = .brk n) ∨
    (t.mode = .user ∧ s.flags.u = true ∧ ((∃ o, i = .jmpu o) ∨ ∃ o, i = .rbf o)) ∨
    (t.mode = .user ∧ t.flags.u = true ∧ checkDue s = true)

/-- R30, R35 to R39: each special register changes only by a move that names it or by the
instructions that write it. -/
def Obligations.SpecialRegistersChangeOnlyByTheirWriters : Prop :=
  ∀ (i : Instr) (s t : State), exec i s = .next t →
    (t.mof ≠ s.mof → movesTo i = some .mof ∨ (∃ m rs rd, i = .muls m rs rd) ∨
      ∃ m rs rd, i = .mulu m rs rd) ∧
    (t.ibr ≠ s.ibr → movesTo i = some .ibr) ∧
    (t.bar ≠ s.bar → movesTo i = some .bar) ∧
    (t.usp ≠ s.usp → movesTo i = some .usp) ∧
    (t.irp ≠ s.irp → movesTo i = some .irp ∨ (∃ o, i = .jir o ∨ i = .jirc o) ∨
      ∃ r, i = .jirR r ∨ i = .jircR r) ∧
    (t.srp ≠ s.srp → movesTo i = some .srp ∨ (∃ o, i = .jsr o ∨ i = .jsrc o) ∨
      ∃ r, i = .jsrR r ∨ i = .jsrcR r) ∧
    (t.brp ≠ s.brp → movesTo i = some .brp ∨ (∃ o, i = .jbrc o) ∨ (∃ r, i = .jbrcR r) ∨
      ∃ n, i = .brk n)

/-- 20_memory.md R75: only the storing instructions touch memory or the hidden status record, and no
instruction changes the memory map. -/
def Obligations.MemoryChangesOnlyByStores : Prop :=
  ∀ (i : Instr) (s t : State), exec i s = .next t →
    t.memMap = s.memMap ∧ (storesToMemory i = false → KeepsMemory s t)

/-- R41, R45, 70_reset_and_hazards.md R463 (d): a delayed jump is pending after an instruction only
behind a closed interrupt window, and a prefix only behind a prefix word; RBF may restore either
(log 16). -/
def Obligations.DelayedJumpsHoldOffInterrupts : Prop :=
  ∀ (i : Instr) (s t : State), exec i s = .next t → (∀ o, i ≠ .rbf o) →
    (t.delay ≠ none → t.inhibit = true) ∧ (t.pfx ≠ none → isPrefixWord i = true)

/-- R44, R45 step 7, R462: after the step that runs a delay slot the pending jump is made: PC is its
target, or, for a branch not taken, the address after the one-word slot instruction, and the
user-mode check of RETB and RETI reads U after the slot. An RBF in the slot is left out (log 15). -/
def Obligations.DelaySlotEndsTheDelayedJump : Prop :=
  ∀ (s t : State) (d : Delay) (i : Instr), s.delay = some d → s.onceMore = false →
    decode s.pfx.isSome [s.byteAt s.pc, s.byteAt (s.pc + 1)] = .ok i → (∀ o, i ≠ .rbf o) →
    step s = .next t →
    t.delay = none ∧ t.pc = d.target.resolve (s.pc + 2) ∧
    (t.mode = if d.userCheck && t.flags.u then .user else s.mode)

/-! ### Quick and register instructions -/

/-- R263, R275, R308. -/
def Obligations.QuickMoveAndLogicResults : Prop :=
  (∀ (s : State) (d : GReg) (i : BitVec 6),
    RunsTo (.moveq i (regOf d)) s [(d, BitVec.ofInt 32 i.toInt)]
      (logicFlags s.flags (BitVec.ofInt 32 i.toInt)) s.npc0 false ∧
    RunsTo (.andq i (regOf d)) s [(d, s.reg d &&& BitVec.ofInt 32 i.toInt)]
      (logicFlags s.flags (s.reg d &&& BitVec.ofInt 32 i.toInt)) s.npc0 false ∧
    RunsTo (.orq i (regOf d)) s [(d, s.reg d ||| BitVec.ofInt 32 i.toInt)]
      (logicFlags s.flags (s.reg d ||| BitVec.ofInt 32 i.toInt)) s.npc0 false) ∧
  (∀ (s : State) (i : BitVec 6), exec (.moveq i pcReg) s = .refused .pcOperand ∧
    exec (.andq i pcReg) s = .refused .pcOperand ∧
    exec (.orq i pcReg) s = .refused .pcOperand) ∧
  (∀ (rd : Reg) (i : BitVec 6), encodeWord (.moveq i rd) = rd ++ 0b001001#6 ++ i ∧
    encodeWord (.andq i rd) = rd ++ 0b001100#6 ++ i ∧
    encodeWord (.orq i rd) = rd ++ 0b001101#6 ++ i)

/-- R265, R269, R271. -/
def Obligations.QuickShiftResults : Prop :=
  (∀ (s : State) (d : GReg) (c : BitVec 5),
    RunsTo (.asrq c (regOf d)) s [(d, BitVec.ofInt 32 ((s.reg d).toInt / 2 ^ c.toNat))]
      (logicFlags s.flags (BitVec.ofInt 32 ((s.reg d).toInt / 2 ^ c.toNat))) s.npc0 false ∧
    RunsTo (.lslq c (regOf d)) s [(d, BitVec.ofNat 32 ((s.reg d).toNat * 2 ^ c.toNat))]
      (logicFlags s.flags (BitVec.ofNat 32 ((s.reg d).toNat * 2 ^ c.toNat))) s.npc0 false ∧
    RunsTo (.lsrq c (regOf d)) s [(d, BitVec.ofNat 32 ((s.reg d).toNat / 2 ^ c.toNat))]
      (logicFlags s.flags (BitVec.ofNat 32 ((s.reg d).toNat / 2 ^ c.toNat))) s.npc0 false) ∧
  (∀ (s : State) (c : BitVec 5), exec (.asrq c pcReg) s = .refused .pcOperand ∧
    exec (.lslq c pcReg) s = .refused .pcOperand ∧
    exec (.lsrq c pcReg) s = .refused .pcOperand) ∧
  (∀ (rd : Reg) (c : BitVec 5), encodeWord (.asrq c rd) = rd ++ 0b0011101#7 ++ c ∧
    encodeWord (.lslq c rd) = rd ++ 0b0011110#7 ++ c ∧
    encodeWord (.lsrq c rd) = rd ++ 0b0011111#7 ++ c)

/-- R266, R267: no register is written. -/
def Obligations.BitTestResults : Prop :=
  (∀ (s : State) (x d : GReg),
    RunsTo (.btst (regOf x) (regOf d)) s []
      (ccFlags s.flags ((s.reg d).getLsbD ((s.reg x).toNat % 32))
        (decide (∀ k ≤ (s.reg x).toNat % 32, (s.reg d).getLsbD k = false)) false false)
      s.npc0 false) ∧
  (∀ (s : State) (d : GReg) (c : BitVec 5),
    RunsTo (.btstq c (regOf d)) s []
      (ccFlags s.flags ((s.reg d).getLsbD c.toNat)
        (decide (∀ k ≤ c.toNat, (s.reg d).getLsbD k = false)) false false)
      s.npc0 false) ∧
  (∀ (rs rd : Reg) (c : BitVec 5), encodeWord (.btst rs rd) = rd ++ 0b01001111#8 ++ rs ∧
    encodeWord (.btstq c rd) = rd ++ 0b0011100#7 ++ c)

/-- R205, R213, R224, with the carry chain of log 12. -/
def Obligations.QuickArithmeticResults : Prop :=
  ∀ (s : State) (d : GReg) (j i : BitVec 6),
    RunsTo (.addq j (regOf d)) s
      [(d, sumOf (s.reg d) (BitVec.ofNat 32 j.toNat) (chainIn s.flags))]
      (sumFlags s.flags (s.reg d) (BitVec.ofNat 32 j.toNat)) s.npc0 false ∧
    RunsTo (.subq j (regOf d)) s
      [(d, diffOf (s.reg d) (BitVec.ofNat 32 j.toNat) (chainIn s.flags))]
      (diffFlags s.flags (s.reg d) (BitVec.ofNat 32 j.toNat)) s.npc0 false ∧
    RunsTo (.cmpq i (regOf d)) s []
      (diffFlags s.flags (s.reg d) (BitVec.ofInt 32 i.toInt)) s.npc0 false

/-- R202, R206, R208, R212, R221, R222, R225, R227 in register mode, with the carry chain of
log 12. -/
def Obligations.RegisterArithmeticResults : Prop :=
  (∀ (s : State) (m : Size) (x d : GReg),
    RunsTo (.addR m (regOf x) (regOf d)) s
      [(d, merge m (s.reg d) (sumOf (low m (s.reg d)) (low m (s.reg x)) (chainIn s.flags)))]
      (sumFlags s.flags (low m (s.reg d)) (low m (s.reg x))) s.npc0 false ∧
    RunsTo (.subR m (regOf x) (regOf d)) s
      [(d, merge m (s.reg d) (diffOf (low m (s.reg d)) (low m (s.reg x)) (chainIn s.flags)))]
      (diffFlags s.flags (low m (s.reg d)) (low m (s.reg x))) s.npc0 false ∧
    RunsTo (.negR m (regOf x) (regOf d)) s
      [(d, merge m (s.reg d) (diffOf 0#m.bits (low m (s.reg x)) (chainIn s.flags)))]
      (diffFlags s.flags 0#m.bits (low m (s.reg x))) s.npc0 false ∧
    RunsTo (.cmpR m (regOf x) (regOf d)) s []
      (diffFlags s.flags (low m (s.reg d)) (low m (s.reg x))) s.npc0 false) ∧
  (∀ (s : State) (z : ZSize) (x d : GReg),
    let sx : Word := BitVec.ofInt 32 (low z.size (s.reg x)).toInt
    let zx : Word := BitVec.ofNat 32 (low z.size (s.reg x)).toNat
    RunsTo (.addsR z (regOf x) (regOf d)) s [(d, sumOf (s.reg d) sx (chainIn s.flags))]
      (sumFlags s.flags (s.reg d) sx) s.npc0 false ∧
    RunsTo (.adduR z (regOf x) (regOf d)) s [(d, sumOf (s.reg d) zx (chainIn s.flags))]
      (sumFlags s.flags (s.reg d) zx) s.npc0 false ∧
    RunsTo (.subsR z (regOf x) (regOf d)) s [(d, diffOf (s.reg d) sx (chainIn s.flags))]
      (diffFlags s.flags (s.reg d) sx) s.npc0 false ∧
    RunsTo (.subuR z (regOf x) (regOf d)) s [(d, diffOf (s.reg d) zx (chainIn s.flags))]
      (diffFlags s.flags (s.reg d) zx) s.npc0 false)

/-- R261, R273, R277, R302, R316 in register mode. -/
def Obligations.RegisterLogicAndMoveResults : Prop :=
  ∀ (s : State) (m : Size) (x d : GReg),
    RunsTo (.andR m (regOf x) (regOf d)) s
      [(d, merge m (s.reg d) (low m (s.reg d) &&& low m (s.reg x)))]
      (logicFlags s.flags (low m (s.reg d) &&& low m (s.reg x))) s.npc0 false ∧
    RunsTo (.orR m (regOf x) (regOf d)) s
      [(d, merge m (s.reg d) (low m (s.reg d) ||| low m (s.reg x)))]
      (logicFlags s.flags (low m (s.reg d) ||| low m (s.reg x))) s.npc0 false ∧
    RunsTo (.xor (regOf x) (regOf d)) s [(d, s.reg d ^^^ s.reg x)]
      (logicFlags s.flags (s.reg d ^^^ s.reg x)) s.npc0 false ∧
    RunsTo (.moveR m (regOf x) (regOf d)) s [(d, merge m (s.reg d) (low m (s.reg x)))]
      (logicFlags s.flags (low m (s.reg x))) s.npc0 false ∧
    RunsTo (.testR m (regOf d)) s [] (logicFlags s.flags (low m (s.reg d))) s.npc0 false

/-- R201, R210, R217, R309, R310 in register mode. LZ counts the zeros above the highest 1 bit. -/
def Obligations.AbsBoundLzAndExtendingMoveResults : Prop :=
  (∀ (s : State) (x d : GReg),
    RunsTo (.abs (regOf x) (regOf d)) s [(d, BitVec.ofInt 32 |(s.reg x).toInt|)]
      (logicFlags s.flags (BitVec.ofInt 32 |(s.reg x).toInt|)) s.npc0 false ∧
    (let k := if s.reg x = 0#32 then 32 else 31 - (s.reg x).toNat.log2
     RunsTo (.lz (regOf x) (regOf d)) s [(d, BitVec.ofNat 32 k)]
      (ccFlags s.flags false (decide (k = 0)) false false) s.npc0 false)) ∧
  (∀ (s : State) (m : Size) (x d : GReg),
    let r : Word := BitVec.ofNat 32 (min (s.reg d).toNat (low m (s.reg x)).toNat)
    RunsTo (.boundR m (regOf x) (regOf d)) s [(d, r)] (logicFlags s.flags r) s.npc0 false) ∧
  (∀ (s : State) (z : ZSize) (x d : GReg),
    let sx : Word := BitVec.ofInt 32 (low z.size (s.reg x)).toInt
    let zx : Word := BitVec.ofNat 32 (low z.size (s.reg x)).toNat
    RunsTo (.movsR z (regOf x) (regOf d)) s [(d, sx)] (logicFlags s.flags sx) s.npc0 false ∧
    RunsTo (.movuR z (regOf x) (regOf d)) s [(d, zx)]
      (ccFlags s.flags false (zx == 0#32) false false) s.npc0 false)

/-- R264, R268, R270: the count is the low six bits of Rs; a shift of 32 or more gives zero, or for
ASR the result of 31. -/
def Obligations.RegisterShiftResults : Prop :=
  (∀ (s : State) (m : Size) (x d : GReg),
    let k := (s.reg x).toNat % 64
    let a := low m (s.reg d)
    let asr : BitVec m.bits := BitVec.ofInt m.bits (a.toInt / 2 ^ min k 31)
    let lsl : BitVec m.bits := BitVec.ofNat m.bits (a.toNat * 2 ^ k)
    let lsr : BitVec m.bits := BitVec.ofNat m.bits (a.toNat / 2 ^ k)
    RunsTo (.asrR m (regOf x) (regOf d)) s [(d, merge m (s.reg d) asr)] (logicFlags s.flags asr)
      s.npc0 false ∧
    RunsTo (.lslR m (regOf x) (regOf d)) s [(d, merge m (s.reg d) lsl)] (logicFlags s.flags lsl)
      s.npc0 false ∧
    RunsTo (.lsrR m (regOf x) (regOf d)) s [(d, merge m (s.reg d) lsr)] (logicFlags s.flags lsr)
      s.npc0 false) ∧
  (∀ (s : State) (m : Size) (rs : Reg), exec (.asrR m rs pcReg) s = .refused .pcOperand ∧
    exec (.lslR m rs pcReg) s = .refused .pcOperand ∧
    exec (.lsrR m rs pcReg) s = .refused .pcOperand) ∧
  (∀ (m : Size) (rs rd : Reg),
    encodeWord (.asrR m rs rd) = rd ++ 0b011110#6 ++ sizeCode m ++ rs ∧
    encodeWord (.lslR m rs rd) = rd ++ 0b010011#6 ++ sizeCode m ++ rs ∧
    encodeWord (.lsrR m rs rd) = rd ++ 0b011111#6 ++ sizeCode m ++ rs)

/-- R216, R218, and their refusal with Rs = Rd. -/
def Obligations.DivideAndMultiplyStepResults : Prop :=
  (∀ (s : State) (x d : GReg), x ≠ d →
    (let t : Word := BitVec.ofNat 32 (2 * (s.reg d).toNat)
     let r : Word := if (s.reg x).toNat ≤ t.toNat then t - s.reg x else t
     RunsTo (.dstep (regOf x) (regOf d)) s [(d, r)] (logicFlags s.flags r) s.npc0 false) ∧
    (let r : Word := BitVec.ofNat 32
      (2 * (s.reg d).toNat + if s.flags.n then (s.reg x).toNat else 0)
     RunsTo (.mstep (regOf x) (regOf d)) s [(d, r)] (logicFlags s.flags r) s.npc0 false)) ∧
  (∀ (s : State) (r : Reg), exec (.dstep r r) s = .refused .stepSameRegister ∧
    exec (.mstep r r) s = .refused .stepSameRegister)

/-- R219, R220: the exact product; V says that it does not fit in 32 bits. -/
def Obligations.MultiplyResults : Prop :=
  (∀ (s : State) (m : Size) (x d : GReg),
    (let p : Int := (low m (s.reg x)).toInt * (low m (s.reg d)).toInt
     Completes (.muls m (regOf x) (regOf d)) s fun t =>
      Effect s t [(d, BitVec.ofInt 32 p)] [(.mof, BitVec.ofInt 32 (p / 2 ^ 32))]
        (ccFlags s.flags (decide (p < 0)) (decide (p = 0)) (signedOverflow 32 p) false) ∧
      KeepsMemory s t ∧ Ends s t s.npc0 false) ∧
    (let p : Nat := (low m (s.reg x)).toNat * (low m (s.reg d)).toNat
     Completes (.mulu m (regOf x) (regOf d)) s fun t =>
      Effect s t [(d, BitVec.ofNat 32 p)] [(.mof, BitVec.ofNat 32 (p / 2 ^ 32))]
        (ccFlags s.flags (decide (2 ^ 63 ≤ p)) (decide (p = 0)) (decide (2 ^ 32 ≤ p)) false) ∧
      KeepsMemory s t ∧ Ends s t s.npc0 false)) ∧
  (∀ (s : State) (m : Size) (rs : Reg), exec (.muls m rs pcReg) s = .refused .pcOperand ∧
    exec (.mulu m rs pcReg) s = .refused .pcOperand) ∧
  (∀ (m : Size) (rs rd : Reg),
    encodeWord (.muls m rs rd) = rd ++ 0b110100#6 ++ sizeCode m ++ rs ∧
    encodeWord (.mulu m rs rd) = rd ++ 0b100100#6 ++ sizeCode m ++ rs)

/-- R204: no flag but X; the word of ADDI R0.B,PC is NOP. -/
def Obligations.AddIndexResults : Prop :=
  (∀ (s : State) (m : Size) (x d : GReg),
    RunsTo (.addi m (regOf x) (regOf d)) s
      [(d, BitVec.ofNat 32 ((s.reg d).toNat + (s.reg x).toNat * m.bytes))] (clearX s.flags)
      s.npc0 false) ∧
  (∀ (s : State) (m : Size) (r : Reg), exec (.addi m r pcReg) s = .refused .pcOperand ∧
    exec (.addi m pcReg r) s = .refused .pcOperand) ∧
  (∀ (m : Size) (rs rd : Reg), encodeWord (.addi m rs rd) = rs ++ 0b010100#6 ++ sizeCode m ++ rd) ∧
  decodeWord false 0x050F#16 = .ok .nop

/-- R272, R276: bit k of the result is bit k xor (16 if W) xor (8 if B) xor (7 if R) of the operand,
inverted if N. -/
def Obligations.SwapPermutesTheBits : Prop :=
  ∀ (s : State) (d : GReg) (o : SwapOptions),
    (Completes (.swap o (regOf d)) s fun t =>
      (∀ k < 32, (t.reg d).getLsbD k = (o.n ^^ (s.reg d).getLsbD
        (k ^^^ ((if o.w then 16 else 0) + (if o.b then 8 else 0) + (if o.r then 7 else 0))))) ∧
      Effect s t [(d, t.reg d)] [] (logicFlags s.flags (t.reg d)) ∧ KeepsMemory s t ∧
      Ends s t s.npc0 false) ∧
    RunsTo (.not (regOf d)) s [(d, ~~~(s.reg d))] (logicFlags s.flags (~~~(s.reg d))) s.npc0 false

/-! ### Instructions with a memory or immediate source -/

/-- R202, R206, R208, R222, R225, R227 with a memory or immediate source, with the carry chain of
log 12. -/
def Obligations.MemoryArithmeticResults : Prop :=
  (∀ (s : State) (m : Size) (o : MemOperand) (d : GReg) (v : BitVec m.bits)
      (upd : Option (GReg × Word)) (npc : Word),
    SourceReads m (.mustBe (regOf d)) o s v upd npc → NotUpdated upd d →
    RunsTo (.add m o (regOf d)) s
      ((d, merge m (s.reg d) (sumOf (low m (s.reg d)) v (chainIn s.flags))) :: updateWrites upd)
      (sumFlags s.flags (low m (s.reg d)) v) npc false ∧
    RunsTo (.sub m o (regOf d)) s
      ((d, merge m (s.reg d) (diffOf (low m (s.reg d)) v (chainIn s.flags))) :: updateWrites upd)
      (diffFlags s.flags (low m (s.reg d)) v) npc false) ∧
  (∀ (s : State) (z : ZSize) (o : MemOperand) (d : GReg) (v : BitVec z.size.bits)
      (upd : Option (GReg × Word)) (npc : Word),
    SourceReads z.size (.mustBe (regOf d)) o s v upd npc → NotUpdated upd d →
    let sx : Word := BitVec.ofInt 32 v.toInt
    let zx : Word := BitVec.ofNat 32 v.toNat
    RunsTo (.adds z o (regOf d)) s ((d, sumOf (s.reg d) sx (chainIn s.flags)) :: updateWrites upd)
      (sumFlags s.flags (s.reg d) sx) npc false ∧
    RunsTo (.addu z o (regOf d)) s ((d, sumOf (s.reg d) zx (chainIn s.flags)) :: updateWrites upd)
      (sumFlags s.flags (s.reg d) zx) npc false ∧
    RunsTo (.subs z o (regOf d)) s ((d, diffOf (s.reg d) sx (chainIn s.flags)) :: updateWrites upd)
      (diffFlags s.flags (s.reg d) sx) npc false ∧
    RunsTo (.subu z o (regOf d)) s ((d, diffOf (s.reg d) zx (chainIn s.flags)) :: updateWrites upd)
      (diffFlags s.flags (s.reg d) zx) npc false)

/-- R210, R261, R273, R302, R309, R310, R311 with a memory or immediate source. -/
def Obligations.MemoryLogicAndLoadResults : Prop :=
  (∀ (s : State) (m : Size) (o : MemOperand) (d : GReg) (v : BitVec m.bits)
      (upd : Option (GReg × Word)) (npc : Word),
    SourceReads m (.mustBe (regOf d)) o s v upd npc → NotUpdated upd d →
    RunsTo (.and m o (regOf d)) s
      ((d, merge m (s.reg d) (low m (s.reg d) &&& v)) :: updateWrites upd)
      (logicFlags s.flags (low m (s.reg d) &&& v)) npc false ∧
    RunsTo (.or m o (regOf d)) s
      ((d, merge m (s.reg d) (low m (s.reg d) ||| v)) :: updateWrites upd)
      (logicFlags s.flags (low m (s.reg d) ||| v)) npc false ∧
    (let r : Word := BitVec.ofNat 32 (min (s.reg d).toNat v.toNat)
     RunsTo (.bound m o (regOf d)) s ((d, r) :: updateWrites upd) (logicFlags s.flags r) npc
      false) ∧
    RunsTo (.move m o (regOf d)) s ((d, merge m (s.reg d) v) :: updateWrites upd)
      (logicFlags s.flags v) npc false) ∧
  (∀ (s : State) (z : ZSize) (o : MemOperand) (d : GReg) (v : BitVec z.size.bits)
      (upd : Option (GReg × Word)) (npc : Word),
    SourceReads z.size (.mustBe (regOf d)) o s v upd npc → NotUpdated upd d →
    let sx : Word := BitVec.ofInt 32 v.toInt
    let zx : Word := BitVec.ofNat 32 v.toNat
    RunsTo (.movs z o (regOf d)) s ((d, sx) :: updateWrites upd) (logicFlags s.flags sx) npc
      false ∧
    RunsTo (.movu z o (regOf d)) s ((d, zx) :: updateWrites upd)
      (ccFlags s.flags false (zx == 0#32) false false) npc false) ∧
  (∀ (s : State) (d : GReg), d ≠ 14 → Readable s (s.reg 14) 4 →
    RunsTo (.popR (regOf d)) s
      [(d, s.load .dword (s.reg 14)), (14, s.reg 14 + 4)]
      (logicFlags s.flags (s.load .dword (s.reg 14))) s.npc0 false)

/-- R212, R214, R215, R316: no register is written but the address register; where that is Rd, Rd is
read after its update (log 22). -/
def Obligations.MemoryCompareResults : Prop :=
  (∀ (s : State) (m : Size) (o : MemOperand) (d : GReg) (v : BitVec m.bits)
      (upd : Option (GReg × Word)) (npc : Word), SourceReads m .ignored o s v upd npc →
    RunsTo (.cmp m o (regOf d)) s (updateWrites upd)
      (diffFlags s.flags (low m (regAfter s upd d)) v) npc false ∧
    RunsTo (.test m o) s (updateWrites upd) (logicFlags s.flags v) npc false) ∧
  (∀ (s : State) (z : ZSize) (o : MemOperand) (d : GReg) (v : BitVec z.size.bits)
      (upd : Option (GReg × Word)) (npc : Word), SourceReads z.size .ignored o s v upd npc →
    RunsTo (.cmps z o (regOf d)) s (updateWrites upd)
      (diffFlags s.flags (regAfter s upd d) (BitVec.ofInt 32 v.toInt)) npc false ∧
    RunsTo (.cmpu z o (regOf d)) s (updateWrites upd)
      (diffFlags s.flags (regAfter s upd d) (BitVec.ofNat 32 v.toNat)) npc false)

/-- R158, R203, R207, R209, R211, R223, R226, R228, R262, R274: the 3-operand forms. -/
def Obligations.ThreeOperandResults : Prop :=
  (∀ (s : State) (p : Prefix) (m : Size) (n d : GReg), s.pfx = some p →
    Readable s p.ea m.bytes →
    let v := s.load m p.ea
    let a := low m (s.reg n)
    RunsTo (.add3 m (regOf n) (regOf d)) s
      [(d, merge m (s.reg d) (sumOf a v (chainIn s.flags)))] (sumFlags s.flags a v) s.npc0 false ∧
    RunsTo (.sub3 m (regOf n) (regOf d)) s
      [(d, merge m (s.reg d) (diffOf a v (chainIn s.flags)))] (diffFlags s.flags a v) s.npc0
      false ∧
    RunsTo (.and3 m (regOf n) (regOf d)) s [(d, merge m (s.reg d) (a &&& v))]
      (logicFlags s.flags (a &&& v)) s.npc0 false ∧
    RunsTo (.or3 m (regOf n) (regOf d)) s [(d, merge m (s.reg d) (a ||| v))]
      (logicFlags s.flags (a ||| v)) s.npc0 false ∧
    (let r : Word := BitVec.ofNat 32 (min (s.reg n).toNat v.toNat)
     RunsTo (.bound3 m (regOf n) (regOf d)) s [(d, r)] (logicFlags s.flags r) s.npc0 false)) ∧
  (∀ (s : State) (p : Prefix) (z : ZSize) (n d : GReg), s.pfx = some p →
    Readable s p.ea z.size.bytes →
    let sx : Word := BitVec.ofInt 32 (s.load z.size p.ea).toInt
    let zx : Word := BitVec.ofNat 32 (s.load z.size p.ea).toNat
    RunsTo (.adds3 z (regOf n) (regOf d)) s [(d, sumOf (s.reg n) sx (chainIn s.flags))]
      (sumFlags s.flags (s.reg n) sx) s.npc0 false ∧
    RunsTo (.addu3 z (regOf n) (regOf d)) s [(d, sumOf (s.reg n) zx (chainIn s.flags))]
      (sumFlags s.flags (s.reg n) zx) s.npc0 false ∧
    RunsTo (.subs3 z (regOf n) (regOf d)) s [(d, diffOf (s.reg n) sx (chainIn s.flags))]
      (diffFlags s.flags (s.reg n) sx) s.npc0 false ∧
    RunsTo (.subu3 z (regOf n) (regOf d)) s [(d, diffOf (s.reg n) zx (chainIn s.flags))]
      (diffFlags s.flags (s.reg n) zx) s.npc0 false)

/-! ### Stores and special registers -/

/-- R301, R303, R305, R313, R314: stores, their address by `place`, and their frame. -/
def Obligations.StoreResults : Prop :=
  (∀ (s : State) (m : Size) (o : MemOperand) (ea : Word) (upd : Option (GReg × Word)),
    Memory.wf s.mem = true → place .ignored (Size.amount m) s o = .ok ⟨ea, upd⟩ →
    Writable s ea m.bytes →
    (∀ x : GReg, NotUpdated upd x → Completes (.moveStore m (regOf x) o) s fun t =>
      Effect s t (updateWrites upd) [] (clearX s.flags) ∧ StoresAt s t m ea (low m (s.reg x)) ∧
      Ends s t s.npc0 false) ∧
    (Completes (.clear m o) s fun t =>
      Effect s t (updateWrites upd) [] (clearX s.flags) ∧ StoresAt s t m ea 0#m.bits ∧
      Ends s t s.npc0 true) ∧
    (∀ ps : SpecialReg, specialSize ps = .ok m → Completes (.movePD ps o) s fun t =>
      Effect s t (updateWrites upd) [] (clearX s.flags) ∧ StoresAt s t m ea (low m (s.special ps)) ∧
      Ends s t s.npc0 true)) ∧
  (∀ (s : State) (p : Prefix), Memory.wf s.mem = true → s.pfx = some p → p.assignOk = true →
    (∀ x : GReg, x ≠ 14 → Writable s p.ea 4 → Completes (.pushR (regOf x)) s fun t =>
      Effect s t [(14, p.ea)] [] (clearX s.flags) ∧ StoresAt s t .dword p.ea (s.reg x) ∧
      Ends s t s.npc0 false) ∧
    (∀ (ps : SpecialReg) (m : Size), specialSize ps = .ok m → Writable s p.ea m.bytes →
      Completes (.pushP ps) s fun t =>
      Effect s t [(14, p.ea)] [] (clearX s.flags) ∧ StoresAt s t m p.ea (low m (s.special ps)) ∧
      Ends s t s.npc0 true))

/-- R27, R304, R312: a move to a special register writes it at its width; the zero registers and VR
take nothing; CCR and DCCR write the flags. P2, P3 and P6 are refused in every move, POP and PUSH
(R300). -/
def Obligations.SpecialRegisterWriteResults : Prop :=
  let writes (pd : SpecialReg) (v : Word) := if pd ∈ storedSpecials then [(pd, v)] else []
  let flags (fl : Flags) (pd : SpecialReg) (v : Word) :=
    if pd = .ccr ∨ pd = .dccr then fl.write v else clearX fl
  (∀ (s : State) (x : GReg) (pd : SpecialReg) (m : Size), specialSize pd = .ok m →
    let v : Word := BitVec.ofNat 32 (low m (s.reg x)).toNat
    Completes (.moveRP (regOf x) pd) s fun t =>
      Effect s t [] (writes pd v) (flags s.flags pd v) ∧ KeepsMemory s t ∧
      Ends s t s.npc0 true) ∧
  (∀ (s : State) (o : MemOperand) (pd : SpecialReg) (m : Size) (v : BitVec m.bits)
      (upd : Option (GReg × Word)) (npc : Word), specialSize pd = .ok m →
    SourceReads m .ignored o s v upd npc → Completes (.moveSP o pd) s fun t =>
      Effect s t (updateWrites upd) (writes pd (BitVec.ofNat 32 v.toNat))
        (flags s.flags pd (BitVec.ofNat 32 v.toNat)) ∧ KeepsMemory s t ∧ Ends s t npc true) ∧
  (∀ (s : State) (pd : SpecialReg) (m : Size), specialSize pd = .ok m →
    Readable s (s.reg 14) m.bytes →
    let v : Word := BitVec.ofNat 32 (s.load m (s.reg 14)).toNat
    Completes (.popP pd) s fun t =>
      Effect s t [(14, s.reg 14 + BitVec.ofNat 32 m.bytes)] (writes pd v) (flags s.flags pd v) ∧
      KeepsMemory s t ∧ Ends s t s.npc0 true) ∧
  (∀ pd ∈ [SpecialReg.p2, .p3, .p6], ∀ (s : State) (r : Reg) (o : MemOperand),
    exec (.moveRP r pd) s = .refused .reservedSpecial ∧
    exec (.moveSP o pd) s = .refused .reservedSpecial ∧
    exec (.movePR pd r) s = .refused .reservedSpecial ∧
    exec (.movePD pd o) s = .refused .reservedSpecial ∧
    exec (.popP pd) s = .refused .reservedSpecial ∧
    exec (.pushP pd) s = .refused .reservedSpecial)

/-- R26, R301, R305 with a general register as destination: the register takes the special register's
width of bits, and N, Z, V, C stay. -/
def Obligations.SpecialRegisterReadResults : Prop :=
  (∀ (s : State) (d : GReg) (ps : SpecialReg) (m : Size), specialSize ps = .ok m →
    RunsTo (.movePR ps (regOf d)) s [(d, merge m (s.reg d) (low m (s.special ps)))]
      (clearX s.flags) s.npc0 true) ∧
  (∀ (s : State) (d : GReg) (m : Size),
    RunsTo (.clearR m (regOf d)) s [(d, merge m (s.reg d) 0#m.bits)] (clearX s.flags) s.npc0
      true) ∧
  (∀ ps : SpecialReg, specialSize ps =
    if ps ∈ [SpecialReg.p2, .p3, .p6] then .error (.refused .reservedSpecial)
    else if ps ∈ [SpecialReg.p0, .vr] then .ok .byte
    else if ps ∈ [SpecialReg.p4, .ccr] then .ok .word else .ok .dword)

/-- R306: R0 to Rd from rising addresses, Rd lowest. A restarted MOVEM transfers only from the
recorded register down (R358; log 24), at addresses from the operand as it then stands, which in
indirect mode is the model's choice where the address register is one already loaded (log 37). -/
def Obligations.MovemLoadResults : Prop :=
  ∀ (s : State) (o : MemOperand) (r : GReg) (ea : Word) (upd : Option (GReg × Word)),
    place .ignored (BitVec.ofNat 32 (4 * (r.val + 1))) s o = .ok ⟨ea, upd⟩ →
    (∀ g v, upd = some (g, v) → r < g) →
    let moved := (List.finRange 15).filter fun k => decide (k ≤ r ∧ ∀ n ∈ s.resumeAt, k ≤ n)
    (∀ k ∈ moved, Readable s (ea + BitVec.ofNat 32 (4 * (r.val - k.val))) 4) →
    RunsTo (.movemLoad o (regOf r)) s
      (moved.map (fun k => (k, s.load .dword (ea + BitVec.ofNat 32 (4 * (r.val - k.val))))) ++
        updateWrites upd)
      (clearX s.flags) s.npc0 false

/-- R307: R0 to Rs to rising addresses, Rs lowest; every other byte as before. A restarted
MOVEM transfers only from the recorded register down (R358; log 24). -/
def Obligations.MovemStoreResults : Prop :=
  ∀ (s : State) (o : MemOperand) (r : GReg) (ea : Word) (upd : Option (GReg × Word)),
    Memory.wf s.mem = true →
    place .ignored (BitVec.ofNat 32 (4 * (r.val + 1))) s o = .ok ⟨ea, upd⟩ →
    (∀ g v, upd = some (g, v) → r < g) →
    let moved := (List.finRange 15).filter fun k => decide (k ≤ r ∧ ∀ n ∈ s.resumeAt, k ≤ n)
    (∀ k ∈ moved, Writable s (ea + BitVec.ofNat 32 (4 * (r.val - k.val))) 4) →
    Completes (.movemStore (regOf r) o) s fun t =>
      Effect s t (updateWrites upd) [] (clearX s.flags) ∧
      (∀ k ∈ moved, t.load .dword (ea + BitVec.ofNat 32 (4 * (r.val - k.val))) = s.reg k) ∧
      (∀ a, (∀ k ∈ moved, ¬ Within a (ea + BitVec.ofNat 32 (4 * (r.val - k.val))) 4) →
        t.byteAt a = s.byteAt a) ∧
      Ends s t s.npc0 false

/-! ### Flags, conditions, the trap -/

/-- R351 to R356: the flags named are set or cleared, and what else each page says. -/
def Obligations.FlagInstructionResults : Prop :=
  ∀ (s : State) (l : FlagList),
    let fl := s.flags
    RunsTo (.setf l) s [] ⟨fl.f, fl.p, fl.u, l.m || fl.m, l.b || fl.b, l.i || fl.i, l.x,
      l.n || fl.n, l.z || fl.z, l.v || fl.v, l.c || fl.c⟩ s.npc0 true ∧
    RunsTo (.clearf l) s [] ⟨false, false, fl.u, fl.m, !l.b && fl.b, !l.i && fl.i, false,
      !l.n && fl.n, !l.z && fl.z, !l.v && fl.v, !l.c && fl.c⟩ s.npc0 true ∧
    RunsTo .ax s [] { fl with x := true } s.npc0 true ∧
    RunsTo .ei s [] { fl with i := true, x := false } s.npc0 true ∧
    RunsTo .di s [] { fl with i := false, x := false, f := false, p := false } s.npc0 true ∧
    RunsTo .nop s [] (clearX fl) s.npc0 false

/-- R315. -/
def Obligations.SetConditionResults : Prop :=
  (∀ (s : State) (q : Cond) (d : GReg),
    RunsTo (.scc q (regOf d)) s [(d, if condHolds q s.flags then 1#32 else 0#32)]
      (clearX s.flags) s.npc0 true) ∧
  (∀ (s : State) (q : Cond), exec (.scc q pcReg) s = .refused .pcOperand) ∧
  (∀ (q : Cond) (rd : Reg), encodeWord (.scc q rd) = condCode q ++ 0b01010011#8 ++ rd)

/-- R357, 60_exceptions.md R422: taking the BREAK trap. BRP takes the address after the word, U the
mode, F is set, I is kept, control goes at once to IBR + 8 n in supervisor mode. -/
def Obligations.BreakTakesTheTrap : Prop :=
  ∀ (s : State) (n : BitVec 4), s.delay = none → s.onceMore = false →
    Completes (.brk n) s fun t =>
      Effect s t [] [(.brp, s.pc + 2)]
        { s.flags with f := true, u := decide (s.mode = .user), x := false } ∧
      KeepsMemory s t ∧ Control t (s.ibr + BitVec.ofNat 32 (8 * n.toNat)) none none false ∧
      t.mode = .supervisor

/-- 60_exceptions.md R423: BREAK, then RETB with a NOP in its slot, is back at the instruction after
the BREAK in the mode BREAK came from, with every general register and N, Z, V, C as before. -/
def Obligations.BreakThenRetbReturns : Prop :=
  ∀ (s t u w : State) (n : BitVec 4), s.delay = none → s.onceMore = false →
    exec (.brk n) s = .next t → exec .retb t = .next u → exec .nop u = .next w →
    w.pc = s.pc + 2 ∧ w.mode = s.mode ∧ w.delay = none ∧ (∀ g, w.reg g = s.reg g) ∧
    w.flags.n = s.flags.n ∧ w.flags.z = s.flags.z ∧ w.flags.v = s.flags.v ∧
    w.flags.c = s.flags.c ∧ w.flags.i = s.flags.i

/-! ### Control transfer -/

/-- R118, R381: a branch sets a delayed jump, to the next address plus the offset or to what follows
in sequence, and always opens the interrupt window. -/
def Obligations.BranchResults : Prop :=
  (∀ (s : State) (q : Cond) (o : BitVec 8), s.delay = none →
    let off : Int := 2 * (o.toNat / 2 : Nat) - (if o.getLsbD 0 then 256 else 0)
    Completes (.bcc q o) s fun t =>
      Effect s t [] [] (clearX s.flags) ∧ KeepsMemory s t ∧
      Control t s.npc0 (some ⟨if condHolds q s.flags then .addr (s.npc0 + BitVec.ofInt 32 off)
        else .sequential, false⟩) none true ∧
      t.mode = modeAfter s t.flags.u) ∧
  (∀ (s : State) (q : Cond), s.delay = none → Fetchable s s.npc0 2 →
    let xx := s.load .word s.npc0
    (xx.getLsbD 0 = true → exec (.bccW q) s = .refused .oddBranchOffset) ∧
    (xx.getLsbD 0 = false → Completes (.bccW q) s fun t =>
      Effect s t [] [] (clearX s.flags) ∧ KeepsMemory s t ∧
      Control t (s.npc0 + 2) (some ⟨if condHolds q s.flags then
        .addr (s.npc0 + 2 + BitVec.ofInt 32 xx.toInt) else .sequential, false⟩) none true ∧
      t.mode = modeAfter s t.flags.u))

/-- R305, R301, R389 to R391: RET, RETB, RETI and the other moves to PC set a delayed jump; RETB and
RETI ask for the user-mode check; a narrow register moved to PC is refused. -/
def Obligations.DelayedReturnResults : Prop :=
  ∀ s : State, s.delay = none →
    let jumps (i : Instr) (a : Word) (check : Bool) := Completes i s fun t =>
      Effect s t [] [] (clearX s.flags) ∧ KeepsMemory s t ∧
      Control t s.npc0 (some ⟨.addr a, check⟩) none true ∧ t.mode = modeAfter s t.flags.u
    jumps .ret s.srp false ∧ jumps .retb s.brp true ∧ jumps .reti s.irp true ∧
    jumps (.clearR .dword pcReg) 0#32 false ∧
    (∀ ps, specialSize ps = .ok .dword →
      jumps (.movePR ps pcReg) (s.special ps) (decide (ps = .brp ∨ ps = .irp))) ∧
    (∀ ps m, specialSize ps = .ok m → m ≠ .dword →
      exec (.movePR ps pcReg) s = .refused .narrowToPc) ∧
    (∀ m, m ≠ .dword → exec (.clearR m pcReg) s = .refused .narrowToPc)

/-- R380, R382 to R384, R386 to R388: the immediate jumps and the return pointer each writes: the
address after the instruction and its immediate, plus 4 where a context dword follows. -/
def Obligations.ImmediateJumpResults : Prop :=
  ∀ s : State, s.delay = none →
    let jumps (i : Instr) (regs : List (GReg × Word)) (sps : List (SpecialReg × Word)) (a : Word) :=
      Completes i s fun t => Effect s t regs sps (clearX s.flags) ∧ KeepsMemory s t ∧
        Control t a none none true ∧ t.mode = modeAfter s t.flags.u
    (∀ x : GReg,
      jumps (.jumpR (regOf x)) [] [] (s.reg x) ∧
      jumps (.jsrR (regOf x)) [] [(.srp, s.npc0)] (s.reg x) ∧
      jumps (.jirR (regOf x)) [] [(.irp, s.npc0)] (s.reg x) ∧
      jumps (.jsrcR (regOf x)) [] [(.srp, s.npc0 + 4)] (s.reg x) ∧
      jumps (.jircR (regOf x)) [] [(.irp, s.npc0 + 4)] (s.reg x) ∧
      jumps (.jbrcR (regOf x)) [] [(.brp, s.npc0 + 4)] (s.reg x)) ∧
    (∀ (o : MemOperand) (v : Word) (upd : Option (GReg × Word)) (npc : Word),
      SourceReads .dword .ignored o s v upd npc →
      jumps (.jump o) (updateWrites upd) [] v ∧
      jumps (.jsr o) (updateWrites upd) [(.srp, npc)] v ∧
      jumps (.jir o) (updateWrites upd) [(.irp, npc)] v ∧
      jumps (.jsrc o) (updateWrites upd) [(.srp, npc + 4)] v ∧
      jumps (.jirc o) (updateWrites upd) [(.irp, npc + 4)] v ∧
      jumps (.jbrc o) (updateWrites upd) [(.brp, npc + 4)] v)

/-- R385: JMPU jumps and enters user mode if U is set (log 13); an immediate is refused. -/
def Obligations.JumpToUserResults : Prop :=
  (∀ (s : State) (o : MemOperand) (v : Word) (upd : Option (GReg × Word)) (npc : Word),
    s.delay = none → o ≠ .simple .immediate →
    SourceReads .dword (.mustBe 3#4) o s v upd npc → Completes (.jmpu o) s fun t =>
      Effect s t (updateWrites upd) [] (clearX s.flags) ∧ KeepsMemory s t ∧
      Control t v none none true ∧ t.mode = if s.flags.u then .user else s.mode) ∧
  (∀ s : State, exec (.jmpu (.simple .immediate)) s = .refused .immediateNotAllowed)

/-- R358: RBF reads sixteen bytes and goes to the restart address that the record holds, with X and U
from the record, in user mode if U was set (user mode as log 13 models it). The record's layout is
free (log 14); that it also holds the pending prefix and the pending delayed jump is the model's
choice (log 16). -/
def Obligations.ReturnFromBusFaultRestores : Prop :=
  ∀ (s : State) (o : MemOperand) (ea : Word) (upd : Option (GReg × Word)), s.delay = none →
    s.onceMore = false → place (.mustBe 0#4) 16#32 s o = .ok ⟨ea, upd⟩ → Readable s ea 16 →
    let record : BitVec 128 := s.load .dword (ea + 12) ++ s.load .dword (ea + 8) ++
      s.load .dword (ea + 4) ++ s.load .dword ea
    Completes (.rbf o) s fun t =>
      Effect s t (updateWrites upd) []
        { s.flags with x := Config.recordX record, u := Config.recordU record } ∧
      KeepsMemory s t ∧ t.pc = Config.recordRestart record ∧ t.inhibit = false ∧
      t.pfx = recordPrefix record ∧ t.delay = recordDelay record ∧
      t.resumeAt = Config.recordMovem record ∧ t.onceMore = Config.recordOnceMore record ∧
      t.mode = if s.flags.u then .user else s.mode

/-- R359: SBFS stores the sixteen bytes of the hidden record, steps the register by 16 or assigns it,
and the record is then a new draw (R43; log 17). -/
def Obligations.SaveBusFaultStatusStores : Prop :=
  ∀ (s : State) (o : MemOperand) (ea : Word) (upd : Option (GReg × Word)),
    Memory.wf s.mem = true → place (.mustBe 0#4) 16#32 s o = .ok ⟨ea, upd⟩ → Writable s ea 16 →
    Completes (.sbfs o) s fun t =>
      Effect s t (updateWrites upd) [] (clearX s.flags) ∧
      (∀ j < 16, t.byteAt (ea + BitVec.ofNat 32 j) = s.bfsr.extractLsb' (8 * j) 8) ∧
      (∀ a, ¬ Within a ea 16 → t.byteAt a = s.byteAt a) ∧
      t.bfsrDraw = s.bfsrDraw + 1 ∧ Ends s t s.npc0 true

/-- R152 to R156: a prefix word leaves an address pending and changes no flag and no register but its
own address register. -/
def Obligations.PrefixWordResults : Prop :=
  ∀ s : State, s.delay = none →
    let sets (i : Instr) (regs : List (GReg × Word)) (npc ea : Word) (assignOk : Bool) :=
      Completes i s fun t => Effect s t regs [] s.flags ∧ KeepsMemory s t ∧
        Control t npc none (some ⟨ea, assignOk⟩) false ∧ t.mode = modeAfter s t.flags.u
    (∀ (b : GReg) (o : BitVec 8),
      sets (.bdapQ o (regOf b)) [] s.npc0 (s.reg b + BitVec.ofInt 32 o.toInt) true) ∧
    (∀ (b i : GReg) (m : Size), sets (.biap m (regOf i) (regOf b)) [] s.npc0
      (s.reg b + BitVec.ofNat 32 ((s.reg i).toNat * m.bytes)) true) ∧
    (∀ (b : GReg) (m : Size) (o : SimpleMem) (v : BitVec m.bits) (upd : Option (GReg × Word))
        (npc : Word), SourceReads m .ignored (.simple o) s v upd npc → NotUpdated upd b →
      sets (.bdap m o (regOf b)) (updateWrites upd) npc (s.reg b + BitVec.ofInt 32 v.toInt)
        true) ∧
    (∀ (o : SimpleMem) (v : Word) (upd : Option (GReg × Word)) (npc : Word),
      SourceReads .dword .ignored (.simple o) s v upd npc →
      sets (.dip o) (updateWrites upd) npc v false)

/-! ### Refusals, and the stack -/

/-- R25: register number 15 is refused in every register field of every instruction, as operand,
destination, stored register, prefix base or index and as address register of `[Rs]`, but for the
uses that R25 describes (CLEAR.D PC, MOVE Ps,PC and immediates). After a prefix,
`OperandAddressesInEveryMode` says it of assign. DSTEP and MSTEP with 15 twice are refused as in
`DivideAndMultiplyStepResults`. -/
def Obligations.RegisterFifteenIsRefused : Prop :=
  (∀ (s : State) (r : Reg) (m : Size) (z : ZSize) (q : Cond) (j : BitVec 6) (c : BitVec 5)
      (o : MemOperand) (so : SimpleMem) (sw : SwapOptions) (b : BitVec 8),
    ∀ i ∈ [Instr.addR m r pcReg, .addR m pcReg r, .subR m r pcReg, .subR m pcReg r,
      .cmpR m r pcReg, .cmpR m pcReg r, .andR m r pcReg, .andR m pcReg r, .orR m r pcReg,
      .orR m pcReg r, .moveR m r pcReg, .moveR m pcReg r, .boundR m r pcReg, .boundR m pcReg r,
      .negR m r pcReg, .negR m pcReg r, .asrR m r pcReg, .asrR m pcReg r, .lslR m r pcReg,
      .lslR m pcReg r, .lsrR m r pcReg, .lsrR m pcReg r, .adduR z r pcReg, .adduR z pcReg r,
      .addsR z r pcReg, .addsR z pcReg r, .subuR z r pcReg, .subuR z pcReg r, .subsR z r pcReg,
      .subsR z pcReg r, .movuR z r pcReg, .movuR z pcReg r, .movsR z r pcReg, .movsR z pcReg r,
      .mulu m r pcReg, .mulu m pcReg r, .muls m r pcReg, .muls m pcReg r, .addi m r pcReg,
      .addi m pcReg r, .abs r pcReg, .abs pcReg r, .lz r pcReg, .lz pcReg r, .xor r pcReg,
      .xor pcReg r, .btst r pcReg, .btst pcReg r, .addq j pcReg, .subq j pcReg, .cmpq j pcReg,
      .moveq j pcReg, .andq j pcReg, .orq j pcReg, .btstq c pcReg, .asrq c pcReg, .lslq c pcReg,
      .lsrq c pcReg, .scc q pcReg, .swap sw pcReg, .not pcReg, .testR m pcReg,
      .jumpR pcReg, .jsrR pcReg, .jirR pcReg, .jsrcR pcReg, .jircR pcReg, .jbrcR pcReg,
      .bdapQ b pcReg, .biap m r pcReg, .biap m pcReg r, .bdap m so pcReg, .popR pcReg,
      .pushR pcReg, .add m o pcReg, .sub m o pcReg, .cmp m o pcReg, .and m o pcReg, .or m o pcReg,
      .bound m o pcReg, .move m o pcReg, .addu z o pcReg, .adds z o pcReg, .subu z o pcReg,
      .subs z o pcReg, .movu z o pcReg, .movs z o pcReg, .moveStore m pcReg o,
      .movemLoad o pcReg, .movemStore pcReg o, .add3 m r pcReg, .add3 m pcReg r, .sub3 m r pcReg,
      .sub3 m pcReg r, .and3 m r pcReg, .and3 m pcReg r, .or3 m r pcReg, .or3 m pcReg r,
      .bound3 m r pcReg, .bound3 m pcReg r, .addu3 z r pcReg, .addu3 z pcReg r, .adds3 z r pcReg,
      .adds3 z pcReg r, .subu3 z r pcReg, .subu3 z pcReg r, .subs3 z r pcReg, .subs3 z pcReg r,
      .cmpu z o pcReg, .cmps z o pcReg],
    exec i s = .refused .pcOperand) ∧
  (∀ (s : State) (r : Reg), r ≠ pcReg →
    ∀ i ∈ [Instr.dstep r pcReg, .dstep pcReg r, .mstep r pcReg, .mstep pcReg r],
    exec i s = .refused .pcOperand) ∧
  (∀ (s : State) (d : GReg) (m : Size) (z : ZSize),
    let pc : MemOperand := .simple (.indirect pcReg)
    ∀ i ∈ [Instr.add m pc (regOf d), .sub m pc (regOf d), .cmp m pc (regOf d),
      .and m pc (regOf d), .or m pc (regOf d), .bound m pc (regOf d), .move m pc (regOf d),
      .addu z pc (regOf d), .adds z pc (regOf d), .subu z pc (regOf d), .subs z pc (regOf d),
      .cmpu z pc (regOf d), .cmps z pc (regOf d), .movu z pc (regOf d), .movs z pc (regOf d),
      .test m pc, .jump pc, .jsr pc, .jir pc, .jsrc pc, .jirc pc, .jbrc pc, .jmpu pc, .rbf pc,
      .sbfs pc, .clear m pc, .moveStore m (regOf d) pc, .movemLoad pc (regOf d),
      .movemStore (regOf d) pc, .bdap m (.indirect pcReg) (regOf d), .dip (.indirect pcReg)],
    exec i s = .refused .pcOperand) ∧
  (∀ (s : State) (p : SpecialReg) (m : Size), specialSize p = .ok m →
    ∀ i ∈ [Instr.moveRP pcReg p, .moveSP (.simple (.indirect pcReg)) p,
      .movePD p (.simple (.indirect pcReg))],
    exec i s = .refused .pcOperand)

/-- R148, R155: where the address register that autoincrement or assign updates is also the
destination, the stored register, the prefix base or within MOVEM's range, the instruction is
refused; PUSH SP and POP SP are such (R311, R313). -/
def Obligations.OneRegisterInTwoRolesIsRefused : Prop :=
  ∀ (s : State) (m : Size) (z : ZSize) (g r : GReg),
    ∀ o ∈ [MemOperand.simple (.autoinc (regOf g)), .assign (regOf g)],
    (∀ i ∈ [Instr.add m o (regOf g), .sub m o (regOf g), .and m o (regOf g), .or m o (regOf g),
        .bound m o (regOf g), .move m o (regOf g), .addu z o (regOf g), .adds z o (regOf g),
        .subu z o (regOf g), .subs z o (regOf g), .movu z o (regOf g), .movs z o (regOf g),
        .moveStore m (regOf g) o, .bdap m (.autoinc (regOf g)) (regOf g), .pushR spReg,
        .popR spReg],
      exec i s = .refused .sameRegister) ∧
    (g ≤ r → exec (.movemLoad o (regOf r)) s = .refused .sameRegister ∧
      exec (.movemStore (regOf r) o) s = .refused .sameRegister)

/-- R311, R313: PUSH Rs, its prefix word and its store, then POP Rd gives Rd the register and SP back,
with every other register as before. -/
def Obligations.PopReturnsWhatPushStored : Prop :=
  ∀ (s : State) (x d : GReg), Memory.wf s.mem = true → s.delay = none → x ≠ 14 → d ≠ 14 →
    Writable s (s.reg 14 - 4) 4 →
    Completes (.bdapQ 0xFC#8 spReg) s fun t => Completes (.pushR (regOf x)) t fun u =>
      u.reg 14 = s.reg 14 - 4 ∧ Completes (.popR (regOf d)) u fun w =>
        w.reg d = s.reg x ∧ w.reg 14 = s.reg 14 ∧
        (∀ g, g ≠ d → g ≠ 14 → w.reg g = s.reg g) ∧
        (∀ a, ¬ Within a (s.reg 14 - 4) 4 → w.byteAt a = s.byteAt a)
end

