-- ==== Sys2Proof/Laws/Encoding.lean ====
section
/-! SUPPORT. The boxes of an instruction word, and the codes of its fields: each way of writing one is
undone by the way of reading it (30_encoding.md R101 to R104). -/

namespace Sys2Proof

/-! ### The five boxes -/

theorem op2Of_wordOf (a : BitVec 4) (b : BitVec 2) (c : BitVec 4) (d : BitVec 2) (e : BitVec 4) :
    op2Of (wordOf a b c d e) = a := by
  ext k hk
  simp only [op2Of, wordOf, BitVec.getElem_extractLsb', BitVec.getLsbD_append]
  simp [show ¬ 12 + k < 4 by omega, show 12 + k - 4 = 8 + k by omega,
    show ¬ 8 + k < 2 by omega, show 8 + k - 2 = 6 + k by omega, show ¬ 6 + k < 4 by omega,
    show 6 + k - 4 = 2 + k by omega, hk]
  intro _; omega

theorem modeOf_wordOf (a : BitVec 4) (b : BitVec 2) (c : BitVec 4) (d : BitVec 2) (e : BitVec 4) :
    modeOf (wordOf a b c d e) = b := by
  ext k hk
  simp only [modeOf, wordOf, BitVec.getElem_extractLsb', BitVec.getLsbD_append]
  simp [show ¬ 10 + k < 4 by omega, show 10 + k - 4 = 6 + k by omega,
    show ¬ 6 + k < 2 by omega, show 6 + k - 2 = 4 + k by omega, hk]

theorem opcOf_wordOf (a : BitVec 4) (b : BitVec 2) (c : BitVec 4) (d : BitVec 2) (e : BitVec 4) :
    opcOf (wordOf a b c d e) = c := by
  ext k hk
  simp only [opcOf, wordOf, BitVec.getElem_extractLsb', BitVec.getLsbD_append]
  simp [show ¬ 6 + k < 4 by omega, show 6 + k - 4 = 2 + k by omega, hk]
  intro _; omega

theorem sizeBitsOf_wordOf (a : BitVec 4) (b : BitVec 2) (c : BitVec 4) (d : BitVec 2)
    (e : BitVec 4) : sizeBitsOf (wordOf a b c d e) = d := by
  ext k hk
  simp only [sizeBitsOf, wordOf, BitVec.getElem_extractLsb', BitVec.getLsbD_append]
  simp [hk]

theorem op1Of_wordOf (a : BitVec 4) (b : BitVec 2) (c : BitVec 4) (d : BitVec 2) (e : BitVec 4) :
    op1Of (wordOf a b c d e) = e := by
  ext k hk
  simp only [op1Of, wordOf, BitVec.getElem_extractLsb', BitVec.getLsbD_append]
  simp [hk]

/-- A word is made of its boxes. -/
theorem wordOf_boxes (w : Half) :
    wordOf (op2Of w) (modeOf w) (opcOf w) (sizeBitsOf w) (op1Of w) = w := by
  unfold wordOf op2Of modeOf opcOf sizeBitsOf op1Of
  rw [BitVec.extractLsb'_append_extractLsb'_eq_extractLsb' (show 12 = 10 + 2 from rfl),
    BitVec.extractLsb'_append_extractLsb'_eq_extractLsb' (show 10 = 6 + 4 from rfl),
    BitVec.extractLsb'_append_extractLsb'_eq_extractLsb' (show 6 = 4 + 2 from rfl),
    BitVec.extractLsb'_append_extractLsb'_eq_extractLsb' (show 4 = 0 + 4 from rfl)]
  exact BitVec.extractLsb'_eq_self

/-- The bytes of a word give the word back. -/
theorem halfOfBytes_bytes (w : Half) :
    halfOfBytes (w.extractLsb' 0 8) (w.extractLsb' 8 8) = w := by
  unfold halfOfBytes
  rw [BitVec.extractLsb'_append_extractLsb'_eq_extractLsb' (show 8 = 0 + 8 from rfl)]
  exact BitVec.extractLsb'_eq_self

/-- Decoding an encoded word is decoding the word. -/
theorem decode_bytesOfHalf (pending : Bool) (w : Half) :
    decode pending (bytesOfHalf w) = decodeWord pending w := by
  unfold decode bytesOfHalf
  simp only [halfOfBytes_bytes]

/-! ### The codes -/

theorem sizeOf?_sizeCode (m : Size) : sizeOf? (sizeCode m) = some m := by cases m <;> rfl

theorem sizeOf?_noSize : sizeOf? noSize = none := rfl

theorem condOf_condCode (q : Cond) : condOf (condCode q) = q := by cases q <;> rfl

theorem condCode_condOf (b : BitVec 4) : condCode (condOf b) = b := by revert b; decide

theorem specialOf_specialCode (p : SpecialReg) : specialOf (specialCode p) = p := by cases p <;> rfl

theorem specialCode_specialOf (b : BitVec 4) : specialCode (specialOf b) = b := by revert b; decide

theorem zOf_zCode (signed : Bool) (z : ZSize) : zOf (zCode signed z) = z := by
  cases signed <;> cases z <;> rfl

theorem zSigned_zCode (signed : Bool) (z : ZSize) : zSigned (zCode signed z) = signed := by
  cases signed <;> cases z <;> rfl

theorem flagListOf_nibbles (l : FlagList) :
    flagListOf (nibble l.m l.b l.i l.x) (nibble l.n l.z l.v l.c) = l := by
  obtain ⟨m, b, i, x, n, z, v, c⟩ := l
  cases m <;> cases b <;> cases i <;> cases x <;> cases n <;> cases z <;> cases v <;> cases c <;> rfl

theorem swapOptionsOf_nibble (o : SwapOptions) : swapOptionsOf (nibble o.n o.w o.b o.r) = o := by
  obtain ⟨n, w, b, r⟩ := o
  cases n <;> cases w <;> cases b <;> cases r <;> rfl

/-- A memory operand of an encodable form is read back from its boxes. -/
theorem memOperandOf_memCode (o : MemOperand) (h : o.wf = true) :
    memOperandOf o.prefixed ((memCode o).1.getLsbD 0) (memCode o).2 = o := by
  rcases o with (r | r | _) | r | r
  · simp [memOperandOf, MemOperand.prefixed, memCode, simpleMemCode, simpleMemOf]
  · have hr : r ≠ pcReg := by simpa [MemOperand.wf, SimpleMem.wf] using h
    simp [memOperandOf, MemOperand.prefixed, memCode, simpleMemCode, simpleMemOf, hr]
  · rfl
  · simp [memOperandOf, MemOperand.prefixed, memCode]
  · simp [memOperandOf, MemOperand.prefixed, memCode]

end Sys2Proof
end

