-- ==== Sys2Proof/Laws/State.lean ====
section
/-! SUPPORT. What each update of the state does to each field, and to a register, a byte and a special
register read afterwards. -/

namespace Sys2Proof.Machine

/-! ### `State.setReg` -/

@[simp] theorem State.setReg_pc (s : State) (g : GReg) (v : Word) :
    (s.setReg g v).pc = s.pc := rfl

@[simp] theorem State.setReg_flags (s : State) (g : GReg) (v : Word) :
    (s.setReg g v).flags = s.flags := rfl

@[simp] theorem State.setReg_mof (s : State) (g : GReg) (v : Word) :
    (s.setReg g v).mof = s.mof := rfl

@[simp] theorem State.setReg_ibr (s : State) (g : GReg) (v : Word) :
    (s.setReg g v).ibr = s.ibr := rfl

@[simp] theorem State.setReg_irp (s : State) (g : GReg) (v : Word) :
    (s.setReg g v).irp = s.irp := rfl

@[simp] theorem State.setReg_srp (s : State) (g : GReg) (v : Word) :
    (s.setReg g v).srp = s.srp := rfl

@[simp] theorem State.setReg_bar (s : State) (g : GReg) (v : Word) :
    (s.setReg g v).bar = s.bar := rfl

@[simp] theorem State.setReg_brp (s : State) (g : GReg) (v : Word) :
    (s.setReg g v).brp = s.brp := rfl

@[simp] theorem State.setReg_usp (s : State) (g : GReg) (v : Word) :
    (s.setReg g v).usp = s.usp := rfl

@[simp] theorem State.setReg_mode (s : State) (g : GReg) (v : Word) :
    (s.setReg g v).mode = s.mode := rfl

@[simp] theorem State.setReg_pfx (s : State) (g : GReg) (v : Word) :
    (s.setReg g v).pfx = s.pfx := rfl

@[simp] theorem State.setReg_delay (s : State) (g : GReg) (v : Word) :
    (s.setReg g v).delay = s.delay := rfl

@[simp] theorem State.setReg_inhibit (s : State) (g : GReg) (v : Word) :
    (s.setReg g v).inhibit = s.inhibit := rfl

@[simp] theorem State.setReg_resumeAt (s : State) (g : GReg) (v : Word) :
    (s.setReg g v).resumeAt = s.resumeAt := rfl

@[simp] theorem State.setReg_onceMore (s : State) (g : GReg) (v : Word) :
    (s.setReg g v).onceMore = s.onceMore := rfl

@[simp] theorem State.setReg_mem (s : State) (g : GReg) (v : Word) :
    (s.setReg g v).mem = s.mem := rfl

@[simp] theorem State.setReg_bfsrDraw (s : State) (g : GReg) (v : Word) :
    (s.setReg g v).bfsrDraw = s.bfsrDraw := rfl

@[simp] theorem State.setReg_stored (s : State) (g : GReg) (v : Word) :
    (s.setReg g v).stored = s.stored := rfl

@[simp] theorem State.setReg_memMap (s : State) (g : GReg) (v : Word) :
    (s.setReg g v).memMap = s.memMap := rfl

/-! ### `State.setLow` -/

@[simp] theorem State.setLow_pc (s : State) (m : Size) (g : GReg) (v : BitVec m.bits) :
    (s.setLow m g v).pc = s.pc := rfl

@[simp] theorem State.setLow_flags (s : State) (m : Size) (g : GReg) (v : BitVec m.bits) :
    (s.setLow m g v).flags = s.flags := rfl

@[simp] theorem State.setLow_mof (s : State) (m : Size) (g : GReg) (v : BitVec m.bits) :
    (s.setLow m g v).mof = s.mof := rfl

@[simp] theorem State.setLow_ibr (s : State) (m : Size) (g : GReg) (v : BitVec m.bits) :
    (s.setLow m g v).ibr = s.ibr := rfl

@[simp] theorem State.setLow_irp (s : State) (m : Size) (g : GReg) (v : BitVec m.bits) :
    (s.setLow m g v).irp = s.irp := rfl

@[simp] theorem State.setLow_srp (s : State) (m : Size) (g : GReg) (v : BitVec m.bits) :
    (s.setLow m g v).srp = s.srp := rfl

@[simp] theorem State.setLow_bar (s : State) (m : Size) (g : GReg) (v : BitVec m.bits) :
    (s.setLow m g v).bar = s.bar := rfl

@[simp] theorem State.setLow_brp (s : State) (m : Size) (g : GReg) (v : BitVec m.bits) :
    (s.setLow m g v).brp = s.brp := rfl

@[simp] theorem State.setLow_usp (s : State) (m : Size) (g : GReg) (v : BitVec m.bits) :
    (s.setLow m g v).usp = s.usp := rfl

@[simp] theorem State.setLow_mode (s : State) (m : Size) (g : GReg) (v : BitVec m.bits) :
    (s.setLow m g v).mode = s.mode := rfl

@[simp] theorem State.setLow_pfx (s : State) (m : Size) (g : GReg) (v : BitVec m.bits) :
    (s.setLow m g v).pfx = s.pfx := rfl

@[simp] theorem State.setLow_delay (s : State) (m : Size) (g : GReg) (v : BitVec m.bits) :
    (s.setLow m g v).delay = s.delay := rfl

@[simp] theorem State.setLow_inhibit (s : State) (m : Size) (g : GReg) (v : BitVec m.bits) :
    (s.setLow m g v).inhibit = s.inhibit := rfl

@[simp] theorem State.setLow_resumeAt (s : State) (m : Size) (g : GReg) (v : BitVec m.bits) :
    (s.setLow m g v).resumeAt = s.resumeAt := rfl

@[simp] theorem State.setLow_onceMore (s : State) (m : Size) (g : GReg) (v : BitVec m.bits) :
    (s.setLow m g v).onceMore = s.onceMore := rfl

@[simp] theorem State.setLow_mem (s : State) (m : Size) (g : GReg) (v : BitVec m.bits) :
    (s.setLow m g v).mem = s.mem := rfl

@[simp] theorem State.setLow_bfsrDraw (s : State) (m : Size) (g : GReg) (v : BitVec m.bits) :
    (s.setLow m g v).bfsrDraw = s.bfsrDraw := rfl

@[simp] theorem State.setLow_stored (s : State) (m : Size) (g : GReg) (v : BitVec m.bits) :
    (s.setLow m g v).stored = s.stored := rfl

@[simp] theorem State.setLow_memMap (s : State) (m : Size) (g : GReg) (v : BitVec m.bits) :
    (s.setLow m g v).memMap = s.memMap := rfl

/-! ### `State.storeByte` -/

@[simp] theorem State.storeByte_regs (s : State) (a : Word) (b : Byte) :
    (s.storeByte a b).regs = s.regs := rfl

@[simp] theorem State.storeByte_pc (s : State) (a : Word) (b : Byte) :
    (s.storeByte a b).pc = s.pc := rfl

@[simp] theorem State.storeByte_flags (s : State) (a : Word) (b : Byte) :
    (s.storeByte a b).flags = s.flags := rfl

@[simp] theorem State.storeByte_mof (s : State) (a : Word) (b : Byte) :
    (s.storeByte a b).mof = s.mof := rfl

@[simp] theorem State.storeByte_ibr (s : State) (a : Word) (b : Byte) :
    (s.storeByte a b).ibr = s.ibr := rfl

@[simp] theorem State.storeByte_irp (s : State) (a : Word) (b : Byte) :
    (s.storeByte a b).irp = s.irp := rfl

@[simp] theorem State.storeByte_srp (s : State) (a : Word) (b : Byte) :
    (s.storeByte a b).srp = s.srp := rfl

@[simp] theorem State.storeByte_bar (s : State) (a : Word) (b : Byte) :
    (s.storeByte a b).bar = s.bar := rfl

@[simp] theorem State.storeByte_brp (s : State) (a : Word) (b : Byte) :
    (s.storeByte a b).brp = s.brp := rfl

@[simp] theorem State.storeByte_usp (s : State) (a : Word) (b : Byte) :
    (s.storeByte a b).usp = s.usp := rfl

@[simp] theorem State.storeByte_mode (s : State) (a : Word) (b : Byte) :
    (s.storeByte a b).mode = s.mode := rfl

@[simp] theorem State.storeByte_pfx (s : State) (a : Word) (b : Byte) :
    (s.storeByte a b).pfx = s.pfx := rfl

@[simp] theorem State.storeByte_delay (s : State) (a : Word) (b : Byte) :
    (s.storeByte a b).delay = s.delay := rfl

@[simp] theorem State.storeByte_inhibit (s : State) (a : Word) (b : Byte) :
    (s.storeByte a b).inhibit = s.inhibit := rfl

@[simp] theorem State.storeByte_resumeAt (s : State) (a : Word) (b : Byte) :
    (s.storeByte a b).resumeAt = s.resumeAt := rfl

@[simp] theorem State.storeByte_onceMore (s : State) (a : Word) (b : Byte) :
    (s.storeByte a b).onceMore = s.onceMore := rfl

@[simp] theorem State.storeByte_bfsrDraw (s : State) (a : Word) (b : Byte) :
    (s.storeByte a b).bfsrDraw = s.bfsrDraw := rfl

@[simp] theorem State.storeByte_memMap (s : State) (a : Word) (b : Byte) :
    (s.storeByte a b).memMap = s.memMap := rfl

/-! ### `State.redrawStatus` -/

@[simp] theorem State.redrawStatus_regs (s : State) :
    (s.redrawStatus).regs = s.regs := rfl

@[simp] theorem State.redrawStatus_pc (s : State) :
    (s.redrawStatus).pc = s.pc := rfl

@[simp] theorem State.redrawStatus_flags (s : State) :
    (s.redrawStatus).flags = s.flags := rfl

@[simp] theorem State.redrawStatus_mof (s : State) :
    (s.redrawStatus).mof = s.mof := rfl

@[simp] theorem State.redrawStatus_ibr (s : State) :
    (s.redrawStatus).ibr = s.ibr := rfl

@[simp] theorem State.redrawStatus_irp (s : State) :
    (s.redrawStatus).irp = s.irp := rfl

@[simp] theorem State.redrawStatus_srp (s : State) :
    (s.redrawStatus).srp = s.srp := rfl

@[simp] theorem State.redrawStatus_bar (s : State) :
    (s.redrawStatus).bar = s.bar := rfl

@[simp] theorem State.redrawStatus_brp (s : State) :
    (s.redrawStatus).brp = s.brp := rfl

@[simp] theorem State.redrawStatus_usp (s : State) :
    (s.redrawStatus).usp = s.usp := rfl

@[simp] theorem State.redrawStatus_mode (s : State) :
    (s.redrawStatus).mode = s.mode := rfl

@[simp] theorem State.redrawStatus_pfx (s : State) :
    (s.redrawStatus).pfx = s.pfx := rfl

@[simp] theorem State.redrawStatus_delay (s : State) :
    (s.redrawStatus).delay = s.delay := rfl

@[simp] theorem State.redrawStatus_inhibit (s : State) :
    (s.redrawStatus).inhibit = s.inhibit := rfl

@[simp] theorem State.redrawStatus_resumeAt (s : State) :
    (s.redrawStatus).resumeAt = s.resumeAt := rfl

@[simp] theorem State.redrawStatus_onceMore (s : State) :
    (s.redrawStatus).onceMore = s.onceMore := rfl

@[simp] theorem State.redrawStatus_mem (s : State) :
    (s.redrawStatus).mem = s.mem := rfl

@[simp] theorem State.redrawStatus_stored (s : State) :
    (s.redrawStatus).stored = s.stored := rfl

@[simp] theorem State.redrawStatus_memMap (s : State) :
    (s.redrawStatus).memMap = s.memMap := rfl

/-! ### `State.enterTrap` -/

@[simp] theorem State.enterTrap_regs (s : State) (a : Word) :
    (s.enterTrap a).regs = s.regs := rfl

@[simp] theorem State.enterTrap_pc (s : State) (a : Word) :
    (s.enterTrap a).pc = s.pc := rfl

@[simp] theorem State.enterTrap_mof (s : State) (a : Word) :
    (s.enterTrap a).mof = s.mof := rfl

@[simp] theorem State.enterTrap_ibr (s : State) (a : Word) :
    (s.enterTrap a).ibr = s.ibr := rfl

@[simp] theorem State.enterTrap_irp (s : State) (a : Word) :
    (s.enterTrap a).irp = s.irp := rfl

@[simp] theorem State.enterTrap_srp (s : State) (a : Word) :
    (s.enterTrap a).srp = s.srp := rfl

@[simp] theorem State.enterTrap_bar (s : State) (a : Word) :
    (s.enterTrap a).bar = s.bar := rfl

@[simp] theorem State.enterTrap_usp (s : State) (a : Word) :
    (s.enterTrap a).usp = s.usp := rfl

@[simp] theorem State.enterTrap_pfx (s : State) (a : Word) :
    (s.enterTrap a).pfx = s.pfx := rfl

@[simp] theorem State.enterTrap_delay (s : State) (a : Word) :
    (s.enterTrap a).delay = s.delay := rfl

@[simp] theorem State.enterTrap_inhibit (s : State) (a : Word) :
    (s.enterTrap a).inhibit = s.inhibit := rfl

@[simp] theorem State.enterTrap_resumeAt (s : State) (a : Word) :
    (s.enterTrap a).resumeAt = s.resumeAt := rfl

@[simp] theorem State.enterTrap_onceMore (s : State) (a : Word) :
    (s.enterTrap a).onceMore = s.onceMore := rfl

@[simp] theorem State.enterTrap_mem (s : State) (a : Word) :
    (s.enterTrap a).mem = s.mem := rfl

@[simp] theorem State.enterTrap_bfsrDraw (s : State) (a : Word) :
    (s.enterTrap a).bfsrDraw = s.bfsrDraw := rfl

@[simp] theorem State.enterTrap_stored (s : State) (a : Word) :
    (s.enterTrap a).stored = s.stored := rfl

@[simp] theorem State.enterTrap_memMap (s : State) (a : Word) :
    (s.enterTrap a).memMap = s.memMap := rfl

@[simp] theorem State.enterTrap_brp (s : State) (a : Word) : (s.enterTrap a).brp = a := rfl

@[simp] theorem State.enterTrap_mode (s : State) (a : Word) :
    (s.enterTrap a).mode = .supervisor := rfl

@[simp] theorem State.enterTrap_flags (s : State) (a : Word) :
    (s.enterTrap a).flags = { s.flags with u := s.mode == .user, f := true } := rfl

/-! ### `State.store`, `State.returnMode`, `State.setSpecial` -/

@[simp] theorem State.store_regs (s : State) (m : Size) (a : Word) (v : BitVec m.bits) :
    (s.store m a v).regs = s.regs := by cases m <;> rfl

@[simp] theorem State.store_pc (s : State) (m : Size) (a : Word) (v : BitVec m.bits) :
    (s.store m a v).pc = s.pc := by cases m <;> rfl

@[simp] theorem State.store_flags (s : State) (m : Size) (a : Word) (v : BitVec m.bits) :
    (s.store m a v).flags = s.flags := by cases m <;> rfl

@[simp] theorem State.store_mof (s : State) (m : Size) (a : Word) (v : BitVec m.bits) :
    (s.store m a v).mof = s.mof := by cases m <;> rfl

@[simp] theorem State.store_ibr (s : State) (m : Size) (a : Word) (v : BitVec m.bits) :
    (s.store m a v).ibr = s.ibr := by cases m <;> rfl

@[simp] theorem State.store_irp (s : State) (m : Size) (a : Word) (v : BitVec m.bits) :
    (s.store m a v).irp = s.irp := by cases m <;> rfl

@[simp] theorem State.store_srp (s : State) (m : Size) (a : Word) (v : BitVec m.bits) :
    (s.store m a v).srp = s.srp := by cases m <;> rfl

@[simp] theorem State.store_bar (s : State) (m : Size) (a : Word) (v : BitVec m.bits) :
    (s.store m a v).bar = s.bar := by cases m <;> rfl

@[simp] theorem State.store_brp (s : State) (m : Size) (a : Word) (v : BitVec m.bits) :
    (s.store m a v).brp = s.brp := by cases m <;> rfl

@[simp] theorem State.store_usp (s : State) (m : Size) (a : Word) (v : BitVec m.bits) :
    (s.store m a v).usp = s.usp := by cases m <;> rfl

@[simp] theorem State.store_mode (s : State) (m : Size) (a : Word) (v : BitVec m.bits) :
    (s.store m a v).mode = s.mode := by cases m <;> rfl

@[simp] theorem State.store_pfx (s : State) (m : Size) (a : Word) (v : BitVec m.bits) :
    (s.store m a v).pfx = s.pfx := by cases m <;> rfl

@[simp] theorem State.store_delay (s : State) (m : Size) (a : Word) (v : BitVec m.bits) :
    (s.store m a v).delay = s.delay := by cases m <;> rfl

@[simp] theorem State.store_inhibit (s : State) (m : Size) (a : Word) (v : BitVec m.bits) :
    (s.store m a v).inhibit = s.inhibit := by cases m <;> rfl

@[simp] theorem State.store_resumeAt (s : State) (m : Size) (a : Word) (v : BitVec m.bits) :
    (s.store m a v).resumeAt = s.resumeAt := by cases m <;> rfl

@[simp] theorem State.store_onceMore (s : State) (m : Size) (a : Word) (v : BitVec m.bits) :
    (s.store m a v).onceMore = s.onceMore := by cases m <;> rfl

@[simp] theorem State.store_bfsrDraw (s : State) (m : Size) (a : Word) (v : BitVec m.bits) :
    (s.store m a v).bfsrDraw = s.bfsrDraw := by cases m <;> rfl

@[simp] theorem State.store_memMap (s : State) (m : Size) (a : Word) (v : BitVec m.bits) :
    (s.store m a v).memMap = s.memMap := by cases m <;> rfl

@[simp] theorem State.returnMode_regs (s : State) : s.returnMode.regs = s.regs := by
  unfold State.returnMode; split <;> rfl

@[simp] theorem State.returnMode_pc (s : State) : s.returnMode.pc = s.pc := by
  unfold State.returnMode; split <;> rfl

@[simp] theorem State.returnMode_flags (s : State) : s.returnMode.flags = s.flags := by
  unfold State.returnMode; split <;> rfl

@[simp] theorem State.returnMode_mof (s : State) : s.returnMode.mof = s.mof := by
  unfold State.returnMode; split <;> rfl

@[simp] theorem State.returnMode_ibr (s : State) : s.returnMode.ibr = s.ibr := by
  unfold State.returnMode; split <;> rfl

@[simp] theorem State.returnMode_irp (s : State) : s.returnMode.irp = s.irp := by
  unfold State.returnMode; split <;> rfl

@[simp] theorem State.returnMode_srp (s : State) : s.returnMode.srp = s.srp := by
  unfold State.returnMode; split <;> rfl

@[simp] theorem State.returnMode_bar (s : State) : s.returnMode.bar = s.bar := by
  unfold State.returnMode; split <;> rfl

@[simp] theorem State.returnMode_brp (s : State) : s.returnMode.brp = s.brp := by
  unfold State.returnMode; split <;> rfl

@[simp] theorem State.returnMode_usp (s : State) : s.returnMode.usp = s.usp := by
  unfold State.returnMode; split <;> rfl

@[simp] theorem State.returnMode_pfx (s : State) : s.returnMode.pfx = s.pfx := by
  unfold State.returnMode; split <;> rfl

@[simp] theorem State.returnMode_delay (s : State) : s.returnMode.delay = s.delay := by
  unfold State.returnMode; split <;> rfl

@[simp] theorem State.returnMode_inhibit (s : State) : s.returnMode.inhibit = s.inhibit := by
  unfold State.returnMode; split <;> rfl

@[simp] theorem State.returnMode_resumeAt (s : State) : s.returnMode.resumeAt = s.resumeAt := by
  unfold State.returnMode; split <;> rfl

@[simp] theorem State.returnMode_onceMore (s : State) : s.returnMode.onceMore = s.onceMore := by
  unfold State.returnMode; split <;> rfl

@[simp] theorem State.returnMode_mem (s : State) : s.returnMode.mem = s.mem := by
  unfold State.returnMode; split <;> rfl

@[simp] theorem State.returnMode_bfsrDraw (s : State) : s.returnMode.bfsrDraw = s.bfsrDraw := by
  unfold State.returnMode; split <;> rfl

@[simp] theorem State.returnMode_stored (s : State) : s.returnMode.stored = s.stored := by
  unfold State.returnMode; split <;> rfl

@[simp] theorem State.returnMode_memMap (s : State) : s.returnMode.memMap = s.memMap := by
  unfold State.returnMode; split <;> rfl

theorem State.returnMode_mode (s : State) :
    s.returnMode.mode = if s.flags.u then .user else s.mode := by
  unfold State.returnMode; split <;> simp_all

@[simp] theorem State.setSpecial_regs (s : State) (p : SpecialReg) (v : Word) :
    (s.setSpecial p v).regs = s.regs := by cases p <;> rfl

@[simp] theorem State.setSpecial_pc (s : State) (p : SpecialReg) (v : Word) :
    (s.setSpecial p v).pc = s.pc := by cases p <;> rfl

@[simp] theorem State.setSpecial_mode (s : State) (p : SpecialReg) (v : Word) :
    (s.setSpecial p v).mode = s.mode := by cases p <;> rfl

@[simp] theorem State.setSpecial_pfx (s : State) (p : SpecialReg) (v : Word) :
    (s.setSpecial p v).pfx = s.pfx := by cases p <;> rfl

@[simp] theorem State.setSpecial_delay (s : State) (p : SpecialReg) (v : Word) :
    (s.setSpecial p v).delay = s.delay := by cases p <;> rfl

@[simp] theorem State.setSpecial_inhibit (s : State) (p : SpecialReg) (v : Word) :
    (s.setSpecial p v).inhibit = s.inhibit := by cases p <;> rfl

@[simp] theorem State.setSpecial_resumeAt (s : State) (p : SpecialReg) (v : Word) :
    (s.setSpecial p v).resumeAt = s.resumeAt := by cases p <;> rfl

@[simp] theorem State.setSpecial_onceMore (s : State) (p : SpecialReg) (v : Word) :
    (s.setSpecial p v).onceMore = s.onceMore := by cases p <;> rfl

@[simp] theorem State.setSpecial_mem (s : State) (p : SpecialReg) (v : Word) :
    (s.setSpecial p v).mem = s.mem := by cases p <;> rfl

@[simp] theorem State.setSpecial_bfsrDraw (s : State) (p : SpecialReg) (v : Word) :
    (s.setSpecial p v).bfsrDraw = s.bfsrDraw := by cases p <;> rfl

@[simp] theorem State.setSpecial_stored (s : State) (p : SpecialReg) (v : Word) :
    (s.setSpecial p v).stored = s.stored := by cases p <;> rfl

@[simp] theorem State.setSpecial_memMap (s : State) (p : SpecialReg) (v : Word) :
    (s.setSpecial p v).memMap = s.memMap := by cases p <;> rfl

/-! ### The end of the cycle -/

@[simp] theorem State.sequence_regs (s : State) (fl : Flow) : (s.sequence fl).regs = s.regs := by
  unfold State.sequence; split <;> (try split) <;> simp

@[simp] theorem State.sequence_flags (s : State) (fl : Flow) : (s.sequence fl).flags = s.flags := by
  unfold State.sequence; split <;> (try split) <;> simp

@[simp] theorem State.sequence_mof (s : State) (fl : Flow) : (s.sequence fl).mof = s.mof := by
  unfold State.sequence; split <;> (try split) <;> simp

@[simp] theorem State.sequence_ibr (s : State) (fl : Flow) : (s.sequence fl).ibr = s.ibr := by
  unfold State.sequence; split <;> (try split) <;> simp

@[simp] theorem State.sequence_irp (s : State) (fl : Flow) : (s.sequence fl).irp = s.irp := by
  unfold State.sequence; split <;> (try split) <;> simp

@[simp] theorem State.sequence_srp (s : State) (fl : Flow) : (s.sequence fl).srp = s.srp := by
  unfold State.sequence; split <;> (try split) <;> simp

@[simp] theorem State.sequence_bar (s : State) (fl : Flow) : (s.sequence fl).bar = s.bar := by
  unfold State.sequence; split <;> (try split) <;> simp

@[simp] theorem State.sequence_brp (s : State) (fl : Flow) : (s.sequence fl).brp = s.brp := by
  unfold State.sequence; split <;> (try split) <;> simp

@[simp] theorem State.sequence_usp (s : State) (fl : Flow) : (s.sequence fl).usp = s.usp := by
  unfold State.sequence; split <;> (try split) <;> simp

@[simp] theorem State.sequence_pfx (s : State) (fl : Flow) : (s.sequence fl).pfx = s.pfx := by
  unfold State.sequence; split <;> (try split) <;> simp

@[simp] theorem State.sequence_inhibit (s : State) (fl : Flow) : (s.sequence fl).inhibit = s.inhibit := by
  unfold State.sequence; split <;> (try split) <;> simp

@[simp] theorem State.sequence_resumeAt (s : State) (fl : Flow) : (s.sequence fl).resumeAt = s.resumeAt := by
  unfold State.sequence; split <;> (try split) <;> simp

@[simp] theorem State.sequence_onceMore (s : State) (fl : Flow) : (s.sequence fl).onceMore = s.onceMore := by
  unfold State.sequence; split <;> (try split) <;> simp

@[simp] theorem State.sequence_mem (s : State) (fl : Flow) : (s.sequence fl).mem = s.mem := by
  unfold State.sequence; split <;> (try split) <;> simp

@[simp] theorem State.sequence_bfsrDraw (s : State) (fl : Flow) : (s.sequence fl).bfsrDraw = s.bfsrDraw := by
  unfold State.sequence; split <;> (try split) <;> simp

@[simp] theorem State.sequence_stored (s : State) (fl : Flow) : (s.sequence fl).stored = s.stored := by
  unfold State.sequence; split <;> (try split) <;> simp

@[simp] theorem State.sequence_memMap (s : State) (fl : Flow) : (s.sequence fl).memMap = s.memMap := by
  unfold State.sequence; split <;> (try split) <;> simp

@[simp] theorem State.checkOnceMore_regs (s : State) : s.checkOnceMore.regs = s.regs := by
  unfold State.checkOnceMore; split <;> simp

@[simp] theorem State.checkOnceMore_pc (s : State) : s.checkOnceMore.pc = s.pc := by
  unfold State.checkOnceMore; split <;> simp

@[simp] theorem State.checkOnceMore_flags (s : State) : s.checkOnceMore.flags = s.flags := by
  unfold State.checkOnceMore; split <;> simp

@[simp] theorem State.checkOnceMore_mof (s : State) : s.checkOnceMore.mof = s.mof := by
  unfold State.checkOnceMore; split <;> simp

@[simp] theorem State.checkOnceMore_ibr (s : State) : s.checkOnceMore.ibr = s.ibr := by
  unfold State.checkOnceMore; split <;> simp

@[simp] theorem State.checkOnceMore_irp (s : State) : s.checkOnceMore.irp = s.irp := by
  unfold State.checkOnceMore; split <;> simp

@[simp] theorem State.checkOnceMore_srp (s : State) : s.checkOnceMore.srp = s.srp := by
  unfold State.checkOnceMore; split <;> simp

@[simp] theorem State.checkOnceMore_bar (s : State) : s.checkOnceMore.bar = s.bar := by
  unfold State.checkOnceMore; split <;> simp

@[simp] theorem State.checkOnceMore_brp (s : State) : s.checkOnceMore.brp = s.brp := by
  unfold State.checkOnceMore; split <;> simp

@[simp] theorem State.checkOnceMore_usp (s : State) : s.checkOnceMore.usp = s.usp := by
  unfold State.checkOnceMore; split <;> simp

@[simp] theorem State.checkOnceMore_pfx (s : State) : s.checkOnceMore.pfx = s.pfx := by
  unfold State.checkOnceMore; split <;> simp

@[simp] theorem State.checkOnceMore_delay (s : State) : s.checkOnceMore.delay = s.delay := by
  unfold State.checkOnceMore; split <;> simp

@[simp] theorem State.checkOnceMore_inhibit (s : State) : s.checkOnceMore.inhibit = s.inhibit := by
  unfold State.checkOnceMore; split <;> simp

@[simp] theorem State.checkOnceMore_resumeAt (s : State) : s.checkOnceMore.resumeAt = s.resumeAt := by
  unfold State.checkOnceMore; split <;> simp

@[simp] theorem State.checkOnceMore_onceMore (s : State) : s.checkOnceMore.onceMore = s.onceMore := by
  unfold State.checkOnceMore; split <;> simp

@[simp] theorem State.checkOnceMore_mem (s : State) : s.checkOnceMore.mem = s.mem := by
  unfold State.checkOnceMore; split <;> simp

@[simp] theorem State.checkOnceMore_bfsrDraw (s : State) : s.checkOnceMore.bfsrDraw = s.bfsrDraw := by
  unfold State.checkOnceMore; split <;> simp

@[simp] theorem State.checkOnceMore_stored (s : State) : s.checkOnceMore.stored = s.stored := by
  unfold State.checkOnceMore; split <;> simp

@[simp] theorem State.checkOnceMore_memMap (s : State) : s.checkOnceMore.memMap = s.memMap := by
  unfold State.checkOnceMore; split <;> simp

theorem State.checkOnceMore_mode (s : State) :
    s.checkOnceMore.mode = if s.onceMore && s.flags.u then .user else s.mode := by
  unfold State.checkOnceMore
  cases h : s.onceMore <;> simp [State.returnMode_mode]

@[simp] theorem finish_regs (s : State) (fl : Flow) : (finish s fl).regs = s.regs := by
  simp [finish]

@[simp] theorem finish_mof (s : State) (fl : Flow) : (finish s fl).mof = s.mof := by
  simp [finish]

@[simp] theorem finish_ibr (s : State) (fl : Flow) : (finish s fl).ibr = s.ibr := by
  simp [finish]

@[simp] theorem finish_irp (s : State) (fl : Flow) : (finish s fl).irp = s.irp := by
  simp [finish]

@[simp] theorem finish_srp (s : State) (fl : Flow) : (finish s fl).srp = s.srp := by
  simp [finish]

@[simp] theorem finish_bar (s : State) (fl : Flow) : (finish s fl).bar = s.bar := by
  simp [finish]

@[simp] theorem finish_brp (s : State) (fl : Flow) : (finish s fl).brp = s.brp := by
  simp [finish]

@[simp] theorem finish_usp (s : State) (fl : Flow) : (finish s fl).usp = s.usp := by
  simp [finish]

@[simp] theorem finish_mem (s : State) (fl : Flow) : (finish s fl).mem = s.mem := by
  simp [finish]

@[simp] theorem finish_bfsrDraw (s : State) (fl : Flow) : (finish s fl).bfsrDraw = s.bfsrDraw := by
  simp [finish]

@[simp] theorem finish_stored (s : State) (fl : Flow) : (finish s fl).stored = s.stored := by
  simp [finish]

@[simp] theorem finish_memMap (s : State) (fl : Flow) : (finish s fl).memMap = s.memMap := by
  simp [finish]

@[simp] theorem finish_flags (s : State) (fl : Flow) :
    (finish s fl).flags = { s.flags with x := fl.x } := by simp [finish]

@[simp] theorem finish_pfx (s : State) (fl : Flow) : (finish s fl).pfx = fl.pfx := by
  simp [finish]

@[simp] theorem finish_inhibit (s : State) (fl : Flow) : (finish s fl).inhibit = fl.inhibit := rfl

@[simp] theorem finish_resumeAt (s : State) (fl : Flow) : (finish s fl).resumeAt = fl.resumeAt := rfl

@[simp] theorem finish_onceMore (s : State) (fl : Flow) : (finish s fl).onceMore = fl.onceMore := rfl

/-- Step 7 of R45 for PC. -/
theorem finish_pc (s : State) (fl : Flow) :
    (finish s fl).pc = match s.delay with
      | some d => d.target.resolve fl.npc
      | none => fl.jump.getD fl.npc := by
  unfold finish State.sequence
  cases s.delay with
  | some d => cases h : d.userCheck <;> simp [h]
  | none => cases fl.jump <;> simp

/-- Step 7 of R45 for DELAY. -/
theorem finish_delay (s : State) (fl : Flow) :
    (finish s fl).delay = match s.delay with
      | some _ => none
      | none => fl.delay := by
  unfold finish State.sequence
  cases s.delay with
  | some d => cases h : d.userCheck <;> simp [h]
  | none => cases fl.jump <;> simp

/-- The mode after the cycle: the user-mode checks of R44 and R429. -/
theorem finish_mode (s : State) (fl : Flow) :
    (finish s fl).mode = if s.flags.u && checkDue s then .user else s.mode := by
  unfold finish State.sequence checkDue
  cases s.delay with
  | some d =>
    cases h : d.userCheck <;> cases hu : s.flags.u <;>
      simp [State.checkOnceMore_mode, State.returnMode_mode, h, hu]
  | none =>
    cases fl.jump <;> cases hu : s.flags.u <;> simp [State.checkOnceMore_mode, hu]

/-! ### The stream position after the word -/

@[simp] theorem State.setReg_npc0 (s : State) (g : GReg) (v : Word) :
    (s.setReg g v).npc0 = s.npc0 := rfl

@[simp] theorem State.setLow_npc0 (s : State) (m : Size) (g : GReg) (v : BitVec m.bits) :
    (s.setLow m g v).npc0 = s.npc0 := rfl

@[simp] theorem State.redrawStatus_npc0 (s : State) : s.redrawStatus.npc0 = s.npc0 := rfl

@[simp] theorem State.store_npc0 (s : State) (m : Size) (a : Word) (v : BitVec m.bits) :
    (s.store m a v).npc0 = s.npc0 := by simp [State.npc0]

@[simp] theorem State.setSpecial_npc0 (s : State) (p : SpecialReg) (v : Word) :
    (s.setSpecial p v).npc0 = s.npc0 := by simp [State.npc0]

@[simp] theorem State.returnMode_npc0 (s : State) : s.returnMode.npc0 = s.npc0 := by
  simp [State.npc0]

/-! ### Reading registers, bytes and special registers after an update -/

theorem State.setReg_reg (s : State) (g h : GReg) (v : Word) :
    (s.setReg g v).reg h = if g = h then v else s.reg h := by
  unfold State.setReg State.reg
  simp [Vector.getElem_set, Fin.ext_iff]

@[simp] theorem State.setReg_reg_same (s : State) (g : GReg) (v : Word) :
    (s.setReg g v).reg g = v := by simp [State.setReg_reg]

theorem State.setReg_reg_other (s : State) {g h : GReg} (v : Word) (n : g ≠ h) :
    (s.setReg g v).reg h = s.reg h := by simp [State.setReg_reg, n]

/-- A register depends on the register file alone. -/
theorem State.reg_congr {s t : State} (h : t.regs = s.regs) (g : GReg) : t.reg g = s.reg g := by
  simp [State.reg, h]

/-- A byte depends on memory alone. -/
theorem State.byteAt_congr {s t : State} (h : t.mem = s.mem) (a : Word) :
    t.byteAt a = s.byteAt a := by simp [State.byteAt, h]

/-- A value in memory depends on memory alone. -/
theorem State.load_congr {s t : State} (h : t.mem = s.mem) (m : Size) (a : Word) :
    t.load m a = s.load m a := by
  cases m <;> simp [State.load, State.byteAt, h]

/-- Writing a special register that has storage, and reading one. -/
theorem State.setSpecial_special (s : State) (p q : SpecialReg) (v : Word)
    (h : q ∈ storedSpecials) :
    (s.setSpecial p v).special q = if p = q then v else s.special q := by
  cases p <;> cases q <;> simp_all [storedSpecials, State.setSpecial, State.special]

/-- The flags after writing a special register. -/
theorem State.setSpecial_flags (s : State) (p : SpecialReg) (v : Word) :
    (s.setSpecial p v).flags = if p = .ccr ∨ p = .dccr then s.flags.write v else s.flags := by
  cases p <;> rfl

end Sys2Proof.Machine
end

