-- ==== Sys2Proof/Laws/Memory.lean ====
section
/-! SUPPORT. Memory: reading after writing, the canonical form, the addresses stored to, and what an
access answers (20_memory.md R71, R72). -/

namespace Sys2Proof.Machine

/-! ### The list -/

theorem Memory.wfFrom_mono {m : Memory} : ∀ {lo hi : Nat}, lo ≤ hi → Memory.wfFrom hi m = true →
    Memory.wfFrom lo m = true := by
  cases m with
  | nil => intros; rfl
  | cons c t =>
    intro lo hi h w
    simp only [Memory.wfFrom, Bool.and_eq_true, decide_eq_true_eq] at w ⊢
    exact ⟨⟨⟨by omega, w.1.1.2⟩, w.1.2⟩, w.2⟩

/-- Below every listed address, memory reads as unlisted. -/
theorem Memory.read_below {m : Memory} : ∀ {lo a : Nat}, Memory.wfFrom lo m = true → a < lo →
    Memory.read m a = Config.unlistedByte := by
  induction m with
  | nil => intros; rfl
  | cons c t ih =>
    intro lo a w h
    simp only [Memory.wfFrom, Bool.and_eq_true, decide_eq_true_eq] at w
    have hne : a ≠ c.1 := by omega
    simp only [Memory.read, hne, if_false]
    exact ih w.2 (by omega)

/-- A write keeps the canonical form. -/
theorem Memory.wfFrom_write {m : Memory} : ∀ {lo a : Nat} {b : Byte}, Memory.wfFrom lo m = true →
    lo ≤ a → a < 4294967296 → Memory.wfFrom lo (Memory.write m a b) = true := by
  induction m with
  | nil =>
    intro lo a b _ h1 h2
    unfold Memory.write
    split <;> simp_all [Memory.wfFrom]
  | cons c t ih =>
    intro lo a b w h1 h2
    simp only [Memory.wfFrom, Bool.and_eq_true, decide_eq_true_eq] at w
    obtain ⟨⟨⟨w1, w2⟩, w3⟩, w4⟩ := w
    unfold Memory.write
    split
    · split
      · simp_all [Memory.wfFrom]
      · simp_all [Memory.wfFrom]
    · split
      · subst_vars
        split
        · exact Memory.wfFrom_mono (by omega) w4
        · simp_all [Memory.wfFrom]
      · have := ih (b := b) w4 (by omega : c.1 + 1 ≤ a) h2
        simp_all [Memory.wfFrom]

theorem Memory.wf_write {m : Memory} {a : Nat} (b : Byte) (w : Memory.wf m = true)
    (h : a < 4294967296) : Memory.wf (Memory.write m a b) = true :=
  Memory.wfFrom_write w (Nat.zero_le a) h

/-- Reading after writing. -/
theorem Memory.read_write {m : Memory} : ∀ {lo a : Nat} (b : Byte) (x : Nat),
    Memory.wfFrom lo m = true →
    Memory.read (Memory.write m a b) x = if x = a then b else Memory.read m x := by
  induction m with
  | nil =>
    intro lo a b x _
    unfold Memory.write
    split <;> simp_all [Memory.read]
  | cons c t ih =>
    intro lo a b x w
    simp only [Memory.wfFrom, Bool.and_eq_true, decide_eq_true_eq] at w
    obtain ⟨⟨⟨w1, w2⟩, w3⟩, w4⟩ := w
    have below : ∀ y, y < c.1 + 1 → Memory.read t y = Config.unlistedByte :=
      fun y h => Memory.read_below w4 h
    unfold Memory.write
    split
    · rename_i hlt
      split
      · rename_i hb
        by_cases hx : x = a
        · subst hx
          have : x ≠ c.1 := by omega
          simp [Memory.read, this, below x (by omega), hb]
        · simp [hx]
      · simp [Memory.read]
    · split
      · rename_i hge heq
        subst heq
        split
        · rename_i hb
          by_cases hx : x = c.1
          · subst hx; simp [below c.1 (by omega), hb]
          · simp [Memory.read, hx]
        · by_cases hx : x = c.1 <;> simp [Memory.read, hx]
      · rename_i hge hne
        simp only [Memory.read, ih b x w4]
        by_cases hx : x = c.1
        · subst hx; simp [Ne.symm hne]
        · simp [hx]

/-! ### The addresses stored to -/

theorem addrsRiseFrom_mono {l : List Nat} {lo hi : Nat} (h : lo ≤ hi)
    (w : addrsRiseFrom hi l = true) : addrsRiseFrom lo l = true := by
  cases l with
  | nil => rfl
  | cons x t =>
    simp only [addrsRiseFrom, Bool.and_eq_true, decide_eq_true_eq] at w ⊢
    exact ⟨⟨by omega, w.1.2⟩, w.2⟩

theorem addrsRiseFrom_insert {l : List Nat} : ∀ {lo a : Nat}, addrsRiseFrom lo l = true → lo ≤ a →
    a < 4294967296 → addrsRiseFrom lo (insertAddr l a) = true := by
  induction l with
  | nil => intro lo a _ h1 h2; simp [insertAddr, addrsRiseFrom, h1, h2]
  | cons x t ih =>
    intro lo a w h1 h2
    simp only [addrsRiseFrom, Bool.and_eq_true, decide_eq_true_eq] at w
    obtain ⟨⟨w1, w2⟩, w3⟩ := w
    unfold insertAddr
    split
    · simp [addrsRiseFrom, h1, h2, w2, w3]; omega
    · split
      · simp [addrsRiseFrom, w1, w2, w3]
      · have := ih w3 (by omega : x + 1 ≤ a) h2
        simp [addrsRiseFrom, w1, w2, this]

theorem mem_insertAddr {l : List Nat} {a x : Nat} : x ∈ insertAddr l a ↔ x = a ∨ x ∈ l := by
  induction l with
  | nil => simp [insertAddr]
  | cons y t ih =>
    unfold insertAddr
    split
    · simp
    · split
      · subst_vars; simp
      · simp only [List.mem_cons, ih]
        tauto

/-! ### One byte -/

theorem State.byteAt_storeByte {s : State} (w : Memory.wf s.mem = true) (a x : Word) (b : Byte) :
    (s.storeByte a b).byteAt x = if x = a then b else s.byteAt x := by
  simp only [State.byteAt, State.storeByte]
  rw [Memory.read_write b x.toNat w]
  simp [BitVec.toNat_inj]

theorem State.wf_storeByte {s : State} (w : Memory.wf s.mem = true) (a : Word) (b : Byte) :
    Memory.wf (s.storeByte a b).mem = true := Memory.wf_write b w a.isLt

theorem State.inv_storeByte {s : State} (h : StateInv s) (a : Word) (b : Byte) :
    StateInv (s.storeByte a b) :=
  ⟨State.wf_storeByte h.1 a b, addrsRiseFrom_insert h.2 (Nat.zero_le _) a.isLt⟩

theorem State.stored_storeByte (s : State) (a : Word) (b : Byte) (x : Nat) :
    x ∈ (s.storeByte a b).stored ↔ x = a.toNat ∨ x ∈ s.stored := mem_insertAddr

/-! ### A value -/

theorem bytes_word (v : BitVec 16) : (v.extractLsb' 8 8 ++ v.extractLsb' 0 8 : BitVec 16) = v := by
  rw [BitVec.extractLsb'_append_extractLsb'_eq_extractLsb' (show 8 = 0 + 8 from rfl)]
  exact BitVec.extractLsb'_eq_self

theorem bytes_dword (v : Word) : (v.extractLsb' 24 8 ++ v.extractLsb' 16 8 ++ v.extractLsb' 8 8
    ++ v.extractLsb' 0 8 : BitVec 32) = v := by
  rw [BitVec.extractLsb'_append_extractLsb'_eq_extractLsb' (show 24 = 16 + 8 from rfl),
    BitVec.extractLsb'_append_extractLsb'_eq_extractLsb' (show 16 = 8 + 8 from rfl),
    BitVec.extractLsb'_append_extractLsb'_eq_extractLsb' (show 8 = 0 + 8 from rfl)]
  exact BitVec.extractLsb'_eq_self

theorem State.wf_store {s : State} (w : Memory.wf s.mem = true) (m : Size) (a : Word)
    (v : BitVec m.bits) : Memory.wf (s.store m a v).mem = true := by
  cases m
  · exact State.wf_storeByte w _ _
  · exact State.wf_storeByte (State.wf_storeByte w _ _) _ _
  · exact State.wf_storeByte (State.wf_storeByte (State.wf_storeByte (State.wf_storeByte w _ _)
      _ _) _ _) _ _

theorem State.inv_store {s : State} (h : StateInv s) (m : Size) (a : Word) (v : BitVec m.bits) :
    StateInv (s.store m a v) := by
  cases m
  · exact State.inv_storeByte h _ _
  · exact State.inv_storeByte (State.inv_storeByte h _ _) _ _
  · exact State.inv_storeByte (State.inv_storeByte (State.inv_storeByte (State.inv_storeByte h _ _)
      _ _) _ _) _ _

/-- The `j`-th byte after a store of any size. -/
theorem State.byteAt_store {s : State} (w : Memory.wf s.mem = true) (m : Size) (a : Word)
    (v : BitVec m.bits) (j : Nat) (h : j < m.bytes) :
    (s.store m a v).byteAt (a + BitVec.ofNat 32 j) = v.extractLsb' (8 * j) 8 := by
  have key : ∀ i k : Nat, i < 4 → k < 4 →
      (a + BitVec.ofNat 32 i = a + BitVec.ofNat 32 k ↔ i = k) := by
    intro i k hi hk
    constructor
    · intro e; have := congrArg BitVec.toNat (add_left_cancel e)
      simp at this; omega
    · rintro rfl; rfl
  have e1 : (1#32 : Word) = BitVec.ofNat 32 1 := rfl
  have w1 := State.wf_storeByte w a (v.extractLsb' 0 8)
  have w2 := State.wf_storeByte w1 (a + 1) (v.extractLsb' 8 8)
  have w3 := State.wf_storeByte w2 (a + 2) (v.extractLsb' 16 8)
  have k0 : a = a + BitVec.ofNat 32 0 := by simp
  cases m with
  | byte =>
    have : j = 0 := by simpa [Size.bytes] using h
    subst this
    simp [State.store, State.byteAt_storeByte w]
  | word =>
    have hj : j = 0 ∨ j = 1 := by simp [Size.bytes] at h; omega
    simp only [State.store, State.byteAt_storeByte w1, State.byteAt_storeByte w]
    rcases hj with rfl | rfl
    · have := (key 0 1 (by omega) (by omega)); simp at this ⊢
    · simp
  | dword =>
    have hj : j = 0 ∨ j = 1 ∨ j = 2 ∨ j = 3 := by simp [Size.bytes] at h; omega
    simp only [State.store, State.byteAt_storeByte w3, State.byteAt_storeByte w2,
      State.byteAt_storeByte w1, State.byteAt_storeByte w]
    rcases hj with rfl | rfl | rfl | rfl <;> simp

/-- Outside the stored bytes nothing changes. -/
theorem State.byteAt_store_other {s : State} (w : Memory.wf s.mem = true) (m : Size) (a x : Word)
    (v : BitVec m.bits) (h : ¬ Within x a m.bytes) : (s.store m a v).byteAt x = s.byteAt x := by
  have w1 := State.wf_storeByte w a (v.extractLsb' 0 8)
  have w2 := State.wf_storeByte w1 (a + 1) (v.extractLsb' 8 8)
  have w3 := State.wf_storeByte w2 (a + 2) (v.extractLsb' 16 8)
  have n : ∀ j, j < m.bytes → x ≠ a + BitVec.ofNat 32 j := fun j hj e => h ⟨j, hj, e⟩
  cases m with
  | byte =>
    have h0 := n 0 (by decide)
    simp only [BitVec.add_zero] at h0
    simp [State.store, State.byteAt_storeByte w, h0]
  | word =>
    have h0 := n 0 (by decide)
    have h1 := n 1 (by decide)
    simp only [BitVec.add_zero] at h0
    simp only [State.store, State.byteAt_storeByte w1, State.byteAt_storeByte w]
    rw [if_neg (by simpa using h1), if_neg h0]
  | dword =>
    have h0 := n 0 (by decide)
    have h1 := n 1 (by decide)
    have h2 := n 2 (by decide)
    have h3 := n 3 (by decide)
    simp only [BitVec.add_zero] at h0
    simp only [State.store, State.byteAt_storeByte w3, State.byteAt_storeByte w2,
      State.byteAt_storeByte w1, State.byteAt_storeByte w]
    rw [if_neg (by simpa using h3), if_neg (by simpa using h2), if_neg (by simpa using h1),
      if_neg h0]

/-- A value is determined by its bytes. -/
theorem State.load_eq_of_bytes (t : State) (m : Size) (a : Word) (v : BitVec m.bits)
    (h : ∀ j < m.bytes, t.byteAt (a + BitVec.ofNat 32 j) = v.extractLsb' (8 * j) 8) :
    t.load m a = v := by
  cases m with
  | byte =>
    have h0 := h 0 (by decide)
    simp only [BitVec.add_zero] at h0
    exact h0.trans (BitVec.extractLsb'_eq_self)
  | word =>
    have h0 := h 0 (by decide)
    have h1 := h 1 (by decide)
    simp only [BitVec.add_zero] at h0
    simp only [State.load]
    rw [show a + 1 = a + BitVec.ofNat 32 1 from rfl, h1, h0]
    exact bytes_word v
  | dword =>
    have h0 := h 0 (by decide)
    have h1 := h 1 (by decide)
    have h2 := h 2 (by decide)
    have h3 := h 3 (by decide)
    simp only [BitVec.add_zero] at h0
    simp only [State.load]
    rw [show a + 1 = a + BitVec.ofNat 32 1 from rfl, show a + 2 = a + BitVec.ofNat 32 2 from rfl,
      show a + 3 = a + BitVec.ofNat 32 3 from rfl, h1, h0, h2, h3]
    exact bytes_dword v

/-! ### Which accesses are admitted -/

theorem require_ok {c : Bool} {q : Refusal} {u : Unit} : require c q = .ok u ↔ c = true := by
  unfold require refuse
  split <;> simp_all

theorem accessByte_read_ok {s : State} {a : Word} :
    accessByte .read s a = .ok () ↔
      kindIn s.memMap a.toNat = some .ram ∨ kindIn s.memMap a.toNat = some .code := by
  unfold accessByte refuse require
  split <;> simp_all [Access.fetches]

theorem accessByte_write_ok {s : State} {a : Word} :
    accessByte .write s a = .ok () ↔ kindIn s.memMap a.toNat = some .ram := by
  unfold accessByte refuse require
  split <;> simp_all [refuse, Access.fetches]

theorem accessByte_fetches_ok {acc : Access} (f : acc.fetches = true) {s : State} {a : Word} :
    accessByte acc s a = .ok () ↔
      (kindIn s.memMap a.toNat = some .ram ∧ a.toNat ∉ s.stored) ∨
      kindIn s.memMap a.toNat = some .code := by
  have w : acc ≠ .write := by rintro rfl; cases f
  unfold accessByte refuse require
  split <;> simp_all [refuse]

/-- An unmapped byte is the bus fault, of the access's kind. -/
theorem accessByte_unmapped {acc : Access} {s : State} {a : Word}
    (h : kindIn s.memMap a.toNat = none) :
    accessByte acc s a = .error (.fault (.busFault a acc.faultKind)) := by
  rw [accessByte, h]

theorem add_ofNat_succ (a : Word) (j : Nat) :
    a + 1 + BitVec.ofNat 32 j = a + BitVec.ofNat 32 (j + 1) := by
  rw [BitVec.ofNat_add, BitVec.add_comm (BitVec.ofNat 32 j), ← BitVec.add_assoc]
  rfl

/-- An access is admitted exactly when each of its bytes is. -/
theorem accessAll_ok {acc : Access} {s : State} {k : Nat} : ∀ {a : Word},
    accessAll acc s a k = .ok () ↔ ∀ j < k, accessByte acc s (a + BitVec.ofNat 32 j) = .ok () := by
  induction k with
  | zero => intro a; simp [accessAll]
  | succ k ih =>
    intro a
    constructor
    · intro h j hj
      unfold accessAll at h
      cases e : accessByte acc s a with
      | error x => simp [e, bind, Except.bind] at h
      | ok u =>
        simp only [e, bind, Except.bind] at h
        cases j with
        | zero => simpa using e
        | succ j => rw [← add_ofNat_succ]; exact (ih.mp h) j (by omega)
    · intro h
      unfold accessAll
      have h0 := h 0 (by omega)
      simp only [BitVec.add_zero] at h0
      rw [h0]
      exact ih.mpr fun j hj => by rw [add_ofNat_succ]; exact h (j + 1) (by omega)

theorem accessAll_read_ok {s : State} {a : Word} {k : Nat} :
    accessAll .read s a k = .ok () ↔ Readable s a k := by
  simp only [accessAll_ok, accessByte_read_ok]

theorem accessAll_write_ok {s : State} {a : Word} {k : Nat} :
    accessAll .write s a k = .ok () ↔ Writable s a k := by
  simp only [accessAll_ok, accessByte_write_ok]

theorem accessAll_fetches_ok {acc : Access} (f : acc.fetches = true) {s : State} {a : Word}
    {k : Nat} : accessAll acc s a k = .ok () ↔ Fetchable s a k := by
  simp only [accessAll_ok, accessByte_fetches_ok f]

/-- The first byte that is not admitted decides how an access stops. -/
theorem accessAll_error {acc : Access} {s : State} {e : Stop} {k : Nat} : ∀ {a : Word} {j : Nat},
    j < k → (∀ i < j, accessByte acc s (a + BitVec.ofNat 32 i) = .ok ()) →
    accessByte acc s (a + BitVec.ofNat 32 j) = .error e → accessAll acc s a k = .error e := by
  induction k with
  | zero => intro a j h; omega
  | succ k ih =>
    intro a j hj h he
    unfold accessAll
    cases j with
    | zero => simp only [BitVec.add_zero] at he; rw [he]; rfl
    | succ j =>
      have h0 := h 0 (by omega)
      simp only [BitVec.add_zero] at h0
      rw [h0]
      exact ih (j := j) (by omega)
        (fun i hi => by rw [add_ofNat_succ]; exact h (i + 1) (by omega))
        (by rw [add_ofNat_succ]; exact he)

/-- An access to the instruction stream that meets a stored byte first is refused. -/
theorem accessAll_fetches_stored {acc : Access} (f : acc.fetches = true) {s : State} {a : Word}
    {k : Nat} (h : FetchMeetsStored s a k) :
    accessAll acc s a k = .error (.refused .fetchOfStored) := by
  obtain ⟨j, hj, before, hr, hs⟩ := h
  refine accessAll_error hj (fun i hi => (accessByte_fetches_ok f).mpr (before i hi)) ?_
  rw [accessByte, hr]
  simp only [List.contains_iff_mem.mpr hs, f]
  rfl

/-- What a computation that begins with another answers. -/
theorem bind_ok {α β : Type} {x : Res α} {f : α → Res β} {b : β} :
    (x >>= f) = .ok b ↔ ∃ a, x = .ok a ∧ f a = .ok b := by
  cases x <;> simp [bind, Except.bind]

theorem readMem_ok {m : Size} {s : State} {a : Word} {v : BitVec m.bits} :
    readMem m s a = .ok v ↔ Readable s a m.bytes ∧ v = s.load m a := by
  rw [readMem, bind_ok]
  constructor
  · rintro ⟨_, h, e⟩
    exact ⟨accessAll_read_ok.mp h, (Except.ok.inj e).symm⟩
  · rintro ⟨h, rfl⟩
    exact ⟨(), accessAll_read_ok.mpr h, rfl⟩

theorem writeMem_ok {m : Size} {s t : State} {a : Word} {v : BitVec m.bits} :
    writeMem m s a v = .ok t ↔ Writable s a m.bytes ∧ t = (s.store m a v).redrawStatus := by
  rw [writeMem, bind_ok]
  constructor
  · rintro ⟨_, h, e⟩
    exact ⟨accessAll_write_ok.mp h, (Except.ok.inj e).symm⟩
  · rintro ⟨h, rfl⟩
    exact ⟨(), accessAll_write_ok.mpr h, rfl⟩

theorem readStream_ok {m : Size} {s : State} {npc : Word} {r : BitVec m.bits × Word} :
    readStream m s npc = .ok r ↔ Fetchable s npc m.bytes ∧
      r = (s.load m npc, npc + BitVec.ofNat 32 (max m.bytes 2)) := by
  rw [readStream, bind_ok]
  constructor
  · rintro ⟨_, h, e⟩
    exact ⟨(accessAll_fetches_ok rfl).mp h, (Except.ok.inj e).symm⟩
  · rintro ⟨h, rfl⟩
    exact ⟨(), (accessAll_fetches_ok rfl).mpr h, rfl⟩

/-- An operand in the instruction stream that meets a stored byte is refused. -/
theorem readStream_stored {m : Size} {s : State} {npc : Word}
    (h : FetchMeetsStored s npc m.bytes) :
    readStream m s npc = .error (.refused .fetchOfStored) := by
  rw [readStream, accessAll_fetches_stored rfl h]; rfl

/-- Which addresses a state may access depends on its map, and for fetches on what was stored. -/
theorem Writable_congr {s t : State} (h : t.memMap = s.memMap) (a : Word) (k : Nat) :
    Writable t a k ↔ Writable s a k := by simp [Writable, h]

theorem Readable_congr {s t : State} (h : t.memMap = s.memMap) (a : Word) (k : Nat) :
    Readable t a k ↔ Readable s a k := by simp [Readable, h]

theorem Readable_of_Writable {s : State} {a : Word} {k : Nat} (h : Writable s a k) :
    Readable s a k := fun j hj => .inl (h j hj)

/-! ### Stores, whole -/

/-- Every byte that a store writes is recorded as stored. -/
theorem State.stored_store (s : State) (m : Size) (a b : Word) (v : BitVec m.bits)
    (h : Within b a m.bytes) : b.toNat ∈ (s.store m a v).stored := by
  obtain ⟨j, hj, rfl⟩ := h
  cases m with
  | byte =>
    have : j = 0 := by simpa [Size.bytes] using hj
    subst this
    simp [State.store, State.stored_storeByte]
  | word =>
    have : j = 0 ∨ j = 1 := by simp [Size.bytes] at hj; omega
    rcases this with rfl | rfl <;> simp [State.store, State.stored_storeByte]
  | dword =>
    have : j = 0 ∨ j = 1 ∨ j = 2 ∨ j = 3 := by simp [Size.bytes] at hj; omega
    rcases this with rfl | rfl | rfl | rfl <;> simp [State.store, State.stored_storeByte]

theorem State.wf_redrawStatus {s : State} (h : StateInv s) : StateInv s.redrawStatus := h

/-- A store, read back. -/
theorem State.load_store {s : State} (w : Memory.wf s.mem = true) (m : Size) (a : Word)
    (v : BitVec m.bits) : (s.store m a v).load m a = v :=
  State.load_eq_of_bytes _ m a v fun j hj => State.byteAt_store w m a v j hj

/-- A store leaves a value that lies wholly outside it. -/
theorem State.load_store_other {s : State} (w : Memory.wf s.mem = true) (m k : Size) (a b : Word)
    (v : BitVec m.bits) (h : ∀ j < k.bytes, ¬ Within (b + BitVec.ofNat 32 j) a m.bytes) :
    (s.store m a v).load k b = s.load k b := by
  have e : ∀ j < k.bytes, (s.store m a v).byteAt (b + BitVec.ofNat 32 j)
      = s.byteAt (b + BitVec.ofNat 32 j) := fun j hj => State.byteAt_store_other w m a _ v (h j hj)
  cases k with
  | byte =>
    have e0 := e 0 (by decide)
    simpa [State.load] using e0
  | word =>
    have e0 := e 0 (by decide)
    have e1 := e 1 (by decide)
    simp only [BitVec.add_zero] at e0
    simp only [State.load]
    rw [show b + 1 = b + BitVec.ofNat 32 1 from rfl, e0, e1]
  | dword =>
    have e0 := e 0 (by decide)
    have e1 := e 1 (by decide)
    have e2 := e 2 (by decide)
    have e3 := e 3 (by decide)
    simp only [BitVec.add_zero] at e0
    simp only [State.load]
    rw [show b + 1 = b + BitVec.ofNat 32 1 from rfl, show b + 2 = b + BitVec.ofNat 32 2 from rfl,
      show b + 3 = b + BitVec.ofNat 32 3 from rfl, e0, e1, e2, e3]

end Sys2Proof.Machine
end

