-- ==== Sys2Proof/Laws/Forms.lean ====
section
/-! SUPPORT. What an operand, a form and a meaning can answer: each lemma says once everything the
operation does when it completes. -/

namespace Sys2Proof.Machine

/-! ### Outcomes and register numbers -/

theorem outcome_next {r : Res State} {t : State} : outcome r = .next t ↔ r = .ok t := by
  unfold outcome
  split <;> simp_all

theorem outcome_ok (t : State) : outcome (.ok t) = .next t := rfl

theorem outcome_refuse (q : Refusal) : outcome (refuse q) = .refused q := rfl

theorem regOf_toNat (g : GReg) : (regOf g).toNat = g.val := by
  have := g.isLt
  simp [regOf]
  omega

theorem regOf_inj {g h : GReg} : regOf g = regOf h ↔ g = h := by
  constructor
  · intro e
    have := congrArg BitVec.toNat e
    rw [regOf_toNat, regOf_toNat] at this
    exact Fin.ext this
  · rintro rfl; rfl

theorem regOf_ne_pc (g : GReg) : regOf g ≠ pcReg := by
  intro e
  have := congrArg BitVec.toNat e
  rw [regOf_toNat] at this
  have := g.isLt
  simp [pcReg] at *
  omega

@[simp] theorem gpr_regOf (g : GReg) : gpr (regOf g) = .ok g := by
  unfold gpr
  rw [dif_pos (by rw [regOf_toNat]; exact g.isLt)]
  exact congrArg Except.ok (Fin.ext (regOf_toNat g))

@[simp] theorem gpr_pcReg : gpr pcReg = refuse .pcOperand := rfl

/-- A register field names a general register, or is 15. -/
theorem reg_cases (r : Reg) : (∃ g, r = regOf g) ∨ r = pcReg := by
  by_cases h : r.toNat < 15
  · left
    refine ⟨⟨r.toNat, h⟩, BitVec.eq_of_toNat_eq ?_⟩
    rw [regOf_toNat]
  · right
    apply BitVec.eq_of_toNat_eq
    have := r.isLt
    simp [pcReg]
    omega

theorem gpr_ok {r : Reg} {g : GReg} : gpr r = .ok g ↔ r = regOf g := by
  constructor
  · intro h
    rcases reg_cases r with ⟨k, rfl⟩ | rfl
    · rw [gpr_regOf] at h
      exact congrArg regOf (Except.ok.inj h)
    · cases h
  · rintro rfl; simp

/-! ### The register side effect of an operand -/

theorem Place.commit_none (ea : Word) (s : State) : (Place.mk ea none).commit s = s := rfl

theorem Place.commit_some (ea : Word) (g : GReg) (v : Word) (s : State) :
    (Place.mk ea (some (g, v))).commit s = s.setReg g v := rfl

/-- Only the registers are touched. -/
theorem Place.commit_eq (p : Place) (s : State) :
    p.commit s = { s with regs := (p.commit s).regs } := by
  unfold Place.commit
  split <;> rfl

@[simp] theorem Place.commit_pc (p : Place) (s : State) : (p.commit s).pc = s.pc := by
  rw [Place.commit_eq]
@[simp] theorem Place.commit_npc0 (p : Place) (s : State) : (p.commit s).npc0 = s.npc0 := by
  rw [Place.commit_eq]; rfl
@[simp] theorem Place.commit_flags (p : Place) (s : State) : (p.commit s).flags = s.flags := by
  rw [Place.commit_eq]
@[simp] theorem Place.commit_mof (p : Place) (s : State) : (p.commit s).mof = s.mof := by
  rw [Place.commit_eq]
@[simp] theorem Place.commit_ibr (p : Place) (s : State) : (p.commit s).ibr = s.ibr := by
  rw [Place.commit_eq]
@[simp] theorem Place.commit_irp (p : Place) (s : State) : (p.commit s).irp = s.irp := by
  rw [Place.commit_eq]
@[simp] theorem Place.commit_srp (p : Place) (s : State) : (p.commit s).srp = s.srp := by
  rw [Place.commit_eq]
@[simp] theorem Place.commit_bar (p : Place) (s : State) : (p.commit s).bar = s.bar := by
  rw [Place.commit_eq]
@[simp] theorem Place.commit_brp (p : Place) (s : State) : (p.commit s).brp = s.brp := by
  rw [Place.commit_eq]
@[simp] theorem Place.commit_usp (p : Place) (s : State) : (p.commit s).usp = s.usp := by
  rw [Place.commit_eq]
@[simp] theorem Place.commit_special (p : Place) (s : State) (q : SpecialReg) :
    (p.commit s).special q = s.special q := by
  rw [Place.commit_eq]
  cases q <;> rfl
@[simp] theorem Place.commit_mode (p : Place) (s : State) : (p.commit s).mode = s.mode := by
  rw [Place.commit_eq]
@[simp] theorem Place.commit_pfx (p : Place) (s : State) : (p.commit s).pfx = s.pfx := by
  rw [Place.commit_eq]
@[simp] theorem Place.commit_delay (p : Place) (s : State) : (p.commit s).delay = s.delay := by
  rw [Place.commit_eq]
@[simp] theorem Place.commit_onceMore (p : Place) (s : State) :
    (p.commit s).onceMore = s.onceMore := by rw [Place.commit_eq]
@[simp] theorem Place.commit_resumeAt (p : Place) (s : State) :
    (p.commit s).resumeAt = s.resumeAt := by rw [Place.commit_eq]
@[simp] theorem Place.commit_mem (p : Place) (s : State) : (p.commit s).mem = s.mem := by
  rw [Place.commit_eq]
@[simp] theorem Place.commit_bfsrDraw (p : Place) (s : State) :
    (p.commit s).bfsrDraw = s.bfsrDraw := by rw [Place.commit_eq]
@[simp] theorem Place.commit_stored (p : Place) (s : State) : (p.commit s).stored = s.stored := by
  rw [Place.commit_eq]
@[simp] theorem Place.commit_memMap (p : Place) (s : State) : (p.commit s).memMap = s.memMap := by
  rw [Place.commit_eq]

/-- A register after the side effect. -/
theorem Place.commit_reg (p : Place) (s : State) (g : GReg) :
    (p.commit s).reg g = regAfter s p.update g := by
  unfold Place.commit regAfter
  split <;> simp_all [State.setReg_reg]

theorem Place.commit_reg_of {upd : Option (GReg × Word)} {g : GReg} (ea : Word) (s : State)
    (h : NotUpdated upd g) : ((Place.mk ea upd).commit s).reg g = s.reg g := by
  rw [Place.commit_reg]
  unfold regAfter
  split
  · rename_i k v e
    by_cases hk : k = g
    · subst hk; exact absurd e (h v)
    · simp [hk]
  · rfl

/-! ### Operands -/

theorem pendingPrefix_ok {s : State} {p : Prefix} : pendingPrefix s = .ok p ↔ s.pfx = some p := by
  unfold pendingPrefix refuse
  split <;> simp_all

theorem checkOperand1_ok {rule : Operand1Rule} {r : Reg} {u : Unit} :
    checkOperand1 rule r = .ok u ↔ rule = .ignored ∨ rule = .mustBe r := by
  unfold checkOperand1
  split
  · simp
  · rename_i q
    rw [require_ok, beq_iff_eq]
    simp only [reduceCtorEq, false_or, Operand1Rule.mustBe.injEq]
    exact eq_comm

/-- Every way in which a memory operand has an address. -/
theorem place_ok {rule : Operand1Rule} {amount : Word} {s : State} {o : MemOperand} {p : Place} :
    place rule amount s o = .ok p ↔
      (∃ g, o = .simple (.indirect (regOf g)) ∧ p = ⟨s.reg g, none⟩) ∨
      (∃ g, o = .simple (.autoinc (regOf g)) ∧ p = ⟨s.reg g, some (g, s.reg g + amount)⟩) ∨
      (∃ op1 q, o = .complex op1 ∧ s.pfx = some q ∧ (rule = .ignored ∨ rule = .mustBe op1) ∧
        p = ⟨q.ea, none⟩) ∨
      (∃ g q, o = .assign (regOf g) ∧ s.pfx = some q ∧ q.assignOk = true ∧
        p = ⟨q.ea, some (g, q.ea)⟩) := by
  rcases o with (r | r | _) | r | r
  · simp only [place, bind_ok, gpr_ok]
    constructor
    · rintro ⟨g, rfl, e⟩; exact .inl ⟨g, rfl, (Except.ok.inj e).symm⟩
    · simp only [MemOperand.simple.injEq, SimpleMem.indirect.injEq, reduceCtorEq, false_and,
        exists_false, or_false]
      rintro ⟨g, rfl, rfl⟩; exact ⟨g, rfl, rfl⟩
  · simp only [place, bind_ok, gpr_ok]
    constructor
    · rintro ⟨g, rfl, e⟩; exact .inr (.inl ⟨g, rfl, (Except.ok.inj e).symm⟩)
    · simp only [MemOperand.simple.injEq, SimpleMem.autoinc.injEq, reduceCtorEq, false_and,
        exists_false, or_false, false_or]
      rintro ⟨g, rfl, rfl⟩; exact ⟨g, rfl, rfl⟩
  · simp [place, refuse]
  · simp only [place, bind_ok, pendingPrefix_ok, checkOperand1_ok]
    constructor
    · rintro ⟨q, hq, _, hr, e⟩
      exact .inr (.inr (.inl ⟨r, q, rfl, hq, hr, (Except.ok.inj e).symm⟩))
    · simp only [MemOperand.complex.injEq, reduceCtorEq, false_and,
        exists_false, or_false, false_or]
      rintro ⟨_, q, rfl, hq, hr, rfl⟩
      exact ⟨q, hq, (), hr, rfl⟩
  · simp only [place, bind_ok, pendingPrefix_ok, gpr_ok, require_ok]
    constructor
    · rintro ⟨q, hq, g, rfl, _, hr, e⟩
      exact .inr (.inr (.inr ⟨g, q, rfl, hq, hr, (Except.ok.inj e).symm⟩))
    · simp only [MemOperand.assign.injEq, reduceCtorEq, false_and, exists_false, false_or]
      rintro ⟨g, q, rfl, hq, hr, rfl⟩
      exact ⟨q, hq, g, rfl, (), hr, rfl⟩

/-- The register that a place updates is the operand's. -/
theorem place_updates {rule : Operand1Rule} {amount : Word} {s : State} {o : MemOperand} {ea : Word}
    {upd : Option (GReg × Word)} (h : place rule amount s o = .ok ⟨ea, upd⟩) :
    MemOperand.updates o = upd.map (fun u => regOf u.1) := by
  rcases place_ok.mp h with ⟨g, rfl, e⟩ | ⟨g, rfl, e⟩ | ⟨_, q, rfl, _, _, e⟩ | ⟨g, q, rfl, _, _, e⟩
    <;> cases e <;> rfl

theorem noHazard_ok {o : MemOperand} {r : Reg} {u : Unit} :
    noHazard o r = .ok u ↔ MemOperand.updates o ≠ some r := by
  rw [noHazard, require_ok]
  simp

/-- No hazard: the operand does not update the register. -/
theorem noHazard_iff {rule : Operand1Rule} {amount : Word} {s : State} {o : MemOperand} {ea : Word}
    {upd : Option (GReg × Word)} {g : GReg} {u : Unit}
    (h : place rule amount s o = .ok ⟨ea, upd⟩) :
    noHazard o (regOf g) = .ok u ↔ NotUpdated upd g := by
  rw [noHazard_ok, place_updates h]
  unfold NotUpdated
  cases upd with
  | none => simp
  | some k =>
    obtain ⟨k, w⟩ := k
    simp [regOf_inj]

theorem notImmediate_false {o : MemOperand} : notImmediate o = false ↔ o = .simple .immediate := by
  unfold notImmediate
  split <;> simp_all

/-- Everything a source operand can be. -/
theorem readSource_ok {m : Size} {rule : Operand1Rule} {o : MemOperand} {s : State}
    {r : Source m.bits} :
    readSource m rule o s s.npc0 = .ok r ↔ ∃ upd,
      SourceReads m rule o s r.value upd r.npc ∧ r.state = (Place.mk 0#32 upd).commit s := by
  obtain ⟨v, t, npc⟩ := r
  unfold readSource SourceReads
  split
  · rename_i hn
    have hi : o ≠ .simple .immediate := by rintro rfl; cases hn
    simp only [bind_ok, readMem_ok, hi, false_and, false_or]
    constructor
    · rintro ⟨⟨ea, upd⟩, hp, w, ⟨hr, rfl⟩, e⟩
      cases e
      exact ⟨upd, ⟨ea, hp, hr, rfl, rfl⟩, rfl⟩
    · rintro ⟨upd, ⟨ea, hp, hr, rfl, rfl⟩, rfl⟩
      exact ⟨⟨ea, upd⟩, hp, _, ⟨hr, rfl⟩, rfl⟩
  · rename_i hn
    have hi := notImmediate_false.mp (by simpa using hn)
    subst hi
    simp only [bind_ok, readStream_ok, true_and]
    constructor
    · rintro ⟨_, ⟨hf, rfl⟩, e⟩
      cases e
      exact ⟨none, .inl ⟨hf, rfl, rfl, rfl⟩, rfl⟩
    · rintro ⟨upd, ⟨hf, rfl, rfl, rfl⟩ | ⟨ea, hp, _⟩, rfl⟩
      · exact ⟨_, ⟨hf, rfl⟩, rfl⟩
      · cases hp

/-- An immediate operand that meets a stored byte is refused. -/
theorem readSource_stored {m : Size} {rule : Operand1Rule} {s : State} {npc : Word}
    (h : FetchMeetsStored s npc m.bytes) :
    readSource m rule (.simple .immediate) s npc = .error (.refused .fetchOfStored) := by
  show (readStream m s npc >>= fun v => Except.ok (Source.mk v.1 s v.2)) = _
  rw [readStream_stored h]; rfl

/-- A source operand that does not update a register passes the same-register check. -/
theorem SourceReads.noHazard {m : Size} {rule : Operand1Rule} {o : MemOperand} {s : State}
    {v : BitVec m.bits} {upd : Option (GReg × Word)} {npc : Word} {g : GReg}
    (h : SourceReads m rule o s v upd npc) :
    noHazard o (regOf g) = .ok () ↔ NotUpdated upd g := by
  rcases h with ⟨rfl, _, _, rfl, _⟩ | ⟨ea, hp, _⟩
  · simp [noHazard_ok, MemOperand.updates, NotUpdated]
  · exact noHazard_iff hp

/-- Everything a store to a memory operand can do. -/
theorem writeDest_ok {m : Size} {rule : Operand1Rule} {o : MemOperand} {s t : State}
    {v : BitVec m.bits} :
    writeDest m rule o v s = .ok t ↔ ∃ ea upd, place rule (Size.amount m) s o = .ok ⟨ea, upd⟩ ∧
      Writable s ea m.bytes ∧ t = (Place.mk ea upd).commit (s.store m ea v).redrawStatus := by
  simp only [writeDest, bind_ok, writeMem_ok]
  constructor
  · rintro ⟨⟨ea, upd⟩, hp, _, ⟨hw, rfl⟩, e⟩
    exact ⟨ea, upd, hp, hw, (Except.ok.inj e).symm⟩
  · rintro ⟨ea, upd, hp, hw, rfl⟩
    exact ⟨_, hp, _, ⟨hw, rfl⟩, rfl⟩

/-! ### Forms -/

theorem regForm_ok {m : Size} {op : GReg → GReg → BitVec m.bits → State → State} {rs rd : Reg}
    {s t : State} : regForm m op rs rd s = .ok t ↔
      ∃ d x, rd = regOf d ∧ rs = regOf x ∧ t = (op d d (low m (s.reg x)) s).done := by
  simp only [regForm, bind_ok, gpr_ok, Except.ok.injEq]
  constructor
  · rintro ⟨d, hd, x, hx, rfl⟩; exact ⟨d, x, hd, hx, rfl⟩
  · rintro ⟨d, x, hd, hx, rfl⟩; exact ⟨d, hd, x, hx, rfl⟩

theorem pairForm_ok {op : GReg → GReg → State → State} {rs rd : Reg} {s t : State} :
    pairForm op rs rd s = .ok t ↔ ∃ d x, rd = regOf d ∧ rs = regOf x ∧ t = (op x d s).done := by
  simp only [pairForm, bind_ok, gpr_ok, Except.ok.injEq]
  constructor
  · rintro ⟨d, hd, x, hx, rfl⟩; exact ⟨d, x, hd, hx, rfl⟩
  · rintro ⟨d, x, hd, hx, rfl⟩; exact ⟨d, hd, x, hx, rfl⟩

theorem quickForm_ok {op : GReg → State → State} {rd : Reg} {s t : State} :
    quickForm op rd s = .ok t ↔ ∃ d, rd = regOf d ∧ t = (op d s).done := by
  simp only [quickForm, bind_ok, gpr_ok, Except.ok.injEq, eq_comm (b := t)]

theorem memForm_ok {m : Size} {op : GReg → GReg → BitVec m.bits → State → State} {o : MemOperand}
    {rd : Reg} {s t : State} : memForm m op o rd s = .ok t ↔
      ∃ d v upd npc, rd = regOf d ∧ SourceReads m (.mustBe rd) o s v upd npc ∧ NotUpdated upd d ∧
        t = finish (op d d v ((Place.mk 0#32 upd).commit s)) { npc := npc } := by
  simp only [memForm, bind_ok, gpr_ok, readSource_ok, Except.ok.injEq]
  constructor
  · rintro ⟨d, rfl, _, hh, ⟨v, u, npc⟩, ⟨upd, hs, rfl⟩, rfl⟩
    exact ⟨d, v, upd, npc, rfl, hs, hs.noHazard.mp hh, rfl⟩
  · rintro ⟨d, v, upd, npc, rfl, hs, hn, rfl⟩
    exact ⟨d, rfl, (), hs.noHazard.mpr hn, ⟨v, _, npc⟩, ⟨upd, hs, rfl⟩, rfl⟩

theorem testForm_ok {m : Size} {op : BitVec m.bits → State → State} {o : MemOperand} {s t : State} :
    testForm m op o s = .ok t ↔ ∃ v upd npc, SourceReads m .ignored o s v upd npc ∧
      t = finish (op v ((Place.mk 0#32 upd).commit s)) { npc := npc } := by
  simp only [testForm, bind_ok, readSource_ok, Except.ok.injEq]
  constructor
  · rintro ⟨⟨v, u, npc⟩, ⟨upd, hs, rfl⟩, rfl⟩; exact ⟨v, upd, npc, hs, rfl⟩
  · rintro ⟨v, upd, npc, hs, rfl⟩; exact ⟨⟨v, _, npc⟩, ⟨upd, hs, rfl⟩, rfl⟩

theorem threeForm_ok {m : Size} {op : GReg → GReg → BitVec m.bits → State → State} {rn rd : Reg}
    {s t : State} : threeForm m op rn rd s = .ok t ↔
      ∃ d n p, rd = regOf d ∧ rn = regOf n ∧ s.pfx = some p ∧ Readable s p.ea m.bytes ∧
        t = (op d n (s.load m p.ea) s).done := by
  simp only [threeForm, bind_ok, gpr_ok, pendingPrefix_ok, readMem_ok, Except.ok.injEq]
  constructor
  · rintro ⟨d, hd, n, hn, p, hp, _, ⟨hr, rfl⟩, rfl⟩; exact ⟨d, n, p, hd, hn, hp, hr, rfl⟩
  · rintro ⟨d, n, p, hd, hn, hp, hr, rfl⟩; exact ⟨d, hd, n, hn, p, hp, _, ⟨hr, rfl⟩, rfl⟩

theorem storeForm_ok {m : Size} {rs : Reg} {o : MemOperand} {s t : State} :
    storeForm m rs o s = .ok t ↔ ∃ x ea upd, rs = regOf x ∧
      place .ignored (Size.amount m) s o = .ok ⟨ea, upd⟩ ∧ NotUpdated upd x ∧
      Writable s ea m.bytes ∧
      t = ((Place.mk ea upd).commit (s.store m ea (low m (s.reg x))).redrawStatus).done := by
  simp only [storeForm, bind_ok, gpr_ok, writeDest_ok, Except.ok.injEq]
  constructor
  · rintro ⟨x, rfl, _, hh, _, ⟨ea, upd, hp, hw, rfl⟩, rfl⟩
    exact ⟨x, ea, upd, rfl, hp, (noHazard_iff hp).mp hh, hw, rfl⟩
  · rintro ⟨x, ea, upd, rfl, hp, hn, hw, rfl⟩
    exact ⟨x, rfl, (), (noHazard_iff hp).mpr hn, _, ⟨ea, upd, hp, hw, rfl⟩, rfl⟩

theorem toSpecialForm_ok {o : MemOperand} {pd : SpecialReg} {s t : State} :
    toSpecialForm o pd s = .ok t ↔ ∃ m v upd npc, specialSize pd = .ok m ∧
      SourceReads m .ignored o s v upd npc ∧
      t = finish (((Place.mk 0#32 upd).commit s).setSpecial pd (v.setWidth 32))
        { npc := npc, inhibit := true } := by
  simp only [toSpecialForm, bind_ok, readSource_ok, Except.ok.injEq]
  constructor
  · rintro ⟨m, hm, ⟨v, u, npc⟩, ⟨upd, hs, rfl⟩, rfl⟩; exact ⟨m, v, upd, npc, hm, hs, rfl⟩
  · rintro ⟨m, v, upd, npc, hm, hs, rfl⟩; exact ⟨m, hm, ⟨v, _, npc⟩, ⟨upd, hs, rfl⟩, rfl⟩

theorem fromSpecialForm_ok {o : MemOperand} {ps : SpecialReg} {s t : State} :
    fromSpecialForm ps o s = .ok t ↔ ∃ m ea upd, specialSize ps = .ok m ∧
      place .ignored (Size.amount m) s o = .ok ⟨ea, upd⟩ ∧ Writable s ea m.bytes ∧
      t = ((Place.mk ea upd).commit (s.store m ea (low m (s.special ps))).redrawStatus).doneInhibit
      := by
  simp only [fromSpecialForm, bind_ok, writeDest_ok, Except.ok.injEq]
  constructor
  · rintro ⟨m, hm, _, ⟨ea, upd, hp, hw, rfl⟩, rfl⟩; exact ⟨m, ea, upd, hm, hp, hw, rfl⟩
  · rintro ⟨m, ea, upd, hm, hp, hw, rfl⟩; exact ⟨m, hm, _, ⟨ea, upd, hp, hw, rfl⟩, rfl⟩

theorem toRegisterOrPc_ok {m : Size} {v : Word} {check : Bool} {rd : Reg} {s t : State} :
    toRegisterOrPc m v check rd s = .ok t ↔
      (rd = pcReg ∧ m = .dword ∧ t = delayedJump v check s) ∨
      (∃ d, rd = regOf d ∧ t = (s.setLow m d (low m v)).doneInhibit) := by
  unfold toRegisterOrPc
  split
  · rename_i h
    subst h
    simp only [bind_ok, require_ok, Except.ok.injEq, (regOf_ne_pc _).symm, false_and, exists_false,
      or_false, true_and, beq_iff_eq, eq_comm (b := t)]
    constructor
    · rintro ⟨_, hm, rfl⟩; exact ⟨hm, rfl⟩
    · rintro ⟨hm, rfl⟩; exact ⟨(), hm, rfl⟩
  · rename_i h
    simp only [bind_ok, gpr_ok, Except.ok.injEq, h, false_and, false_or, eq_comm (b := t)]

theorem jumpRegForm_ok {link : Word → State → State} {rs : Reg} {s t : State} :
    jumpRegForm link rs s = .ok t ↔ ∃ x, rs = regOf x ∧ t = jumpTo link s.npc0 (s.reg x) s := by
  simp only [jumpRegForm, bind_ok, gpr_ok, Except.ok.injEq, eq_comm (b := t)]

theorem jumpMemForm_ok {link : Word → State → State} {o : MemOperand} {s t : State} :
    jumpMemForm link o s = .ok t ↔ ∃ v upd npc, SourceReads .dword .ignored o s v upd npc ∧
      t = jumpTo link npc v ((Place.mk 0#32 upd).commit s) := by
  simp only [jumpMemForm, bind_ok, readSource_ok (m := .dword), Except.ok.injEq]
  constructor
  · rintro ⟨⟨v, u, npc⟩, ⟨upd, hs, rfl⟩, rfl⟩; exact ⟨v, upd, npc, hs, rfl⟩
  · rintro ⟨v, upd, npc, hs, rfl⟩; exact ⟨⟨v, _, npc⟩, ⟨upd, hs, rfl⟩, rfl⟩

end Sys2Proof.Machine
end

