-- ==== Sys2Proof/Laws/Values.lean ====
section
/-! SUPPORT. Sums, differences, and sized values: the computations of the meanings beside the words of
00_scope.md R8. -/

namespace Sys2Proof.Machine

/-! ### Sums and differences -/

theorem addSized_value {w : Nat} (a b : BitVec w) (cin : Bool) :
    (addSized a b cin).value = sumOf a b cin := by
  apply BitVec.eq_of_toNat_eq
  simp [addSized, sumOf]

theorem subSized_value {w : Nat} (a b : BitVec w) (bin : Bool) :
    (subSized a b bin).value = diffOf a b bin := rfl

theorem msb_toNat {w : Nat} (x : BitVec w) : x.msb = decide (2 ^ (w - 1) ≤ x.toNat) := by
  rw [BitVec.msb_eq_decide]

/-- The V flag of the add pattern: the exact sum has no signed reading. -/
theorem addSized_overflow (m : Size) (a b : BitVec m.bits) (cin : Bool) :
    (addSized a b cin).overflow = signedOverflow m.bits (a.toInt + b.toInt + cin.toNat) := by
  have ha := a.isLt
  have hb := b.isLt
  have hc : cin.toNat ≤ 1 := Bool.toNat_le cin
  rw [Bool.eq_iff_iff]
  unfold addSized signedOverflow
  simp only [msb_toNat, BitVec.toNat_ofNat, BitVec.toInt_eq_toNat_cond, Bool.and_eq_true,
    Bool.or_eq_true, beq_iff_eq, bne_iff_ne, ne_eq, decide_eq_true_eq, decide_eq_decide]
  generalize cin.toNat = c at *
  cases m <;> simp only [Size.bits] at * <;> split <;> split <;> omega

/-- The V flag of the subtract pattern. -/
theorem subSized_overflow (m : Size) (a b : BitVec m.bits) (bin : Bool) :
    (subSized a b bin).overflow = signedOverflow m.bits (a.toInt - b.toInt - bin.toNat) := by
  have ha := a.isLt
  have hb := b.isLt
  have hc : bin.toNat ≤ 1 := Bool.toNat_le bin
  rw [Bool.eq_iff_iff]
  unfold subSized signedOverflow
  simp only [msb_toNat, BitVec.toNat_ofNat, BitVec.toNat_sub, BitVec.toInt_eq_toNat_cond,
    Bool.and_eq_true, Bool.or_eq_true, bne_iff_ne, ne_eq, decide_eq_true_eq,
    decide_eq_decide]
  generalize bin.toNat = c at *
  cases m <;> simp only [Size.bits] at * <;> split <;> split <;> omega

/-- The flags of an add, X cleared. -/
theorem setArith_add (m : Size) (fl : Flags) (a b : BitVec m.bits) :
    { fl.setArith (addSized a b fl.carryIn) with x := false } = sumFlags fl a b := by
  simp only [Flags.setArith, sumFlags, ccFlags, addSized_value, addSized_overflow, chainIn,
    Flags.carryIn, chainZ]
  have z : ∀ z : Bool, (z && (!fl.x || fl.z)) = if fl.x = true then fl.z && z else z := by
    intro z
    cases fl.x <;> simp [Bool.and_comm]
  rw [z]
  rfl

/-- The flags of a subtract, X cleared. -/
theorem setArith_sub (m : Size) (fl : Flags) (a b : BitVec m.bits) :
    { fl.setArith (subSized a b fl.carryIn) with x := false } = diffFlags fl a b := by
  simp only [Flags.setArith, diffFlags, ccFlags, subSized_value, subSized_overflow, chainIn,
    Flags.carryIn, chainZ]
  have z : ∀ z : Bool, (z && (!fl.x || fl.z)) = if fl.x = true then fl.z && z else z := by
    intro z
    cases fl.x <;> simp [Bool.and_comm]
  rw [z]
  rfl

/-- The flags of a move or logic instruction, X cleared. -/
theorem setLogic_clearX {w : Nat} (fl : Flags) (r : BitVec w) :
    { fl.setLogic r with x := false } = logicFlags fl r := rfl

/-! ### Sized values -/

@[simp] theorem low_dword (v : Word) : low .dword v = v := BitVec.setWidth_eq v

@[simp] theorem merge_dword (old : Word) (v : BitVec Size.dword.bits) : merge .dword old v = v := rfl

theorem setLow_dword (s : State) (d : GReg) (v : Word) : s.setLow .dword d v = s.setReg d v := rfl

/-- A sized value put back where it came from changes nothing. -/
theorem merge_low (m : Size) (v : Word) : merge m v (low m v) = v := by
  cases m with
  | byte =>
    have e : low .byte v = v.extractLsb' 0 8 := by
      apply BitVec.eq_of_toNat_eq; simp [low]
    rw [e]
    refine (BitVec.extractLsb'_append_extractLsb'_eq_extractLsb' (show 8 = 0 + 8 from rfl)).trans ?_
    exact BitVec.extractLsb'_eq_self
  | word =>
    have e : low .word v = v.extractLsb' 0 16 := by
      apply BitVec.eq_of_toNat_eq; simp [low]
    rw [e]
    refine (BitVec.extractLsb'_append_extractLsb'_eq_extractLsb' (show 16 = 0 + 16 from rfl)).trans ?_
    exact BitVec.extractLsb'_eq_self
  | dword => simp

theorem ofInt_toInt {w : Nat} (x : BitVec w) (n : Nat) :
    BitVec.ofInt n x.toInt = x.signExtend n := rfl

theorem ofNat_toNat_setWidth {w : Nat} (x : BitVec w) (n : Nat) :
    BitVec.ofNat n x.toNat = x.setWidth n := BitVec.ofNat_toNat n x

end Sys2Proof.Machine
end

