-- ==== Sys2Proof/Laws/Exec.lean ====
section
/-! SUPPORT. What an instruction that only computes leaves alone, and how an effect on registers and
flags becomes the claim that the instruction runs. -/

namespace Sys2Proof.Machine

/-- `u` differs from `s` at most in the general registers and in N, Z, V and C. -/
structure Local (s u : State) : Prop where
  eq : u = { s with
    regs := u.regs
    flags := { s.flags with n := u.flags.n, z := u.flags.z, v := u.flags.v, c := u.flags.c } }

namespace Local

theorem refl (s : State) : Local s s := ⟨rfl⟩

variable {s u w : State}

theorem pc (h : Local s u) : u.pc = s.pc := by rw [h.eq]
theorem npc0 (h : Local s u) : u.npc0 = s.npc0 := by unfold State.npc0; rw [h.pc]
theorem mof (h : Local s u) : u.mof = s.mof := by rw [h.eq]
theorem ibr (h : Local s u) : u.ibr = s.ibr := by rw [h.eq]
theorem irp (h : Local s u) : u.irp = s.irp := by rw [h.eq]
theorem srp (h : Local s u) : u.srp = s.srp := by rw [h.eq]
theorem bar (h : Local s u) : u.bar = s.bar := by rw [h.eq]
theorem brp (h : Local s u) : u.brp = s.brp := by rw [h.eq]
theorem usp (h : Local s u) : u.usp = s.usp := by rw [h.eq]
theorem mode (h : Local s u) : u.mode = s.mode := by rw [h.eq]
theorem pfx (h : Local s u) : u.pfx = s.pfx := by rw [h.eq]
theorem delay (h : Local s u) : u.delay = s.delay := by rw [h.eq]
theorem onceMore (h : Local s u) : u.onceMore = s.onceMore := by rw [h.eq]
theorem resumeAt (h : Local s u) : u.resumeAt = s.resumeAt := by rw [h.eq]
theorem mem (h : Local s u) : u.mem = s.mem := by rw [h.eq]
theorem bfsrDraw (h : Local s u) : u.bfsrDraw = s.bfsrDraw := by rw [h.eq]
theorem stored (h : Local s u) : u.stored = s.stored := by rw [h.eq]
theorem memMap (h : Local s u) : u.memMap = s.memMap := by rw [h.eq]
theorem flagF (h : Local s u) : u.flags.f = s.flags.f := by rw [h.eq]
theorem flagP (h : Local s u) : u.flags.p = s.flags.p := by rw [h.eq]
theorem flagU (h : Local s u) : u.flags.u = s.flags.u := by rw [h.eq]
theorem flagM (h : Local s u) : u.flags.m = s.flags.m := by rw [h.eq]
theorem flagB (h : Local s u) : u.flags.b = s.flags.b := by rw [h.eq]
theorem flagI (h : Local s u) : u.flags.i = s.flags.i := by rw [h.eq]
theorem flagX (h : Local s u) : u.flags.x = s.flags.x := by rw [h.eq]

theorem trans (h : Local s u) (k : Local u w) : Local s w := by
  constructor
  rw [k.eq, h.eq]

theorem special (h : Local s u) {p : SpecialReg} (hp : p ∈ storedSpecials) :
    u.special p = s.special p := by
  cases p <;> simp [storedSpecials] at hp <;>
    simp [State.special, h.mof, h.ibr, h.irp, h.srp, h.bar, h.brp, h.usp]

end Local

theorem Place.commit_local (p : Place) (s : State) : Local s (p.commit s) :=
  ⟨by rw [Place.commit_eq]⟩

/-- `u` differs from `s` at most in the general registers, memory, and what a store records. -/
structure Storing (s u : State) : Prop where
  eq : u = { s with
    regs := u.regs
    mem := u.mem
    stored := u.stored
    bfsrDraw := u.bfsrDraw }

namespace Storing

variable {s u w : State}

theorem pc (h : Storing s u) : u.pc = s.pc := by rw [h.eq]
theorem mof (h : Storing s u) : u.mof = s.mof := by rw [h.eq]
theorem ibr (h : Storing s u) : u.ibr = s.ibr := by rw [h.eq]
theorem irp (h : Storing s u) : u.irp = s.irp := by rw [h.eq]
theorem srp (h : Storing s u) : u.srp = s.srp := by rw [h.eq]
theorem bar (h : Storing s u) : u.bar = s.bar := by rw [h.eq]
theorem brp (h : Storing s u) : u.brp = s.brp := by rw [h.eq]
theorem usp (h : Storing s u) : u.usp = s.usp := by rw [h.eq]
theorem mode (h : Storing s u) : u.mode = s.mode := by rw [h.eq]
theorem pfx (h : Storing s u) : u.pfx = s.pfx := by rw [h.eq]
theorem delay (h : Storing s u) : u.delay = s.delay := by rw [h.eq]
theorem onceMore (h : Storing s u) : u.onceMore = s.onceMore := by rw [h.eq]
theorem resumeAt (h : Storing s u) : u.resumeAt = s.resumeAt := by rw [h.eq]
theorem memMap (h : Storing s u) : u.memMap = s.memMap := by rw [h.eq]
theorem flags (h : Storing s u) : u.flags = s.flags := by rw [h.eq]
theorem npc0 (h : Storing s u) : u.npc0 = s.npc0 := by unfold State.npc0; rw [h.pc]

theorem trans (h : Storing s u) (k : Storing u w) : Storing s w := by
  constructor
  rw [k.eq, h.eq]

theorem special (h : Storing s u) (p : SpecialReg) : u.special p = s.special p := by
  cases p <;> simp [State.special, h.flags, h.mof, h.ibr, h.irp, h.srp, h.bar, h.brp, h.usp]

end Storing

theorem State.redrawStatus_storing (s : State) : Storing s s.redrawStatus := ⟨rfl⟩

theorem State.store_storing (s : State) (m : Size) (a : Word) (v : BitVec m.bits) :
    Storing s (s.store m a v) := by
  have b : ∀ (s : State) (a : Word) (b : Byte), Storing s (s.storeByte a b) := fun _ _ _ => ⟨rfl⟩
  cases m
  · exact b _ _ _
  · exact (b _ _ _).trans (b _ _ _)
  · exact (((b _ _ _).trans (b _ _ _)).trans (b _ _ _)).trans (b _ _ _)

theorem Place.commit_storing (p : Place) (s : State) : Storing s (p.commit s) :=
  ⟨by rw [Place.commit_eq]⟩

/-- A special register with storage, after the end of the cycle. -/
theorem finish_special (u : State) (fl : Flow) {p : SpecialReg} (hp : p ∈ storedSpecials) :
    (finish u fl).special p = u.special p := by
  cases p <;> simp [storedSpecials] at hp <;> simp [State.special]

theorem finish_reg (u : State) (fl : Flow) (g : GReg) : (finish u fl).reg g = u.reg g :=
  State.reg_congr (finish_regs u fl) g

theorem finish_byteAt (u : State) (fl : Flow) (a : Word) : (finish u fl).byteAt a = u.byteAt a :=
  State.byteAt_congr (finish_mem u fl) a

theorem finish_load (u : State) (fl : Flow) (m : Size) (a : Word) :
    (finish u fl).load m a = u.load m a := State.load_congr (finish_mem u fl) m a

theorem checkDue_congr {s u : State} (h : u.delay = s.delay) (k : u.onceMore = s.onceMore) :
    checkDue u = checkDue s := by
  unfold checkDue
  rw [h, k]

/-- The end of an instruction that does not jump. -/
theorem ends_finish {s u : State} {npc : Word} {inh : Bool} (hd : u.delay = s.delay)
    (ho : u.onceMore = s.onceMore) (hm : u.mode = s.mode) (x : Bool) :
    Ends s (finish u { npc := npc, inhibit := inh, x := x }) npc inh := by
  refine ⟨⟨?_, ?_, ?_, rfl, rfl, rfl⟩, ?_⟩
  · rw [finish_pc, hd]
    unfold pcAfter
    cases s.delay <;> rfl
  · rw [finish_delay, hd]
    cases s.delay <;> rfl
  · rw [finish_pfx]
  · rw [finish_mode, checkDue_congr hd ho, hm, finish_flags]
    rfl

theorem keepsMemory_finish {s u : State} (hm : u.mem = s.mem) (hs : u.stored = s.stored)
    (hb : u.bfsrDraw = s.bfsrDraw) (fl : Flow) : KeepsMemory s (finish u fl) :=
  ⟨fun a => (finish_byteAt u fl a).trans (State.byteAt_congr hm a), by rw [finish_stored, hs],
    by unfold State.bfsr; rw [finish_bfsrDraw, hb]⟩

/-- An instruction that computes locally and does not jump runs to the registers and flags it
computes. -/
theorem runsTo_of {i : Instr} {s u : State} {regs : List (GReg × Word)} {fl : Flags} {npc : Word}
    {inh : Bool} (h : exec i s = .next (finish u { npc := npc, inhibit := inh })) (l : Local s u)
    (hw : ∀ p ∈ regs, u.reg p.1 = p.2)
    (ho : ∀ g, g ∉ regs.map Prod.fst → u.reg g = s.reg g)
    (hf : { u.flags with x := false } = fl) : RunsTo i s regs fl npc inh := by
  refine ⟨_, h, ⟨?_, ?_, ?_, ?_, ?_, ?_⟩, keepsMemory_finish l.mem l.stored l.bfsrDraw _,
    ends_finish l.delay l.onceMore l.mode _⟩
  · intro p hp; rw [finish_reg]; exact hw p hp
  · intro g hg; rw [finish_reg]; exact ho g hg
  · simp
  · intro p hp _; rw [finish_special _ _ hp, l.special hp]
  · rw [finish_flags]; exact hf
  · rw [finish_memMap, l.memMap]

/-- The same for a single written register. -/
theorem runsTo_one {i : Instr} {s u : State} {d : GReg} {r : Word} {fl : Flags} {npc : Word}
    {inh : Bool} (h : exec i s = .next (finish u { npc := npc, inhibit := inh })) (l : Local s u)
    (hr : u.regs = (s.setReg d r).regs) (hf : { u.flags with x := false } = fl) :
    RunsTo i s [(d, r)] fl npc inh := by
  refine runsTo_of h l ?_ ?_ hf
  · intro p hp
    rw [List.mem_singleton.mp hp, State.reg_congr hr]
    simp
  · intro g hg
    rw [State.reg_congr hr]
    exact State.setReg_reg_other s r (by simpa [eq_comm] using hg)

/-- The same where no register is written. -/
theorem runsTo_none {i : Instr} {s u : State} {fl : Flags} {npc : Word} {inh : Bool}
    (h : exec i s = .next (finish u { npc := npc, inhibit := inh })) (l : Local s u)
    (hr : u.regs = s.regs) (hf : { u.flags with x := false } = fl) :
    RunsTo i s [] fl npc inh :=
  runsTo_of h l (by simp) (fun g _ => State.reg_congr hr g) hf

/-- The same where a register and an operand's address register are written. -/
theorem runsTo_update {i : Instr} {s u : State} {d : GReg} {r ea : Word}
    {upd : Option (GReg × Word)} {fl : Flags} {npc : Word}
    {inh : Bool} (h : exec i s = .next (finish u { npc := npc, inhibit := inh })) (l : Local s u)
    (hn : NotUpdated upd d) (hr : u.regs = (((Place.mk ea upd).commit s).setReg d r).regs)
    (hf : { u.flags with x := false } = fl) :
    RunsTo i s ((d, r) :: updateWrites upd) fl npc inh := by
  refine runsTo_of h l ?_ ?_ hf
  · intro p hp
    rw [State.reg_congr hr, State.setReg_reg]
    rcases List.mem_cons.mp hp with rfl | hp
    · simp
    · cases upd with
      | none => simp [updateWrites] at hp
      | some k =>
        obtain ⟨k, v⟩ := k
        have : p = (k, v) := by simpa [updateWrites] using hp
        subst this
        have hne : d ≠ k := by rintro rfl; exact hn v rfl
        simp [hne, Place.commit_reg, regAfter]
  · intro g hg
    have h1 : d ≠ g := by rintro rfl; exact hg (by simp)
    rw [State.reg_congr hr, State.setReg_reg, if_neg h1, Place.commit_reg]
    unfold regAfter
    cases upd with
    | none => rfl
    | some k =>
      have h2 : k.1 ≠ g := by rintro rfl; exact hg (by simp [updateWrites])
      simp [h2]

/-- The writes of an operand's side effect, and that there are no others. -/
theorem Place.commit_writes (upd : Option (GReg × Word)) (ea : Word) (s : State) :
    (∀ p ∈ updateWrites upd, ((Place.mk ea upd).commit s).reg p.1 = p.2) ∧
    ∀ g, g ∉ (updateWrites upd).map Prod.fst →
      ((Place.mk ea upd).commit s).reg g = s.reg g := by
  constructor
  · intro p hp
    rw [Place.commit_reg]
    cases upd with
    | none => simp [updateWrites] at hp
    | some k =>
      have : p = k := by simpa [updateWrites] using hp
      subst this
      simp [regAfter]
  · intro g hg
    rw [Place.commit_reg]
    unfold regAfter
    cases upd with
    | none => rfl
    | some k =>
      have h2 : k.1 ≠ g := by rintro rfl; exact hg (by simp [updateWrites])
      simp [h2]

/-- The same where only an operand's address register is written. -/
theorem runsTo_updateOnly {i : Instr} {s u : State} {ea : Word}
    {upd : Option (GReg × Word)} {fl : Flags} {npc : Word}
    {inh : Bool} (h : exec i s = .next (finish u { npc := npc, inhibit := inh })) (l : Local s u)
    (hr : u.regs = ((Place.mk ea upd).commit s).regs)
    (hf : { u.flags with x := false } = fl) :
    RunsTo i s (updateWrites upd) fl npc inh := by
  have hw := Place.commit_writes upd ea s
  refine runsTo_of h l ?_ ?_ hf
  · intro p hp; rw [State.reg_congr hr]; exact hw.1 p hp
  · intro g hg; rw [State.reg_congr hr]; exact hw.2 g hg

/-- An instruction that stores one value and does not jump. -/
theorem store_completes {i : Instr} {s : State} {m : Size} {ea : Word}
    {upd : Option (GReg × Word)} {v : BitVec m.bits} {inh : Bool} (w : Memory.wf s.mem = true)
    (h : exec i s = .next (finish ((Place.mk ea upd).commit (s.store m ea v).redrawStatus)
      { npc := s.npc0, inhibit := inh })) :
    Completes i s fun t => Effect s t (updateWrites upd) [] (clearX s.flags) ∧
      StoresAt s t m ea v ∧ Ends s t s.npc0 inh := by
  have hw := Place.commit_writes upd ea (s.store m ea v).redrawStatus
  refine ⟨_, h, ⟨?_, ?_, by simp, ?_, ?_, ?_⟩, ⟨?_, ?_⟩, ends_finish ?_ ?_ ?_ _⟩
  · intro p hp; rw [finish_reg]; exact hw.1 p hp
  · intro g hg; rw [finish_reg, hw.2 g hg]; exact State.reg_congr (by simp) g
  · intro q hq _
    rw [finish_special _ _ hq, Place.commit_special]
    cases q <;> simp_all [storedSpecials, State.special]
  · simp [clearX]
  · simp
  · rw [finish_load, State.load_congr (s := s.store m ea v) (by simp)]
    exact State.load_store w _ _ _
  · intro a ha
    rw [finish_byteAt, State.byteAt_congr (s := s.store m ea v) (by simp)]
    exact State.byteAt_store_other w _ _ _ _ ha
  · simp
  · simp
  · simp

/-- An instruction that only writes flags. -/
theorem runsTo_flags {i : Instr} {s : State} {f : Flags} {npc : Word} {inh x : Bool}
    (h : exec i s = .next (finish { s with flags := f } { npc := npc, inhibit := inh, x := x })) :
    RunsTo i s [] { f with x := x } npc inh := by
  refine ⟨_, h, ⟨by simp, ?_, by simp, ?_, ?_, ?_⟩,
    keepsMemory_finish (s := s) (u := { s with flags := f }) rfl rfl rfl _,
    ends_finish (s := s) (u := { s with flags := f }) rfl rfl rfl _⟩
  · intro g _; rw [finish_reg]; rfl
  · intro p hp _
    rw [finish_special _ _ hp]
    cases p <;> simp [storedSpecials] at hp <;> rfl
  · rw [finish_flags]
  · rw [finish_memMap]

/-- An instruction that writes one special register, and perhaps the flags through it. -/
theorem special_completes {i : Instr} {s : State} {pd : SpecialReg} {v npc : Word}
    {upd : Option (GReg × Word)}
    (h : exec i s = .next (finish (((Place.mk 0#32 upd).commit s).setSpecial pd v)
      { npc := npc, inhibit := true })) :
    Completes i s fun t =>
      Effect s t (updateWrites upd) (if pd ∈ storedSpecials then [(pd, v)] else [])
        (if pd = .ccr ∨ pd = .dccr then s.flags.write v else clearX s.flags) ∧
      KeepsMemory s t ∧ Ends s t npc true := by
  have hw := Place.commit_writes upd 0#32 s
  refine ⟨_, h, ⟨?_, ?_, ?_, ?_, ?_, ?_⟩, keepsMemory_finish ?_ ?_ ?_ _, ends_finish ?_ ?_ ?_ _⟩
  · intro p hp; rw [finish_reg, State.reg_congr (State.setSpecial_regs _ _ _)]; exact hw.1 p hp
  · intro g hg; rw [finish_reg, State.reg_congr (State.setSpecial_regs _ _ _)]; exact hw.2 g hg
  · intro p hp
    split at hp
    · rename_i hm
      rw [List.mem_singleton.mp hp, finish_special _ _ hm, State.setSpecial_special _ _ _ _ hm]
      simp
    · simp at hp
  · intro q hq hn
    rw [finish_special _ _ hq, State.setSpecial_special _ _ _ _ hq]
    have : pd ≠ q := by
      rintro rfl; rw [if_pos hq] at hn; simp at hn
    simp [this]
  · rw [finish_flags, State.setSpecial_flags]
    split <;> simp [clearX, Flags.write]
  all_goals simp

/-! ### MOVEM -/

/-- Loading registers one by one, each from where memory held it at the start. -/
theorem loadRegisters_ok {ea : Word} {r : GReg} {ks : List GReg} : ∀ {s : State},
    (∀ k ∈ ks, Readable s (movemAddress ea r k) 4) →
    ∃ t, loadRegisters ea r ks s = .ok t ∧ Local s t ∧ t.flags = s.flags ∧
      (∀ k ∈ ks, t.reg k = s.load .dword (movemAddress ea r k)) ∧
      ∀ g, g ∉ ks → t.reg g = s.reg g := by
  induction ks with
  | nil => intro s _; exact ⟨s, rfl, .refl s, rfl, by simp, fun _ _ => rfl⟩
  | cons k ks ih =>
    intro s h
    let u := s.setReg k (s.load .dword (movemAddress ea r k))
    obtain ⟨t, ht, hl, hf, hw, ho⟩ := ih (s := u) (fun j hj => h j (List.mem_cons_of_mem _ hj))
    refine ⟨t, ?_, Local.trans ⟨rfl⟩ hl, hf, ?_, ?_⟩
    · rw [loadRegisters, bind_ok]
      exact ⟨_, readMem_ok.mpr ⟨h k List.mem_cons_self, rfl⟩, ht⟩
    · intro j hj
      by_cases hm : j ∈ ks
      · rw [hw j hm]; exact State.load_congr rfl _ _
      · rcases List.mem_cons.mp hj with rfl | hj
        · rw [ho _ hm]; exact State.setReg_reg_same _ _ _
        · exact absurd hj hm
    · intro g hg
      have h1 : k ≠ g := fun e => hg (e ▸ List.mem_cons_self)
      rw [ho g (fun hm => hg (List.mem_cons_of_mem _ hm))]
      exact State.setReg_reg_other _ _ h1

/-- Two registers of one MOVEM lie at different places. -/
theorem movem_apart {ea : Word} {r j k : GReg} (hj : j ≤ r) (hk : k ≤ r) (h : j ≠ k) {i : Nat}
    (hi : i < 4) : ¬ Within (movemAddress ea r j + BitVec.ofNat 32 i) (movemAddress ea r k) 4 := by
  rintro ⟨n, hn, e⟩
  unfold movemAddress at e
  rw [BitVec.add_assoc, BitVec.add_assoc] at e
  have e := congrArg BitVec.toNat (add_left_cancel e)
  simp only [BitVec.toNat_add, BitVec.toNat_ofNat] at e
  have := j.isLt
  have := k.isLt
  have := r.isLt
  have hne : j.val ≠ k.val := fun e => h (Fin.ext e)
  have hj : j.val ≤ r.val := hj
  have hk : k.val ≤ r.val := hk
  omega

/-- Storing registers one by one: each is where it belongs, and nothing else is touched. -/
theorem storeRegisters_ok {ea : Word} {r : GReg} {ks : List GReg} : ∀ {s : State},
    Memory.wf s.mem = true → ks.Nodup → (∀ k ∈ ks, k ≤ r) →
    (∀ k ∈ ks, Writable s (movemAddress ea r k) 4) →
    ∃ t, storeRegisters ea r ks s = .ok t ∧
      Storing s t ∧ t.regs = s.regs ∧
      (∀ k ∈ ks, t.load .dword (movemAddress ea r k) = s.reg k) ∧
      ∀ a, (∀ k ∈ ks, ¬ Within a (movemAddress ea r k) 4) → t.byteAt a = s.byteAt a := by
  induction ks with
  | nil => intro s _ _ _ _; exact ⟨s, rfl, ⟨rfl⟩, rfl, by simp, fun _ _ => rfl⟩
  | cons k ks ih =>
    intro s w hd hr h
    let u := (s.store .dword (movemAddress ea r k) (s.reg k)).redrawStatus
    have hreg : ∀ g, u.reg g = s.reg g := fun g => State.reg_congr (by simp [u]) g
    have hk := List.nodup_cons.mp hd
    obtain ⟨t, ht, hs, hg, hw, ho⟩ := ih (s := u) (State.wf_store w _ _ _) hk.2
      (fun j hj => hr j (List.mem_cons_of_mem _ hj))
      (fun j hj => (Writable_congr (by simp [u]) _ _).mpr (h j (List.mem_cons_of_mem _ hj)))
    refine ⟨t, ?_, ((State.store_storing s _ _ _).trans (State.redrawStatus_storing _)).trans hs, ?_, ?_, ?_⟩
    · rw [storeRegisters, bind_ok]
      exact ⟨_, writeMem_ok.mpr ⟨h k List.mem_cons_self, rfl⟩, ht⟩
    · rw [hg]; simp [u]
    · intro j hj
      rcases List.mem_cons.mp hj with rfl | hj
      · apply State.load_eq_of_bytes
        intro i hi
        rw [ho]
        · exact State.byteAt_store w _ _ _ _ hi
        · intro n hn
          exact movem_apart (hr _ List.mem_cons_self) (hr _ (List.mem_cons_of_mem _ hn))
            (fun e => hk.1 (e ▸ hn)) hi
      · rw [hw j hj, hreg]
    · intro a ha
      rw [ho a (fun j hj => ha j (List.mem_cons_of_mem _ hj))]
      exact State.byteAt_store_other w _ _ _ _ (ha k List.mem_cons_self)

theorem registersDown_mem (k : GReg) : k ∈ registersDown := by revert k; decide

theorem movemRegisters_nodup (resume : Option GReg) (r : GReg) :
    (movemRegisters resume r).Nodup := List.Nodup.filter _ (by decide)

theorem mem_movemRegisters {resume : Option GReg} {r k : GReg} :
    k ∈ movemRegisters resume r ↔ k ≤ r ∧ ∀ n ∈ resume, k ≤ n := by
  unfold movemRegisters
  rw [List.mem_filter]
  cases resume <;> simp [registersDown_mem]

theorem noRangeHazard_iff {rule : Operand1Rule} {amount : Word} {s : State} {o : MemOperand}
    {ea : Word} {upd : Option (GReg × Word)} {r : GReg} {u : Unit}
    (h : place rule amount s o = .ok ⟨ea, upd⟩) :
    noRangeHazard o (regOf r) = .ok u ↔ ∀ g v, upd = some (g, v) → r < g := by
  unfold noRangeHazard
  rw [place_updates h]
  cases upd with
  | none => simp
  | some k =>
    obtain ⟨k, v⟩ := k
    simp only [Option.map_some, require_ok, decide_eq_true_eq, regOf_toNat, Option.some.injEq,
      Prod.mk.injEq]
    exact ⟨fun h g w e => e.1 ▸ h, fun h => h k v ⟨rfl, rfl⟩⟩
/-! ### The forms, run -/

theorem quick_next {op : GReg → State → State} (d : GReg) (s : State) :
    outcome (quickForm op (regOf d) s) = .next (op d s).done :=
  outcome_next.mpr (quickForm_ok.mpr ⟨d, rfl, rfl⟩)

theorem pair_next {op : GReg → GReg → State → State} (x d : GReg) (s : State) :
    outcome (pairForm op (regOf x) (regOf d) s) = .next (op x d s).done :=
  outcome_next.mpr (pairForm_ok.mpr ⟨d, x, rfl, rfl, rfl⟩)

theorem reg_next {m : Size} {op : GReg → GReg → BitVec m.bits → State → State} (x d : GReg)
    (s : State) :
    outcome (regForm m op (regOf x) (regOf d) s) = .next (op d d (low m (s.reg x)) s).done :=
  outcome_next.mpr (regForm_ok.mpr ⟨d, x, rfl, rfl, rfl⟩)

theorem mem_next {m : Size} {op : GReg → GReg → BitVec m.bits → State → State} {o : MemOperand}
    {d : GReg} {s : State} {v : BitVec m.bits} {upd : Option (GReg × Word)} {npc : Word}
    (h : SourceReads m (.mustBe (regOf d)) o s v upd npc) (n : NotUpdated upd d) :
    outcome (memForm m op o (regOf d) s)
      = .next (finish (op d d v ((Place.mk 0#32 upd).commit s)) { npc := npc }) :=
  outcome_next.mpr (memForm_ok.mpr ⟨d, v, upd, npc, rfl, h, n, rfl⟩)

theorem test_next {m : Size} {op : BitVec m.bits → State → State} {o : MemOperand}
    {s : State} {v : BitVec m.bits} {upd : Option (GReg × Word)} {npc : Word}
    (h : SourceReads m .ignored o s v upd npc) :
    outcome (testForm m op o s)
      = .next (finish (op v ((Place.mk 0#32 upd).commit s)) { npc := npc }) :=
  outcome_next.mpr (testForm_ok.mpr ⟨v, upd, npc, h, rfl⟩)

theorem three_next {m : Size} {op : GReg → GReg → BitVec m.bits → State → State} {s : State}
    {p : Prefix} (n d : GReg) (hp : s.pfx = some p) (hr : Readable s p.ea m.bytes) :
    outcome (threeForm m op (regOf n) (regOf d) s) = .next (op d n (s.load m p.ea) s).done :=
  outcome_next.mpr (threeForm_ok.mpr ⟨d, n, p, rfl, rfl, hp, hr, rfl⟩)

end Sys2Proof.Machine
end

