-- ==== Sys2Proof/Laws/Frame.lean ====
section
/-! SUPPORT. What every instruction leaves alone: one lemma, `exec_facts`, says of all of them what they
may change before the end of the cycle and how the cycle then ends. -/

namespace Sys2Proof.Machine

/-- `u` differs from `s` at most in the general registers, N, Z, V, C, memory, and what a store
records. -/
structure Plain (s u : State) : Prop where
  eq : u = { s with
    regs := u.regs
    flags := { s.flags with n := u.flags.n, z := u.flags.z, v := u.flags.v, c := u.flags.c }
    mem := u.mem
    stored := u.stored
    bfsrDraw := u.bfsrDraw }

theorem Local.plain {s u : State} (h : Local s u) : Plain s u := by
  constructor
  rw [h.eq]

theorem Storing.plain {s u : State} (h : Storing s u) : Plain s u := by
  constructor
  rw [h.eq]

/-- The X flag that an instruction decides on; none for RBF, which takes it from the record (R46). -/
def decidedX (i : Instr) (s : State) : Option Bool :=
  match i with
  | .ax => some true
  | .setf l => some l.x
  | .rbf _ => none
  | .bdapQ _ _ | .biap _ _ _ | .bdap _ _ _ | .dip _ => some s.flags.x
  | _ => some false

/-- The instruction is not RBF. -/
abbrev NotRbf (i : Instr) : Prop := ∀ o, i ≠ .rbf o

/-- From `s`, instruction `i` has made `u`, and its cycle ends with `fl`. -/
structure Facts (i : Instr) (s u : State) (fl : Flow) : Prop where
  onceMore : u.onceMore = s.onceMore
  delay : NotRbf i → u.delay = s.delay
  due : checkDue u = true → checkDue s = true
  memMap : u.memMap = s.memMap
  inv : StateInv s → StateInv u
  kept : storesToMemory i = false →
    u.mem = s.mem ∧ u.stored = s.stored ∧ u.bfsrDraw = s.bfsrDraw
  mof : u.mof ≠ s.mof → movesTo i = some .mof ∨ (∃ m rs rd, i = .muls m rs rd) ∨
    ∃ m rs rd, i = .mulu m rs rd
  ibr : u.ibr ≠ s.ibr → movesTo i = some .ibr
  bar : u.bar ≠ s.bar → movesTo i = some .bar
  usp : u.usp ≠ s.usp → movesTo i = some .usp
  irp : u.irp ≠ s.irp → movesTo i = some .irp ∨ (∃ o, i = .jir o ∨ i = .jirc o) ∨
    ∃ r, i = .jirR r ∨ i = .jircR r
  srp : u.srp ≠ s.srp → movesTo i = some .srp ∨ (∃ o, i = .jsr o ∨ i = .jsrc o) ∨
    ∃ r, i = .jsrR r ∨ i = .jsrcR r
  brp : u.brp ≠ s.brp → movesTo i = some .brp ∨ (∃ o, i = .jbrc o) ∨ (∃ r, i = .jbrcR r) ∨
    ∃ n, i = .brk n
  flagM : (s.flags.m = true → u.flags.m = true) ∧
    (u.flags.m ≠ s.flags.m → ∃ l, i = .setf l ∧ l.m = true)
  flagU : u.flags.u ≠ s.flags.u → writesFlagRegister i = true ∨ (∃ n, i = .brk n) ∨ ∃ o, i = .rbf o
  flagF : u.flags.f ≠ s.flags.f → writesFlagRegister i = true ∨ (∃ n, i = .brk n) ∨ i = .di ∨
    ∃ l, i = .clearf l
  flagP : u.flags.p ≠ s.flags.p → writesFlagRegister i = true ∨ i = .di ∨ ∃ l, i = .clearf l
  flagI : u.flags.i ≠ s.flags.i → writesFlagRegister i = true ∨ i = .di ∨ i = .ei ∨
    ∃ l, l.i = true ∧ (i = .setf l ∨ i = .clearf l)
  flagB : u.flags.b ≠ s.flags.b → writesFlagRegister i = true ∨
    ∃ l, l.b = true ∧ (i = .setf l ∨ i = .clearf l)
  mode : u.mode ≠ s.mode → (u.mode = .supervisor ∧ ∃ n, i = .brk n) ∨
    (u.mode = .user ∧ s.flags.u = true ∧ ((∃ o, i = .jmpu o) ∨ ∃ o, i = .rbf o))
  window : fl.inhibit = opensWindow i
  x : ∀ b ∈ decidedX i s, fl.x = b
  pfx : NotRbf i → fl.pfx ≠ none → isPrefixWord i = true
  delayed : NotRbf i → fl.delay ≠ none → opensWindow i = true
  slot : slotValid i = true → NotRbf i → fl.npc = s.npc0

/-- The state an instruction leaves, with its facts. -/
abbrev Facted (i : Instr) (s t : State) : Prop := ∃ u fl, t = finish u fl ∧ Facts i s u fl

theorem Facts.of_plain {i : Instr} {s u : State} {npc : Word} {inh x : Bool} (h : Plain s u)
    (inv : StateInv s → StateInv u)
    (kept : storesToMemory i = false →
      u.mem = s.mem ∧ u.stored = s.stored ∧ u.bfsrDraw = s.bfsrDraw)
    (window : inh = opensWindow i) (hx : decidedX i s = some x)
    (slot : slotValid i = true → npc = s.npc0) :
    Facts i s u { npc := npc, inhibit := inh, x := x } where
  onceMore := by rw [h.eq]
  delay := fun _ => by rw [h.eq]
  due := fun d => by rwa [h.eq] at d
  memMap := by rw [h.eq]
  inv := inv
  kept := kept
  mof := fun n => absurd (by rw [h.eq]) n
  ibr := fun n => absurd (by rw [h.eq]) n
  bar := fun n => absurd (by rw [h.eq]) n
  usp := fun n => absurd (by rw [h.eq]) n
  irp := fun n => absurd (by rw [h.eq]) n
  srp := fun n => absurd (by rw [h.eq]) n
  brp := fun n => absurd (by rw [h.eq]) n
  flagM := ⟨fun e => by rw [h.eq]; exact e, fun n => absurd (by rw [h.eq]) n⟩
  flagU := fun n => absurd (by rw [h.eq]) n
  flagF := fun n => absurd (by rw [h.eq]) n
  flagP := fun n => absurd (by rw [h.eq]) n
  flagI := fun n => absurd (by rw [h.eq]) n
  flagB := fun n => absurd (by rw [h.eq]) n
  mode := fun n => absurd (by rw [h.eq]) n
  window := window
  x := fun b hb => by rw [hx] at hb; exact Option.some.inj hb
  pfx := fun _ n => absurd rfl n
  delayed := fun _ n => absurd rfl n
  slot := fun e _ => slot e

theorem Facts.of_local {i : Instr} {s u : State} {npc : Word} {inh x : Bool} (h : Local s u)
    (window : inh = opensWindow i) (hx : decidedX i s = some x)
    (slot : slotValid i = true → npc = s.npc0) :
    Facts i s u { npc := npc, inhibit := inh, x := x } :=
  .of_plain h.plain (fun w => ⟨h.mem ▸ w.1, h.stored ▸ w.2⟩)
    (fun _ => ⟨h.mem, h.stored, h.bfsrDraw⟩) window hx slot

/-! ### One lemma per form -/

theorem facted_done {i : Instr} {s u : State} (h : Local s u) (window : opensWindow i = false)
    (hx : decidedX i s = some false) : Facted i s u.done :=
  ⟨u, _, rfl, .of_local h window.symm hx fun _ => h.npc0⟩

theorem facted_quick {i : Instr} {s t : State} {op : GReg → State → State} {rd : Reg}
    (e : outcome (quickForm op rd s) = .next t) (h : ∀ d, Local s (op d s))
    (window : opensWindow i = false) (hx : decidedX i s = some false) : Facted i s t := by
  obtain ⟨d, -, rfl⟩ := quickForm_ok.mp (outcome_next.mp e)
  exact facted_done (h d) window hx

theorem facted_pair {i : Instr} {s t : State} {op : GReg → GReg → State → State} {rs rd : Reg}
    (e : outcome (pairForm op rs rd s) = .next t) (h : ∀ x d, Local s (op x d s))
    (window : opensWindow i = false) (hx : decidedX i s = some false) : Facted i s t := by
  obtain ⟨d, x, -, -, rfl⟩ := pairForm_ok.mp (outcome_next.mp e)
  exact facted_done (h x d) window hx

theorem facted_reg {i : Instr} {m : Size} {s t : State}
    {op : GReg → GReg → BitVec m.bits → State → State} {rs rd : Reg}
    (e : outcome (regForm m op rs rd s) = .next t) (h : ∀ d b, Local s (op d d b s))
    (window : opensWindow i = false) (hx : decidedX i s = some false) : Facted i s t := by
  obtain ⟨d, x, -, -, rfl⟩ := regForm_ok.mp (outcome_next.mp e)
  exact facted_done (h d _) window hx

theorem facted_three {i : Instr} {m : Size} {s t : State}
    {op : GReg → GReg → BitVec m.bits → State → State} {rn rd : Reg}
    (e : outcome (threeForm m op rn rd s) = .next t) (h : ∀ d n b, Local s (op d n b s))
    (window : opensWindow i = false) (hx : decidedX i s = some false) : Facted i s t := by
  obtain ⟨d, n, p, -, -, -, -, rfl⟩ := threeForm_ok.mp (outcome_next.mp e)
  exact facted_done (h d n _) window hx

/-- An operand that may stand in a delay slot consumes no stream word. -/
theorem SourceReads.slot {m : Size} {rule : Operand1Rule} {o : MemOperand} {s : State}
    {v : BitVec m.bits} {upd : Option (GReg × Word)} {npc : Word}
    (h : SourceReads m rule o s v upd npc) (k : slotOperand o = true) : npc = s.npc0 := by
  rcases h with ⟨rfl, _⟩ | ⟨_, _, _, _, e⟩
  · cases k
  · exact e

theorem facted_mem {i : Instr} {m : Size} {s t : State}
    {op : GReg → GReg → BitVec m.bits → State → State} {o : MemOperand} {rd : Reg}
    (e : outcome (memForm m op o rd s) = .next t) (h : ∀ d b s, Local s (op d d b s))
    (window : opensWindow i = false) (hx : decidedX i s = some false)
    (slot : slotValid i = true → slotOperand o = true) : Facted i s t := by
  obtain ⟨d, v, upd, npc, -, hs, -, rfl⟩ := memForm_ok.mp (outcome_next.mp e)
  exact ⟨_, _, rfl, .of_local ((Place.commit_local _ _).trans (h _ _ _)) window.symm hx
    fun k => hs.slot (slot k)⟩

theorem facted_test {i : Instr} {m : Size} {s t : State}
    {op : BitVec m.bits → State → State} {o : MemOperand}
    (e : testForm m op o s = .ok t) (h : ∀ b s, Local s (op b s))
    (window : opensWindow i = false) (hx : decidedX i s = some false)
    (slot : slotValid i = true → slotOperand o = true) : Facted i s t := by
  obtain ⟨v, upd, npc, hs, rfl⟩ := testForm_ok.mp e
  exact ⟨_, _, rfl, .of_local ((Place.commit_local _ _).trans (h _ _)) window.symm hx
    fun k => hs.slot (slot k)⟩

theorem facted_store {i : Instr} {s u : State} {inh : Bool} (h : Storing s u)
    (inv : StateInv s → StateInv u) (hs : storesToMemory i = true) (window : inh = opensWindow i)
    (hx : decidedX i s = some false) :
    Facted i s (finish u { npc := u.npc0, inhibit := inh }) :=
  ⟨u, _, rfl, .of_plain h.plain inv (fun e => by rw [hs] at e; cases e) window hx
    fun _ => h.npc0⟩

theorem Place.inv_commit {p : Place} {s : State} (h : StateInv s) : StateInv (p.commit s) := by
  unfold StateInv
  rw [Place.commit_mem, Place.commit_stored]
  exact h

/-- A store of one value, with its operand's side effect. -/
theorem facted_store_one {i : Instr} {s : State} {m : Size} {ea : Word} {v : BitVec m.bits}
    {p : Place} {inh : Bool} (hs : storesToMemory i = true) (window : inh = opensWindow i)
    (hx : decidedX i s = some false) :
    Facted i s (finish (p.commit (s.store m ea v).redrawStatus)
      { npc := (p.commit (s.store m ea v).redrawStatus).npc0, inhibit := inh }) :=
  facted_store (((State.store_storing s m ea v).trans (State.redrawStatus_storing _)).trans
    (Place.commit_storing _ _))
    (fun w => Place.inv_commit (State.wf_redrawStatus (State.inv_store w m ea v))) hs window hx

/-- A write of a special register. -/
theorem facted_special {i : Instr} {s u : State} {pd : SpecialReg} {v npc : Word}
    (l : Local s u) (hm : movesTo i = some pd) (window : opensWindow i = true)
    (hx : decidedX i s = some false) (slot : slotValid i = true → npc = s.npc0) :
    Facted i s (finish (u.setSpecial pd v) { npc := npc, inhibit := true }) := by
  have hw : ∀ {P : Prop}, (pd ≠ .ccr → pd ≠ .dccr → P) → writesFlagRegister i = true ∨ P := by
    intro P h
    unfold writesFlagRegister
    rw [hm]
    by_cases h1 : pd = .ccr
    · exact .inl (by simp [h1])
    · by_cases h2 : pd = .dccr
      · exact .inl (by simp [h2])
      · exact .inr (h h1 h2)
  have hf : pd ≠ .ccr → pd ≠ .dccr → (u.setSpecial pd v).flags = u.flags := by
    intro h1 h2
    rw [State.setSpecial_flags, if_neg (by simp [h1, h2])]
  have hsp : ∀ q, q ∈ storedSpecials → (u.setSpecial pd v).special q ≠ s.special q →
      movesTo i = some q := by
    intro q hq n
    rw [hm]
    by_cases e : pd = q
    · rw [e]
    · rw [State.setSpecial_special _ _ _ _ hq, if_neg e, l.special hq] at n
      exact absurd rfl n
  refine ⟨_, _, rfl, ?_⟩
  exact {
    onceMore := by simp [l.onceMore]
    delay := fun _ => by simp [l.delay]
    due := fun d => by rwa [checkDue_congr (s := s) (by simp [l.delay]) (by simp [l.onceMore])] at d
    memMap := by simp [l.memMap]
    inv := fun w => by simpa [StateInv, l.mem, l.stored] using w
    kept := fun _ => by simp [l.mem, l.stored, l.bfsrDraw]
    mof := fun n => .inl (hsp .mof (by decide) n)
    ibr := fun n => hsp .ibr (by decide) n
    bar := fun n => hsp .bar (by decide) n
    usp := fun n => hsp .usp (by decide) n
    irp := fun n => .inl (hsp .irp (by decide) n)
    srp := fun n => .inl (hsp .srp (by decide) n)
    brp := fun n => .inl (hsp .brp (by decide) n)
    flagM := by
      have : (u.setSpecial pd v).flags.m = s.flags.m := by
        rw [State.setSpecial_flags]
        split
        · exact l.flagM
        · exact l.flagM
      rw [this]
      exact ⟨id, fun n => absurd rfl n⟩
    flagU := fun n => hw fun h1 h2 => absurd (by rw [hf h1 h2, l.flagU]) n
    flagF := fun n => hw fun h1 h2 => absurd (by rw [hf h1 h2, l.flagF]) n
    flagP := fun n => hw fun h1 h2 => absurd (by rw [hf h1 h2, l.flagP]) n
    flagI := fun n => hw fun h1 h2 => absurd (by rw [hf h1 h2, l.flagI]) n
    flagB := fun n => hw fun h1 h2 => absurd (by rw [hf h1 h2, l.flagB]) n
    mode := fun n => absurd (by simp [l.mode]) n
    window := window.symm
    x := fun b hb => by rw [hx] at hb; exact Option.some.inj hb
    pfx := fun _ n => absurd rfl n
    delayed := fun _ n => absurd rfl n
    slot := fun e _ => slot e }

theorem facted_toSpecial {i : Instr} {s t : State} {o : MemOperand} {pd : SpecialReg}
    (e : outcome (toSpecialForm o pd s) = .next t) (hm : movesTo i = some pd)
    (window : opensWindow i = true) (hx : decidedX i s = some false)
    (slot : slotValid i = true → slotOperand o = true) : Facted i s t := by
  obtain ⟨m, v, upd, npc, -, hs, rfl⟩ := toSpecialForm_ok.mp (outcome_next.mp e)
  exact facted_special (Place.commit_local _ _) hm window hx fun k => hs.slot (slot k)

theorem facted_fromSpecial {i : Instr} {s t : State} {o : MemOperand} {ps : SpecialReg}
    (e : outcome (fromSpecialForm ps o s) = .next t) (hs : storesToMemory i = true)
    (window : opensWindow i = true) (hx : decidedX i s = some false) : Facted i s t := by
  obtain ⟨m, ea, upd, -, -, -, rfl⟩ := fromSpecialForm_ok.mp (outcome_next.mp e)
  exact facted_store_one hs window.symm hx

theorem facted_storeForm {i : Instr} {s t : State} {m : Size} {o : MemOperand} {rs : Reg}
    (e : outcome (storeForm m rs o s) = .next t) (hs : storesToMemory i = true)
    (window : opensWindow i = false) (hx : decidedX i s = some false) : Facted i s t := by
  obtain ⟨x, ea, upd, -, -, -, -, rfl⟩ := storeForm_ok.mp (outcome_next.mp e)
  exact facted_store_one hs window.symm hx

/-- A prefix word. -/
theorem facted_prefix {i : Instr} {s u : State} {npc ea : Word} {ok : Bool} (l : Local s u)
    (hx : decidedX i s = some s.flags.x) (hp : isPrefixWord i = true)
    (window : opensWindow i = false) (slot : slotValid i = false) :
    Facted i s (finishPrefix u npc ea ok) := by
  have f := Facts.of_local (i := i) (npc := npc) (inh := false) (x := u.flags.x) l window.symm
    (by rw [l.flagX]; exact hx) (fun k => by rw [slot] at k; cases k)
  exact ⟨u, _, rfl, { f with pfx := fun _ _ => hp }⟩

/-- A delayed jump to an address, or a branch. -/
theorem facted_delayed {i : Instr} {s : State} {npc : Word} {d : Delay}
    (hx : decidedX i s = some false) (window : opensWindow i = true)
    (slot : slotValid i = true → npc = s.npc0) :
    Facted i s (finish s { npc := npc, inhibit := true, delay := some d }) := by
  have f := Facts.of_local (i := i) (npc := npc) (inh := true) (x := false) (.refl s) window.symm
    hx slot
  exact ⟨s, _, rfl, { f with delayed := fun _ _ => window }⟩

theorem facted_toRegisterOrPc {i : Instr} {s t : State} {m : Size} {v : Word} {check : Bool}
    {rd : Reg} (e : toRegisterOrPc m v check rd s = .ok t) (window : opensWindow i = true)
    (hx : decidedX i s = some false) : Facted i s t := by
  rcases toRegisterOrPc_ok.mp e with ⟨-, -, rfl⟩ | ⟨d, -, rfl⟩
  · exact facted_delayed hx window fun _ => rfl
  · exact ⟨_, _, rfl, .of_local ⟨rfl⟩ window.symm hx fun _ => rfl⟩

theorem facted_specialToRegister {i : Instr} {s t : State} {ps : SpecialReg} {rd : Reg}
    (e : outcome (specialToRegister ps rd s) = .next t) (window : opensWindow i = true)
    (hx : decidedX i s = some false) : Facted i s t := by
  obtain ⟨m, -, h⟩ := bind_ok.mp (outcome_next.mp e)
  exact facted_toRegisterOrPc h window hx

/-- An immediate jump that writes one return pointer, or none. -/
theorem facted_jump {i : Instr} {s u : State} {npc a : Word} {link : Word → State → State}
    (l : Local s u) (window : opensWindow i = true) (hx : decidedX i s = some false)
    (slot : slotValid i = false)
    (hl : (∃ irp, link npc u = { u with irp := irp } ∧ ((∃ o, i = .jir o ∨ i = .jirc o) ∨
        ∃ r, i = .jirR r ∨ i = .jircR r)) ∨
      (∃ srp, link npc u = { u with srp := srp } ∧ ((∃ o, i = .jsr o ∨ i = .jsrc o) ∨
        ∃ r, i = .jsrR r ∨ i = .jsrcR r)) ∨
      (∃ brp, link npc u = { u with brp := brp } ∧ ((∃ o, i = .jbrc o) ∨ ∃ r, i = .jbrcR r)) ∨
      link npc u = u) : Facted i s (jumpTo link npc a u) := by
  have f := Facts.of_local (i := i) (npc := npc) (inh := true) (x := false) l window.symm hx
    (fun k => by rw [slot] at k; cases k)
  refine ⟨_, _, rfl, ?_⟩
  rcases hl with ⟨p, e, h⟩ | ⟨p, e, h⟩ | ⟨p, e, h⟩ | e
  · rw [e]; exact { f with irp := fun _ => .inr h }
  · rw [e]; exact { f with srp := fun _ => .inr h }
  · rw [e]; exact { f with brp := fun _ => .inr (h.elim .inl fun h => .inr (.inl h)) }
  · rw [e]; exact { f with }

theorem facted_jumpReg {i : Instr} {s t : State} {link : Word → State → State} {rs : Reg}
    (e : outcome (jumpRegForm link rs s) = .next t) (window : opensWindow i = true)
    (hx : decidedX i s = some false) (slot : slotValid i = false)
    (hl : ∀ npc u, (∃ irp, link npc u = { u with irp := irp } ∧
        ((∃ o, i = .jir o ∨ i = .jirc o) ∨ ∃ r, i = .jirR r ∨ i = .jircR r)) ∨
      (∃ srp, link npc u = { u with srp := srp } ∧ ((∃ o, i = .jsr o ∨ i = .jsrc o) ∨
        ∃ r, i = .jsrR r ∨ i = .jsrcR r)) ∨
      (∃ brp, link npc u = { u with brp := brp } ∧ ((∃ o, i = .jbrc o) ∨ ∃ r, i = .jbrcR r)) ∨
      link npc u = u) : Facted i s t := by
  obtain ⟨x, -, rfl⟩ := jumpRegForm_ok.mp (outcome_next.mp e)
  exact facted_jump (.refl s) window hx slot (hl _ _)

theorem facted_jumpMem {i : Instr} {s t : State} {link : Word → State → State} {o : MemOperand}
    (e : outcome (jumpMemForm link o s) = .next t) (window : opensWindow i = true)
    (hx : decidedX i s = some false) (slot : slotValid i = false)
    (hl : ∀ npc u, (∃ irp, link npc u = { u with irp := irp } ∧
        ((∃ o, i = .jir o ∨ i = .jirc o) ∨ ∃ r, i = .jirR r ∨ i = .jircR r)) ∨
      (∃ srp, link npc u = { u with srp := srp } ∧ ((∃ o, i = .jsr o ∨ i = .jsrc o) ∨
        ∃ r, i = .jsrR r ∨ i = .jsrcR r)) ∨
      (∃ brp, link npc u = { u with brp := brp } ∧ ((∃ o, i = .jbrc o) ∨ ∃ r, i = .jbrcR r)) ∨
      link npc u = u) : Facted i s t := by
  obtain ⟨v, upd, npc, -, rfl⟩ := jumpMemForm_ok.mp (outcome_next.mp e)
  exact facted_jump (Place.commit_local _ _) window hx slot (hl _ _)

/-- A product. -/
theorem facted_product {i : Instr} {s t : State} {m : Size} {rs rd : Reg}
    {op : GReg → GReg → BitVec m.bits → State → State} (e : outcome (regForm m op rs rd s) = .next t)
    (ho : ∀ d b, ∃ p v, op d d b s = productResult d p v s)
    (h : (∃ m rs rd, i = .muls m rs rd) ∨ ∃ m rs rd, i = .mulu m rs rd)
    (window : opensWindow i = false) (hx : decidedX i s = some false) : Facted i s t := by
  obtain ⟨d, x, -, -, rfl⟩ := regForm_ok.mp (outcome_next.mp e)
  obtain ⟨p, v, hp⟩ := ho d (low m (s.reg x))
  rw [hp]
  have g := Facts.of_local (i := i) (npc := s.npc0) (inh := false) (x := false) (.refl s)
    window.symm hx (fun _ => rfl)
  exact ⟨_, _, rfl, { g with mof := fun _ => .inr h }⟩

/-- SETF and its kind: the flags set, X the list's. -/
theorem facted_setFlags {i : Instr} {l : FlagList} {s t : State}
    (e : outcome (setFlags l s) = .next t) (window : opensWindow i = true)
    (hx : decidedX i s = some l.x)
    (hi : i = .setf l ∨ (l.m = false ∧ l.b = false ∧ (l.i = true → i = .ei))) : Facted i s t := by
  cases outcome_next.mp e
  have g := Facts.of_local (i := i) (npc := s.npc0) (inh := true) (x := l.x) (.refl s) window.symm hx
    (fun _ => rfl)
  refine ⟨{ s with flags := s.flags.setList l }, _, rfl, { g with flagM := ?_, flagI := ?_, flagB := ?_ }⟩
  · rcases hi with rfl | ⟨h, -⟩
    · refine ⟨fun k => ?_, fun n => ⟨l, rfl, ?_⟩⟩
      · simp [Flags.setList, k]
      · cases hm : l.m
        · simp [Flags.setList, hm] at n
        · rfl
    · simp [Flags.setList, h]
  · intro n
    have hl : l.i = true := by
      cases hm : l.i
      · simp [Flags.setList, hm] at n
      · rfl
    rcases hi with rfl | ⟨-, -, h⟩
    · exact .inr (.inr (.inr ⟨l, hl, .inl rfl⟩))
    · exact .inr (.inr (.inl (h hl)))
  · intro n
    have hl : l.b = true := by
      cases hm : l.b
      · simp [Flags.setList, hm] at n
      · rfl
    rcases hi with rfl | ⟨-, h, -⟩
    · exact .inr ⟨l, hl, .inl rfl⟩
    · rw [h] at hl; cases hl

/-- CLEARF and DI. -/
theorem facted_clearFlags {i : Instr} {l : FlagList} {s t : State}
    (e : outcome (clearFlags l s) = .next t) (window : opensWindow i = true)
    (hx : decidedX i s = some false) (hi : i = .clearf l ∨ (l.b = false ∧ i = .di)) :
    Facted i s t := by
  cases outcome_next.mp e
  have g := Facts.of_local (i := i) (npc := s.npc0) (inh := true) (x := false) (.refl s) window.symm hx
    (fun _ => rfl)
  refine ⟨{ s with flags := s.flags.clearList l }, _, rfl,
    { g with flagM := ⟨id, fun n => absurd rfl n⟩, flagF := ?_, flagP := ?_, flagI := ?_, flagB := ?_ }⟩
  · exact fun _ => hi.elim (fun h => .inr (.inr (.inr ⟨l, h⟩))) fun h => .inr (.inr (.inl h.2))
  · exact fun _ => hi.elim (fun h => .inr (.inr ⟨l, h⟩)) fun h => .inr (.inl h.2)
  · intro n
    have hl : l.i = true := by
      cases hm : l.i
      · simp [Flags.clearList, hm] at n
      · rfl
    exact hi.elim (fun h => .inr (.inr (.inr ⟨l, hl, .inr h⟩))) fun h => .inr (.inl h.2)
  · intro n
    have hl : l.b = true := by
      cases hm : l.b
      · simp [Flags.clearList, hm] at n
      · rfl
    rcases hi with h | ⟨h, -⟩
    · exact .inr ⟨l, hl, .inr h⟩
    · rw [h] at hl; cases hl

/-! ### MOVEM, the status record, the trap -/

theorem loadRegisters_local {ea : Word} {r : GReg} {ks : List GReg} : ∀ {s t : State},
    loadRegisters ea r ks s = .ok t → Local s t := by
  induction ks with
  | nil => intro s t h; cases h; exact .refl s
  | cons k ks ih =>
    intro s t h
    obtain ⟨v, -, h⟩ := bind_ok.mp h
    exact Local.trans ⟨rfl⟩ (ih h)

theorem storeRegisters_storing {ea : Word} {r : GReg} {ks : List GReg} : ∀ {s t : State},
    storeRegisters ea r ks s = .ok t → Storing s t ∧ (StateInv s → StateInv t) := by
  induction ks with
  | nil => intro s t h; cases h; exact ⟨⟨rfl⟩, id⟩
  | cons k ks ih =>
    intro s t h
    obtain ⟨v, hv, h⟩ := bind_ok.mp h
    obtain ⟨-, rfl⟩ := writeMem_ok.mp hv
    obtain ⟨h1, h2⟩ := ih h
    exact ⟨((State.store_storing s _ _ _).trans (State.redrawStatus_storing _)).trans h1,
      fun w => h2 (State.wf_redrawStatus (State.inv_store w _ _ _))⟩

theorem writeRecord_storing {s t : State} {a : Word} {v : BitVec 128}
    (h : writeRecord s a v = .ok t) : Storing s t ∧ (StateInv s → StateInv t) := by
  obtain ⟨-, -, h⟩ := bind_ok.mp h
  cases h
  exact ⟨((((State.store_storing _ _ _ _).trans (State.store_storing _ _ _ _)).trans
      (State.store_storing _ _ _ _)).trans (State.store_storing _ _ _ _)).trans
      (State.redrawStatus_storing _),
    fun w => State.wf_redrawStatus (State.inv_store (State.inv_store (State.inv_store
      (State.inv_store w _ _ _) _ _ _) _ _ _) _ _ _)⟩

theorem facted_movemStore {rs : Reg} {o : MemOperand} {s t : State}
    (e : exec (.movemStore rs o) s = .next t) : Facted (.movemStore rs o) s t := by
  obtain ⟨r, -, e⟩ := bind_ok.mp (outcome_next.mp e)
  obtain ⟨-, -, e⟩ := bind_ok.mp e
  obtain ⟨p, -, e⟩ := bind_ok.mp e
  obtain ⟨u, hu, e⟩ := bind_ok.mp e
  cases e
  obtain ⟨h1, h2⟩ := storeRegisters_storing hu
  exact facted_store (h1.trans (Place.commit_storing _ _)) (fun w => Place.inv_commit (h2 w)) rfl rfl
    rfl

theorem facted_movemLoad {rd : Reg} {o : MemOperand} {s t : State}
    (e : exec (.movemLoad o rd) s = .next t) : Facted (.movemLoad o rd) s t := by
  obtain ⟨r, -, e⟩ := bind_ok.mp (outcome_next.mp e)
  obtain ⟨-, -, e⟩ := bind_ok.mp e
  obtain ⟨p, -, e⟩ := bind_ok.mp e
  obtain ⟨u, hu, e⟩ := bind_ok.mp e
  cases e
  exact facted_done ((loadRegisters_local hu).trans (Place.commit_local _ _)) rfl rfl

theorem facted_sbfs {o : MemOperand} {s t : State} (e : exec (.sbfs o) s = .next t) :
    Facted (.sbfs o) s t := by
  obtain ⟨p, -, e⟩ := bind_ok.mp (outcome_next.mp e)
  obtain ⟨u, hu, e⟩ := bind_ok.mp e
  cases e
  obtain ⟨h1, h2⟩ := writeRecord_storing hu
  exact facted_store (h1.trans (Place.commit_storing _ _)) (fun w => Place.inv_commit (h2 w)) rfl rfl
    rfl

theorem State.returnMode_eq (s : State) : s.returnMode = { s with mode := s.returnMode.mode } := by
  unfold State.returnMode
  split <;> rfl

theorem facted_rbf {o : MemOperand} {s t : State} (e : exec (.rbf o) s = .next t) :
    Facted (.rbf o) s t := by
  obtain ⟨p, -, e⟩ := bind_ok.mp (outcome_next.mp e)
  obtain ⟨v, -, e⟩ := bind_ok.mp e
  cases e
  have l := Place.commit_local p s
  have nr : NotRbf (.rbf o) → False := fun h => h o rfl
  refine ⟨_, _, rfl, ?_⟩
  exact {
    onceMore := by simp
    delay := fun h => (nr h).elim
    due := by
      unfold checkDue delayAtRestore
      simp only [State.returnMode_onceMore, State.returnMode_delay, Place.commit_onceMore,
        Place.commit_delay]
      cases s.delay with
      | none => simp
      | some d => cases Config.rbfReplacesPendingJump <;> simp +contextual
    memMap := by simp
    inv := fun w => by simpa [StateInv] using w
    kept := fun _ => by simp
    mof := fun n => absurd (by simp) n
    ibr := fun n => absurd (by simp) n
    bar := fun n => absurd (by simp) n
    usp := fun n => absurd (by simp) n
    irp := fun n => absurd (by simp) n
    srp := fun n => absurd (by simp) n
    brp := fun n => absurd (by simp) n
    flagM := by simp
    flagU := fun _ => .inr (.inr ⟨o, rfl⟩)
    flagF := fun n => absurd (by simp) n
    flagP := fun n => absurd (by simp) n
    flagI := fun n => absurd (by simp) n
    flagB := fun n => absurd (by simp) n
    mode := by
      intro n
      simp only [State.returnMode_mode, Place.commit_flags, Place.commit_mode] at n ⊢
      split at n
      · rename_i hu
        exact .inr ⟨by simp [hu], hu, .inr ⟨o, rfl⟩⟩
      · exact absurd rfl n
    window := rfl
    x := fun b hb => by cases hb
    pfx := fun h => (nr h).elim
    delayed := fun h => (nr h).elim
    slot := fun _ h => (nr h).elim }

theorem facted_brk {n : BitVec 4} {s t : State} (e : exec (.brk n) s = .next t) :
    Facted (.brk n) s t := by
  cases Host.Outcome.next.inj e
  have g := Facts.of_local (i := .brk n) (npc := s.npc0) (inh := false) (x := false) (.refl s) rfl rfl
    (fun _ => rfl)
  exact ⟨s.enterTrap s.npc0, _, rfl, { g with
    brp := fun _ => .inr (.inr (.inr ⟨n, rfl⟩))
    flagM := ⟨id, fun n => absurd rfl n⟩
    flagU := fun _ => .inr (.inl ⟨n, rfl⟩)
    flagF := fun _ => .inr (.inl ⟨n, rfl⟩)
    flagP := fun n => absurd rfl n
    flagI := fun n => absurd rfl n
    flagB := fun n => absurd rfl n
    mode := fun _ => .inl ⟨rfl, n, rfl⟩ }⟩

theorem facted_jmpu {o : MemOperand} {s t : State} (e : exec (.jmpu o) s = .next t) :
    Facted (.jmpu o) s t := by
  obtain ⟨-, -, e⟩ := bind_ok.mp (outcome_next.mp e)
  obtain ⟨⟨v, u, npc⟩, hr, e⟩ := bind_ok.mp e
  obtain ⟨upd, -, rfl⟩ := (readSource_ok (m := .dword)).mp hr
  cases e
  have g := Facts.of_local (i := .jmpu o) (npc := npc) (inh := true) (x := false)
    (Place.commit_local ⟨0#32, upd⟩ s) rfl rfl (fun k => by cases k)
  unfold jumpTo linkNone
  refine ⟨_, _, rfl, ?_⟩
  rw [State.returnMode_eq]
  refine { g with mode := ?_ }
  intro n
  simp only [State.returnMode_mode, Place.commit_flags, Place.commit_mode] at n ⊢
  split at n
  · rename_i hu
    exact .inr ⟨by simp [hu], hu, .inl ⟨o, rfl⟩⟩
  · exact absurd rfl n

/-! ### Every instruction -/

/-- What any instruction may change, and how its cycle ends. -/
theorem exec_facts {i : Instr} {s t : State} (e : exec i s = .next t) : Facted i s t := by
  cases i with
  | bcc _ _ =>
    cases Host.Outcome.next.inj e
    exact facted_delayed rfl rfl fun _ => rfl
  | bdapQ _ _ =>
    obtain ⟨b, -, e⟩ := bind_ok.mp (outcome_next.mp e)
    cases e
    exact facted_prefix (.refl s) rfl rfl rfl rfl
  | addq _ _ => exact facted_quick e (fun _ => ⟨rfl⟩) rfl rfl
  | moveq _ _ => exact facted_quick e (fun _ => ⟨rfl⟩) rfl rfl
  | subq _ _ => exact facted_quick e (fun _ => ⟨rfl⟩) rfl rfl
  | cmpq _ _ => exact facted_quick e (fun _ => ⟨rfl⟩) rfl rfl
  | andq _ _ => exact facted_quick e (fun _ => ⟨rfl⟩) rfl rfl
  | orq _ _ => exact facted_quick e (fun _ => ⟨rfl⟩) rfl rfl
  | btstq _ _ => exact facted_quick e (fun _ => ⟨rfl⟩) rfl rfl
  | asrq _ _ => exact facted_quick e (fun _ => ⟨rfl⟩) rfl rfl
  | lslq _ _ => exact facted_quick e (fun _ => ⟨rfl⟩) rfl rfl
  | lsrq _ _ => exact facted_quick e (fun _ => ⟨rfl⟩) rfl rfl
  | adduR _ _ _ => exact facted_reg e (fun _ _ => ⟨rfl⟩) rfl rfl
  | addsR _ _ _ => exact facted_reg e (fun _ _ => ⟨rfl⟩) rfl rfl
  | movuR _ _ _ => exact facted_reg e (fun _ _ => ⟨rfl⟩) rfl rfl
  | movsR _ _ _ => exact facted_reg e (fun _ _ => ⟨rfl⟩) rfl rfl
  | subuR _ _ _ => exact facted_reg e (fun _ _ => ⟨rfl⟩) rfl rfl
  | subsR _ _ _ => exact facted_reg e (fun _ _ => ⟨rfl⟩) rfl rfl
  | lslR _ _ _ => exact facted_pair e (fun _ _ => ⟨rfl⟩) rfl rfl
  | negR _ _ _ => exact facted_reg e (fun _ _ => ⟨rfl⟩) rfl rfl
  | boundR _ _ _ => exact facted_reg e (fun _ _ => ⟨rfl⟩) rfl rfl
  | addR _ _ _ => exact facted_reg e (fun _ _ => ⟨rfl⟩) rfl rfl
  | moveR _ _ _ => exact facted_reg e (fun _ _ => ⟨rfl⟩) rfl rfl
  | subR _ _ _ => exact facted_reg e (fun _ _ => ⟨rfl⟩) rfl rfl
  | cmpR _ _ _ => exact facted_reg e (fun _ _ => ⟨rfl⟩) rfl rfl
  | andR _ _ _ => exact facted_reg e (fun _ _ => ⟨rfl⟩) rfl rfl
  | orR _ _ _ => exact facted_reg e (fun _ _ => ⟨rfl⟩) rfl rfl
  | asrR _ _ _ => exact facted_pair e (fun _ _ => ⟨rfl⟩) rfl rfl
  | lsrR _ _ _ => exact facted_pair e (fun _ _ => ⟨rfl⟩) rfl rfl
  | addi _ _ _ => exact facted_pair e (fun _ _ => ⟨rfl⟩) rfl rfl
  | nop =>
    cases Host.Outcome.next.inj e
    exact facted_done (.refl s) rfl rfl
  | biap _ _ _ =>
    obtain ⟨b, -, e⟩ := bind_ok.mp (outcome_next.mp e)
    obtain ⟨x, -, e⟩ := bind_ok.mp e
    cases e
    exact facted_prefix (.refl s) rfl rfl rfl rfl
  | btst _ _ => exact facted_pair e (fun _ _ => ⟨rfl⟩) rfl rfl
  | abs _ _ => exact facted_pair e (fun _ _ => ⟨rfl⟩) rfl rfl
  | dstep _ _ =>
    obtain ⟨-, -, e⟩ := bind_ok.mp (outcome_next.mp e)
    exact facted_pair (outcome_next.mpr e) (fun _ _ => ⟨rfl⟩) rfl rfl
  | lz _ _ => exact facted_pair e (fun _ _ => ⟨rfl⟩) rfl rfl
  | xor _ _ => exact facted_pair e (fun _ _ => ⟨rfl⟩) rfl rfl
  | mstep _ _ =>
    obtain ⟨-, -, e⟩ := bind_ok.mp (outcome_next.mp e)
    exact facted_pair (outcome_next.mpr e) (fun _ _ => ⟨rfl⟩) rfl rfl
  | scc _ _ =>
    obtain ⟨d, -, e⟩ := bind_ok.mp (outcome_next.mp e)
    cases e
    exact ⟨_, _, rfl, .of_local ⟨rfl⟩ rfl rfl fun _ => rfl⟩
  | setf _ => exact facted_setFlags e rfl rfl (.inl rfl)
  | clearf _ => exact facted_clearFlags e rfl rfl (.inl rfl)
  | moveRP _ _ =>
    obtain ⟨m, -, e⟩ := bind_ok.mp (outcome_next.mp e)
    obtain ⟨x, -, e⟩ := bind_ok.mp e
    cases e
    exact facted_special (.refl s) rfl rfl rfl fun _ => by simp
  | movePR _ _ => exact facted_specialToRegister e rfl rfl
  | swap _ _ => exact facted_quick e (fun _ => ⟨rfl⟩) rfl rfl
  | clearR _ _ => exact facted_toRegisterOrPc (outcome_next.mp e) rfl rfl
  | addu _ _ _ => exact facted_mem e (fun _ _ _ => ⟨rfl⟩) rfl rfl id
  | adds _ _ _ => exact facted_mem e (fun _ _ _ => ⟨rfl⟩) rfl rfl id
  | movu _ _ _ => exact facted_mem e (fun _ _ _ => ⟨rfl⟩) rfl rfl id
  | movs _ _ _ => exact facted_mem e (fun _ _ _ => ⟨rfl⟩) rfl rfl id
  | subu _ _ _ => exact facted_mem e (fun _ _ _ => ⟨rfl⟩) rfl rfl id
  | subs _ _ _ => exact facted_mem e (fun _ _ _ => ⟨rfl⟩) rfl rfl id
  | cmpu _ _ _ =>
    obtain ⟨d, -, e⟩ := bind_ok.mp (outcome_next.mp e)
    exact facted_test e (fun _ _ => ⟨rfl⟩) rfl rfl id
  | cmps _ _ _ =>
    obtain ⟨d, -, e⟩ := bind_ok.mp (outcome_next.mp e)
    exact facted_test e (fun _ _ => ⟨rfl⟩) rfl rfl id
  | bound _ _ _ => exact facted_mem e (fun _ _ _ => ⟨rfl⟩) rfl rfl id
  | add _ _ _ => exact facted_mem e (fun _ _ _ => ⟨rfl⟩) rfl rfl id
  | move _ _ _ => exact facted_mem e (fun _ _ _ => ⟨rfl⟩) rfl rfl id
  | sub _ _ _ => exact facted_mem e (fun _ _ _ => ⟨rfl⟩) rfl rfl id
  | cmp _ _ _ =>
    obtain ⟨d, -, e⟩ := bind_ok.mp (outcome_next.mp e)
    exact facted_test e (fun _ _ => ⟨rfl⟩) rfl rfl id
  | and _ _ _ => exact facted_mem e (fun _ _ _ => ⟨rfl⟩) rfl rfl id
  | or _ _ _ => exact facted_mem e (fun _ _ _ => ⟨rfl⟩) rfl rfl id
  | mulu _ _ _ => exact facted_product e (fun _ _ => ⟨_, _, rfl⟩) (.inr ⟨_, _, _, rfl⟩) rfl rfl
  | muls _ _ _ => exact facted_product e (fun _ _ => ⟨_, _, rfl⟩) (.inl ⟨_, _, _, rfl⟩) rfl rfl
  | jump _ => exact facted_jumpMem e rfl rfl rfl fun _ _ => .inr (.inr (.inr rfl))
  | jumpR _ => exact facted_jumpReg e rfl rfl rfl fun _ _ => .inr (.inr (.inr rfl))
  | jirc _ => exact facted_jumpMem e rfl rfl rfl fun _ _ => .inl ⟨_, rfl, .inl ⟨_, .inr rfl⟩⟩
  | jircR _ => exact facted_jumpReg e rfl rfl rfl fun _ _ => .inl ⟨_, rfl, .inr ⟨_, .inr rfl⟩⟩
  | jsrc _ => exact facted_jumpMem e rfl rfl rfl fun _ _ => .inr (.inl ⟨_, rfl, .inl ⟨_, .inr rfl⟩⟩)
  | jsrcR _ =>
    exact facted_jumpReg e rfl rfl rfl fun _ _ => .inr (.inl ⟨_, rfl, .inr ⟨_, .inr rfl⟩⟩)
  | jbrc _ =>
    exact facted_jumpMem e rfl rfl rfl fun _ _ => .inr (.inr (.inl ⟨_, rfl, .inl ⟨_, rfl⟩⟩))
  | jbrcR _ =>
    exact facted_jumpReg e rfl rfl rfl fun _ _ => .inr (.inr (.inl ⟨_, rfl, .inr ⟨_, rfl⟩⟩))
  | jir _ => exact facted_jumpMem e rfl rfl rfl fun _ _ => .inl ⟨_, rfl, .inl ⟨_, .inl rfl⟩⟩
  | jirR _ => exact facted_jumpReg e rfl rfl rfl fun _ _ => .inl ⟨_, rfl, .inr ⟨_, .inl rfl⟩⟩
  | jsr _ => exact facted_jumpMem e rfl rfl rfl fun _ _ => .inr (.inl ⟨_, rfl, .inl ⟨_, .inl rfl⟩⟩)
  | jsrR _ => exact facted_jumpReg e rfl rfl rfl fun _ _ => .inr (.inl ⟨_, rfl, .inr ⟨_, .inl rfl⟩⟩)
  | jmpu _ => exact facted_jmpu e
  | brk _ => exact facted_brk e
  | bdap _ _ _ =>
    obtain ⟨b, -, e⟩ := bind_ok.mp (outcome_next.mp e)
    obtain ⟨-, -, e⟩ := bind_ok.mp e
    obtain ⟨⟨v, u, npc⟩, hr, e⟩ := bind_ok.mp e
    obtain ⟨upd, -, rfl⟩ := readSource_ok.mp hr
    cases e
    exact facted_prefix (Place.commit_local _ _) rfl rfl rfl rfl
  | dip _ =>
    obtain ⟨⟨v, u, npc⟩, hr, e⟩ := bind_ok.mp (outcome_next.mp e)
    obtain ⟨upd, -, rfl⟩ := (readSource_ok (m := .dword)).mp hr
    cases e
    exact facted_prefix (Place.commit_local _ _) rfl rfl rfl rfl
  | bccW _ =>
    obtain ⟨v, -, e⟩ := bind_ok.mp (outcome_next.mp e)
    obtain ⟨-, -, e⟩ := bind_ok.mp e
    cases e
    exact facted_delayed rfl rfl fun h => by cases h
  | moveSP _ _ => exact facted_toSpecial e rfl rfl rfl id
  | movePD _ _ => exact facted_fromSpecial e rfl rfl rfl
  | clear _ _ =>
    obtain ⟨u, hu, e⟩ := bind_ok.mp (outcome_next.mp e)
    obtain ⟨ea, upd, -, -, rfl⟩ := writeDest_ok.mp hu
    cases e
    exact facted_store_one rfl rfl rfl
  | rbf _ => exact facted_rbf e
  | sbfs _ => exact facted_sbfs e
  | test _ _ => exact facted_test (outcome_next.mp e) (fun _ _ => ⟨rfl⟩) rfl rfl id
  | movemLoad _ _ => exact facted_movemLoad e
  | moveStore _ _ _ => exact facted_storeForm e rfl rfl rfl
  | movemStore _ _ => exact facted_movemStore e
  | add3 _ _ _ => exact facted_three e (fun _ _ _ => ⟨rfl⟩) rfl rfl
  | sub3 _ _ _ => exact facted_three e (fun _ _ _ => ⟨rfl⟩) rfl rfl
  | and3 _ _ _ => exact facted_three e (fun _ _ _ => ⟨rfl⟩) rfl rfl
  | or3 _ _ _ => exact facted_three e (fun _ _ _ => ⟨rfl⟩) rfl rfl
  | bound3 _ _ _ => exact facted_three e (fun _ _ _ => ⟨rfl⟩) rfl rfl
  | addu3 _ _ _ => exact facted_three e (fun _ _ _ => ⟨rfl⟩) rfl rfl
  | adds3 _ _ _ => exact facted_three e (fun _ _ _ => ⟨rfl⟩) rfl rfl
  | subu3 _ _ _ => exact facted_three e (fun _ _ _ => ⟨rfl⟩) rfl rfl
  | subs3 _ _ _ => exact facted_three e (fun _ _ _ => ⟨rfl⟩) rfl rfl
  | ax => exact facted_setFlags e rfl rfl (.inr ⟨rfl, rfl, fun h => by cases h⟩)
  | di => exact facted_clearFlags e rfl rfl (.inr ⟨rfl, rfl⟩)
  | ei => exact facted_setFlags e rfl rfl (.inr ⟨rfl, rfl, fun _ => rfl⟩)
  | not _ => exact facted_quick e (fun _ => ⟨rfl⟩) rfl rfl
  | ret => exact facted_specialToRegister (ps := .srp) (rd := pcReg) e rfl rfl
  | retb => exact facted_specialToRegister (ps := .brp) (rd := pcReg) e rfl rfl
  | reti => exact facted_specialToRegister (ps := .irp) (rd := pcReg) e rfl rfl
  | popR _ => exact facted_mem e (fun _ _ _ => ⟨rfl⟩) rfl rfl fun _ => rfl
  | popP _ => exact facted_toSpecial e rfl rfl rfl fun _ => rfl
  | pushR _ => exact facted_storeForm e rfl rfl rfl
  | pushP _ => exact facted_fromSpecial e rfl rfl rfl
  | testR _ _ => exact facted_reg e (fun _ _ => ⟨rfl⟩) rfl rfl

end Sys2Proof.Machine
end

