-- ==== Sys2Proof/Laws/Step.lean ====
section
/-! SUPPORT. What a step can do (10_state.md R45). -/

namespace Sys2Proof.Machine

/-- When the word at PC is an instruction that may run there. -/
theorem fetchInstr_ok {s : State} {i : Instr} : fetchInstr s = .ok i ↔
    s.pc.getLsbD 0 = false ∧ Fetchable s s.pc 2 ∧
      decode s.pfx.isSome [s.byteAt s.pc, s.byteAt (s.pc + 1)] = .ok i ∧
      (s.delay = none ∨ slotValid i = true) := by
  unfold fetchInstr
  simp only [bind_ok, require_ok]
  constructor
  · rintro ⟨_, h1, b, hb, h⟩
    obtain ⟨_, hf, e⟩ := bind_ok.mp hb
    cases e
    cases hd : decode s.pfx.isSome [s.byteAt s.pc, s.byteAt (s.pc + 1)] with
    | error x => rw [hd] at h; cases h
    | ok j =>
      rw [hd] at h
      obtain ⟨_, hs, e⟩ := bind_ok.mp h
      cases e
      rw [require_ok] at hs
      simp only [Bool.or_eq_true, Option.isNone_iff_eq_none, Bool.not_eq_true'] at hs h1
      exact ⟨h1, (accessAll_fetches_ok rfl).mp hf, rfl, hs⟩
  · rintro ⟨h1, h2, h3, h4⟩
    refine ⟨(), by rw [h1]; rfl, _, bind_ok.mpr ⟨(), (accessAll_fetches_ok rfl).mpr h2, rfl⟩, ?_⟩
    rw [h3]
    refine bind_ok.mpr ⟨(), require_ok.mpr ?_, rfl⟩
    simpa only [Bool.or_eq_true, Option.isNone_iff_eq_none] using h4

/-- A step that completes is the instruction it fetched. -/
theorem step_next {s t : State} (h : step s = .next t) :
    ∃ i, fetchInstr s = .ok i ∧ exec i s = .next t := by
  unfold step at h
  split at h
  · cases h
  · cases h
  · exact ⟨_, ‹_›, h⟩

end Sys2Proof.Machine
end

