-- ==== Sys2Proof/Tests/Slice0.lean ====
section
/-! SUPPORT. Tests: the checks of WellFormed, a word for every row of the opcode table, one step of
nearly every instruction, and a witness for the hypotheses of every statement. -/

open Sys2Proof Sys2Proof.Machine

namespace Sys2Proof.Tests

/-- One step on the reset state with these registers, special registers, flags (the flag register's
bits), memory bytes, pending prefix address and PC, and the instruction `w` of `nbits` bits: the
general registers `gs`, special registers `ps` and memory bytes `as` after it, the flag register and
PC. None where the step does not go on. -/
def run (regs : List (GReg × Word)) (sps : List (SpecialReg × Word)) (fl : Word)
    (mem : List (Nat × Nat)) (ea : Option Word) (pc : Word) (nbits w : Nat)
    (gs : List GReg) (ps : List SpecialReg) (as : List Word) :
    Option (List Word × List Word × List Byte × Word × Word) :=
  let s := { State.reset with
    pc := pc
    flags := ⟨fl.getLsbD 10, fl.getLsbD 9, fl.getLsbD 8, fl.getLsbD 7, fl.getLsbD 6, fl.getLsbD 5,
      fl.getLsbD 4, fl.getLsbD 3, fl.getLsbD 2, fl.getLsbD 1, fl.getLsbD 0⟩
    pfx := ea.map (⟨·, true⟩)
    mem := mem.foldl
      (fun (m : Memory) (p : Nat × Nat) => Memory.write m p.1 (BitVec.ofNat 8 p.2)) [] }
  let s := regs.foldl (fun s p => s.setReg p.1 p.2) s
  let s := sps.foldl (fun s p => s.setSpecial p.1 p.2) s
  match step (s.withFetchWord nbits w) with
  | .next t => some (gs.map t.reg, ps.map t.special, as.map t.byteAt, t.flags.read, t.pc)
  | _ => none

/-! ### WellFormed: each check refuses an ill-formed term -/

/-- R146: autoincrement on register 15 is the immediate mode. -/
theorem test_wf_no_autoincrement_on_register_15 :
    (Instr.move .byte (.simple (.autoinc pcReg)) 1#4).wf = false ∧
    (Instr.movu .byte (.simple (.autoinc pcReg)) 1#4).wf = false ∧
    (Instr.bdap .byte (.autoinc pcReg) 1#4).wf = false ∧ (Instr.dip (.autoinc pcReg)).wf = false ∧
    (Instr.add .byte (.simple (.autoinc pcReg)) 1#4).wf = false ∧
    (Instr.jump (.simple (.autoinc pcReg))).wf = false := by
  decide

/-- R158: with md = 0 after a prefix the word belongs to the 3-operand row. -/
theorem test_wf_two_operand_form_takes_no_complex_operand :
    (Instr.add .byte (.complex 1#4) 1#4).wf = false ∧
    (Instr.sub .byte (.complex 1#4) 1#4).wf = false ∧
    (Instr.and .byte (.complex 1#4) 1#4).wf = false ∧
    (Instr.or .byte (.complex 1#4) 1#4).wf = false ∧
    (Instr.bound .byte (.complex 1#4) 1#4).wf = false ∧
    (Instr.addu .byte (.complex 1#4) 1#4).wf = false ∧
    (Instr.adds .byte (.complex 1#4) 1#4).wf = false ∧
    (Instr.subu .byte (.complex 1#4) 1#4).wf = false ∧
    (Instr.subs .byte (.complex 1#4) 1#4).wf = false ∧
    (Instr.move .byte (.complex 1#4) 1#4).wf = true := by
  decide

/-- R116: P0, P4 and P8 as source are CLEAR. -/
theorem test_wf_no_zero_register_source :
    (Instr.movePR .p0 1#4).wf = false ∧ (Instr.movePR .p4 1#4).wf = false ∧
    (Instr.movePR .p8 1#4).wf = false ∧
    (Instr.movePD .p4 (.simple (.indirect 1#4))).wf = false ∧ (Instr.pushP .p8).wf = false := by
  decide

/-- The word of ADDI R0.B,PC is NOP. -/
theorem test_wf_addi_is_not_nop :
    (Instr.addi .byte 0#4 pcReg).wf = false ∧ (Instr.addi .byte 0#4 1#4).wf = true := by
  decide

/-- R116: a word that a macro stands for goes by the macro's name. -/
theorem test_wf_each_macro_word_has_one_name :
    (Instr.setf axList).wf = false ∧ (Instr.setf iList).wf = false ∧
    (Instr.clearf iList).wf = false ∧ (Instr.swap notOptions 1#4).wf = false ∧
    (Instr.movePR .srp pcReg).wf = false ∧ (Instr.movePR .brp pcReg).wf = false ∧
    (Instr.movePR .irp pcReg).wf = false ∧ (Instr.moveR .byte 1#4 1#4).wf = false ∧
    (Instr.move .dword (.simple (.autoinc spReg)) 1#4).wf = false ∧
    (Instr.moveSP (.simple (.autoinc spReg)) .srp).wf = false ∧
    (Instr.moveStore .dword 1#4 (.assign spReg)).wf = false ∧
    (Instr.movePD .srp (.assign spReg)).wf = false := by
  decide

/-! ### Decode: every row's word, written out bit by bit from its `encoding` in the opcode table.
The field in the top four bits holds 5, the field in the low four bits 9, the size is word; rows
alternate between mode 10 and mode 11. -/

/-- Rows 1 to 12 of spec/opcode_table.json. -/
theorem test_decode_branch_and_quick :
    decodeWord false 0b0101000011110101#16 = .ok (.bcc .vs 0xF5#8) ∧
    decodeWord false 0b0101000111110101#16 = .ok (.bdapQ 0xF5#8 5#4) ∧
    decodeWord false 0b0101001000110010#16 = .ok (.addq 50#6 5#4) ∧
    decodeWord false 0b0101001001110010#16 = .ok (.moveq 50#6 5#4) ∧
    decodeWord false 0b0101001010110010#16 = .ok (.subq 50#6 5#4) ∧
    decodeWord false 0b0101001011110010#16 = .ok (.cmpq 50#6 5#4) ∧
    decodeWord false 0b0101001100110010#16 = .ok (.andq 50#6 5#4) ∧
    decodeWord false 0b0101001101110010#16 = .ok (.orq 50#6 5#4) ∧
    decodeWord false 0b0101001110010010#16 = .ok (.btstq 18#5 5#4) ∧
    decodeWord false 0b0101001110110010#16 = .ok (.asrq 18#5 5#4) ∧
    decodeWord false 0b0101001111010010#16 = .ok (.lslq 18#5 5#4) ∧
    decodeWord false 0b0101001111110010#16 = .ok (.lsrq 18#5 5#4) := by
  decide

/-- Rows 13 to 32 of spec/opcode_table.json. -/
theorem test_decode_register_sized :
    decodeWord false 0b0101010000011001#16 = .ok (.adduR .word 9#4 5#4) ∧
    decodeWord false 0b0101010000111001#16 = .ok (.addsR .word 9#4 5#4) ∧
    decodeWord false 0b0101010001011001#16 = .ok (.movuR .word 9#4 5#4) ∧
    decodeWord false 0b0101010001111001#16 = .ok (.movsR .word 9#4 5#4) ∧
    decodeWord false 0b0101010010011001#16 = .ok (.subuR .word 9#4 5#4) ∧
    decodeWord false 0b0101010010111001#16 = .ok (.subsR .word 9#4 5#4) ∧
    decodeWord false 0b0101010011011001#16 = .ok (.lslR .word 9#4 5#4) ∧
    decodeWord false 0b0101010110011001#16 = .ok (.negR .word 9#4 5#4) ∧
    decodeWord false 0b0101010111011001#16 = .ok (.boundR .word 9#4 5#4) ∧
    decodeWord false 0b0101011000011001#16 = .ok (.addR .word 9#4 5#4) ∧
    decodeWord false 0b0101011001011001#16 = .ok (.moveR .word 9#4 5#4) ∧
    decodeWord false 0b0101011010011001#16 = .ok (.subR .word 9#4 5#4) ∧
    decodeWord false 0b0101011011011001#16 = .ok (.cmpR .word 9#4 5#4) ∧
    decodeWord false 0b0101011100011001#16 = .ok (.andR .word 9#4 5#4) ∧
    decodeWord false 0b0101011101011001#16 = .ok (.orR .word 9#4 5#4) ∧
    decodeWord false 0b0101011110011001#16 = .ok (.asrR .word 9#4 5#4) ∧
    decodeWord false 0b0101011111011001#16 = .ok (.lsrR .word 9#4 5#4) ∧
    decodeWord false 0b0101010100011001#16 = .ok (.addi .word 5#4 9#4) ∧
    decodeWord false 0b0000010100001111#16 = .ok .nop ∧
    decodeWord false 0b0101010101011001#16 = .ok (.biap .word 5#4 9#4) := by
  decide

/-- Rows 33 to 45 of spec/opcode_table.json. -/
theorem test_decode_register_other :
    decodeWord false 0b0101010011111001#16 = .ok (.btst 9#4 5#4) ∧
    decodeWord false 0b0101011010111001#16 = .ok (.abs 9#4 5#4) ∧
    decodeWord false 0b0101011011111001#16 = .ok (.dstep 9#4 5#4) ∧
    decodeWord false 0b0101011100111001#16 = .ok (.lz 9#4 5#4) ∧
    decodeWord false 0b0101011110111001#16 = .ok (.xor 9#4 5#4) ∧
    decodeWord false 0b0101011111111001#16 = .ok (.mstep 9#4 5#4) ∧
    decodeWord false 0b0101010100111001#16 = .ok (.scc .vs 9#4) ∧
    decodeWord false 0b1010010110111001#16 =
      .ok (.setf ⟨true, false, true, false, true, false, false, true⟩) ∧
    decodeWord false 0b1010010111111001#16 =
      .ok (.clearf ⟨true, false, true, false, true, false, false, true⟩) ∧
    decodeWord false 0b0101011000111001#16 = .ok (.moveRP 9#4 .ccr) ∧
    decodeWord false 0b0101011001111001#16 = .ok (.movePR .ccr 9#4) ∧
    decodeWord false 0b1001011101111001#16 = .ok (.swap ⟨true, false, false, true⟩ 9#4) ∧
    decodeWord false 0b0100011001111001#16 = .ok (.clearR .word 9#4) := by
  decide

/-- Rows 46 to 62 of spec/opcode_table.json. -/
theorem test_decode_memory_sized :
    decodeWord false 0b0101110000011001#16 = .ok (.addu .word (.simple (.autoinc 9#4)) 5#4) ∧
    decodeWord false 0b0101100000111001#16 = .ok (.adds .word (.simple (.indirect 9#4)) 5#4) ∧
    decodeWord false 0b0101110001011001#16 = .ok (.movu .word (.simple (.autoinc 9#4)) 5#4) ∧
    decodeWord false 0b0101100001111001#16 = .ok (.movs .word (.simple (.indirect 9#4)) 5#4) ∧
    decodeWord false 0b0101110010011001#16 = .ok (.subu .word (.simple (.autoinc 9#4)) 5#4) ∧
    decodeWord false 0b0101100010111001#16 = .ok (.subs .word (.simple (.indirect 9#4)) 5#4) ∧
    decodeWord false 0b0101110011011001#16 = .ok (.cmpu .word (.simple (.autoinc 9#4)) 5#4) ∧
    decodeWord false 0b0101100011111001#16 = .ok (.cmps .word (.simple (.indirect 9#4)) 5#4) ∧
    decodeWord false 0b0101110111011001#16 = .ok (.bound .word (.simple (.autoinc 9#4)) 5#4) ∧
    decodeWord false 0b0101101000011001#16 = .ok (.add .word (.simple (.indirect 9#4)) 5#4) ∧
    decodeWord false 0b0101111001011001#16 = .ok (.move .word (.simple (.autoinc 9#4)) 5#4) ∧
    decodeWord false 0b0101101010011001#16 = .ok (.sub .word (.simple (.indirect 9#4)) 5#4) ∧
    decodeWord false 0b0101111011011001#16 = .ok (.cmp .word (.simple (.autoinc 9#4)) 5#4) ∧
    decodeWord false 0b0101101100011001#16 = .ok (.and .word (.simple (.indirect 9#4)) 5#4) ∧
    decodeWord false 0b0101111101011001#16 = .ok (.or .word (.simple (.autoinc 9#4)) 5#4) ∧
    decodeWord false 0b0101100100011001#16 = .ok (.mulu .word 9#4 5#4) ∧
    decodeWord false 0b0101110100011001#16 = .ok (.muls .word 9#4 5#4) := by
  decide

/-- Rows 63 to 76 of spec/opcode_table.json. -/
theorem test_decode_jump_group :
    decodeWord false 0b0000100100111001#16 = .ok (.jump (.simple (.indirect 9#4))) ∧
    decodeWord false 0b0000100110111001#16 = .ok (.jumpR 9#4) ∧
    decodeWord false 0b0010100100111001#16 = .ok (.jirc (.simple (.indirect 9#4))) ∧
    decodeWord false 0b0010100110111001#16 = .ok (.jircR 9#4) ∧
    decodeWord false 0b0011100100111001#16 = .ok (.jsrc (.simple (.indirect 9#4))) ∧
    decodeWord false 0b0011100110111001#16 = .ok (.jsrcR 9#4) ∧
    decodeWord false 0b0110100100111001#16 = .ok (.jbrc (.simple (.indirect 9#4))) ∧
    decodeWord false 0b0110100110111001#16 = .ok (.jbrcR 9#4) ∧
    decodeWord false 0b1010100100111001#16 = .ok (.jir (.simple (.indirect 9#4))) ∧
    decodeWord false 0b1010100110111001#16 = .ok (.jirR 9#4) ∧
    decodeWord false 0b1011100100111001#16 = .ok (.jsr (.simple (.indirect 9#4))) ∧
    decodeWord false 0b1011100110111001#16 = .ok (.jsrR 9#4) ∧
    decodeWord false 0b1000100100111001#16 = .ok (.jmpu (.simple (.indirect 9#4))) ∧
    decodeWord false 0b1110100100111001#16 = .ok (.brk 9#4) := by
  decide

/-- Rows 77 to 88 of spec/opcode_table.json. -/
theorem test_decode_memory_other :
    decodeWord false 0b0101100101011001#16 = .ok (.bdap .word (.indirect 9#4) 5#4) ∧
    decodeWord false 0b0000110101111001#16 = .ok (.dip (.autoinc 9#4)) ∧
    decodeWord false 0b0101110111111111#16 = .ok (.bccW .vs) ∧
    decodeWord false 0b0101111000111001#16 = .ok (.moveSP (.simple (.autoinc 9#4)) .ccr) ∧
    decodeWord false 0b0101101001111001#16 = .ok (.movePD .ccr (.simple (.indirect 9#4))) ∧
    decodeWord false 0b0100111001111001#16 = .ok (.clear .word (.simple (.autoinc 9#4))) ∧
    decodeWord false 0b0011101100111001#16 = .ok (.rbf (.simple (.indirect 9#4))) ∧
    decodeWord false 0b0011111101111001#16 = .ok (.sbfs (.simple (.autoinc 9#4))) ∧
    decodeWord false 0b0000101110011001#16 = .ok (.test .word (.simple (.indirect 9#4))) ∧
    decodeWord false 0b0101111110111001#16 = .ok (.movemLoad (.simple (.autoinc 9#4)) 5#4) ∧
    decodeWord false 0b0101101111011001#16 = .ok (.moveStore .word 5#4 (.simple (.indirect 9#4))) ∧
    decodeWord false 0b0101111111111001#16 = .ok (.movemStore 5#4 (.simple (.autoinc 9#4))) := by
  decide

/-- Rows 89 to 97 of spec/opcode_table.json. -/
theorem test_decode_three_operand :
    decodeWord true 0b0101101000011001#16 = .ok (.add3 .word 5#4 9#4) ∧
    decodeWord true 0b0101101010011001#16 = .ok (.sub3 .word 5#4 9#4) ∧
    decodeWord true 0b0101101100011001#16 = .ok (.and3 .word 5#4 9#4) ∧
    decodeWord true 0b0101101101011001#16 = .ok (.or3 .word 5#4 9#4) ∧
    decodeWord true 0b0101100111011001#16 = .ok (.bound3 .word 5#4 9#4) ∧
    decodeWord true 0b0101100000011001#16 = .ok (.addu3 .word 5#4 9#4) ∧
    decodeWord true 0b0101100000111001#16 = .ok (.adds3 .word 5#4 9#4) ∧
    decodeWord true 0b0101100010011001#16 = .ok (.subu3 .word 5#4 9#4) ∧
    decodeWord true 0b0101100010111001#16 = .ok (.subs3 .word 5#4 9#4) := by
  decide

/-- Rows 98 to 109 of spec/opcode_table.json. -/
theorem test_decode_named_forms :
    decodeWord false 0b0001010110110000#16 = .ok .ax ∧
    decodeWord false 0b0010010111110000#16 = .ok .di ∧
    decodeWord false 0b0010010110110000#16 = .ok .ei ∧
    decodeWord false 0b1000011101111001#16 = .ok (.not 9#4) ∧
    decodeWord false 0b1011011001111111#16 = .ok .ret ∧
    decodeWord false 0b1110011001111111#16 = .ok .retb ∧
    decodeWord false 0b1010011001111111#16 = .ok .reti ∧
    decodeWord false 0b0101111001101110#16 = .ok (.popR 5#4) ∧
    decodeWord false 0b0101111000111110#16 = .ok (.popP .ccr) ∧
    decodeWord true 0b0101111111101110#16 = .ok (.pushR 5#4) ∧
    decodeWord true 0b0101111001111110#16 = .ok (.pushP .ccr) ∧
    decodeWord false 0b0101011001010101#16 = .ok (.testR .word 5#4) := by
  decide

/-- The modes of a memory operand (R142 to R146, R150): `[R9]`, `[R9+]`, immediate, and after a
prefix md = 0 and md = 1. -/
theorem test_decode_modes :
    decodeWord false 0b0101101001011001#16 = .ok (.move .word (.simple (.indirect 9#4)) 5#4) ∧
    decodeWord false 0b0101111001011001#16 = .ok (.move .word (.simple (.autoinc 9#4)) 5#4) ∧
    decodeWord false 0b0101111001011111#16 = .ok (.move .word (.simple .immediate) 5#4) ∧
    decodeWord true 0b0101101001011001#16 = .ok (.move .word (.complex 9#4) 5#4) ∧
    decodeWord true 0b0101111001011001#16 = .ok (.move .word (.assign 9#4) 5#4) := by
  decide

/-- R114, R120: a register form after a prefix, and a reserved word. -/
theorem test_decode_refuses :
    decodeWord true 0b0101011000011001#16 = .error .prefixNotTaken ∧
    decodeWord false 0b0101010101111001#16 = .error .reserved := by
  decide

/-! ### One step of each instruction: the vectors of spec/95, by their ids, and cases worked from
the pages where the file has none of one step -/

/-- Vector J01 of spec/95. -/
theorem test_bcc : run [] [] 0x4 [] none 0x1000#32 32 0x50F3006
      [] [] []
    = some ([], [], [], 0x4#32, 0x1002#32) := by
  decide

/-- Vector A14 of spec/95. -/
theorem test_addq : run [(3, 0xFFFFFFC1#32)] [] 0x0 [] none 0x1000#32 16 0x323F
      [3] [] []
    = some ([0x0#32], [], [], 0x5#32, 0x1002#32) := by
  decide

/-- Vector M54 of spec/95. -/
theorem test_moveq : run [(3, 0x5#32)] [] 0x0 [] none 0x1000#32 16 0x327F
      [3] [] []
    = some ([0xFFFFFFFF#32], [], [], 0x8#32, 0x1002#32) := by
  decide

/-- Vector A62 of spec/95. -/
theorem test_subq : run [] [] 0x0 [] none 0x1000#32 16 0x3281
      [3] [] []
    = some ([0xFFFFFFFF#32], [], [], 0x9#32, 0x1002#32) := by
  decide

/-- Vector A31 of spec/95. -/
theorem test_cmpq : run [(2, 0xFFFFFFFF#32)] [] 0x0 [] none 0x1000#32 16 0x22FF
      [2] [] []
    = some ([0xFFFFFFFF#32], [], [], 0x4#32, 0x1002#32) := by
  decide

/-- Vector L05 of spec/95. -/
theorem test_andq : run [(3, 0xFFFFFFFF#32)] [] 0x0 [] none 0x1000#32 16 0x333E
      [3] [] []
    = some ([0xFFFFFFFE#32], [], [], 0x8#32, 0x1002#32) := by
  decide

/-- Vector L39 of spec/95. -/
theorem test_orq : run [(3, 0x1F#32)] [] 0x0 [] none 0x1000#32 16 0x3360
      [3] [] []
    = some ([0xFFFFFFFF#32], [], [], 0x8#32, 0x1002#32) := by
  decide

/-- Vector L18 of spec/95. -/
theorem test_btstq : run [(2, 0x80000000#32)] [] 0x3 [] none 0x1000#32 16 0x239F
      [2] [] []
    = some ([0x80000000#32], [], [], 0x8#32, 0x1002#32) := by
  decide

/-- Vector L12 of spec/95. -/
theorem test_asrq : run [(2, 0x80000000#32)] [] 0x0 [] none 0x1000#32 16 0x23BF
      [2] [] []
    = some ([0xFFFFFFFF#32], [], [], 0x8#32, 0x1002#32) := by
  decide

/-- Vector L25 of spec/95. -/
theorem test_lslq : run [(2, 0x3#32)] [] 0x0 [] none 0x1000#32 16 0x23DF
      [2] [] []
    = some ([0x80000000#32], [], [], 0x8#32, 0x1002#32) := by
  decide

/-- Vector L31 of spec/95. -/
theorem test_lsrq : run [(2, 0x80000000#32)] [] 0x0 [] none 0x1000#32 16 0x23FF
      [2] [] []
    = some ([0x1#32], [], [], 0x0#32, 0x1002#32) := by
  decide

/-- Vector A19 of spec/95. -/
theorem test_adduR : run [(1, 0x123456FF#32), (2, 0x10#32)] [] 0x0 [] none 0x1000#32 16 0x2401
      [1, 2] [] []
    = some ([0x123456FF#32, 0x10F#32], [], [], 0x0#32, 0x1002#32) := by
  decide

/-- Vector A16 of spec/95. -/
theorem test_addsR : run [(1, 0xFF#32), (2, 0x10#32)] [] 0x0 [] none 0x1000#32 16 0x2421
      [1, 2] [] []
    = some ([0xFF#32, 0xF#32], [], [], 0x1#32, 0x1002#32) := by
  decide

/-- Vector M66 of spec/95. -/
theorem test_movuR : run [(1, 0x12345600#32), (2, 0xFFFFFFFF#32)] [] 0x8 [] none 0x1000#32 16 0x2441
      [1, 2] [] []
    = some ([0x12345600#32, 0x0#32], [], [], 0x4#32, 0x1002#32) := by
  decide

/-- Vector M58 of spec/95. -/
theorem test_movsR : run [(1, 0x12345680#32)] [] 0x0 [] none 0x1000#32 16 0x2461
      [1, 2] [] []
    = some ([0x12345680#32, 0xFFFFFF80#32], [], [], 0x8#32, 0x1002#32) := by
  decide

/-- Vector A66 of spec/95. -/
theorem test_subuR : run [(1, 0xFF#32)] [] 0x0 [] none 0x1000#32 16 0x2481
      [1, 2] [] []
    = some ([0xFF#32, 0xFFFFFF01#32], [], [], 0x9#32, 0x1002#32) := by
  decide

/-- Vector A64 of spec/95. -/
theorem test_subsR : run [(1, 0xFF#32)] [] 0x0 [] none 0x1000#32 16 0x24A1
      [1, 2] [] []
    = some ([0xFF#32, 0x1#32], [], [], 0x1#32, 0x1002#32) := by
  decide

/-- Vector L20 of spec/95. -/
theorem test_lslR : run [(1, 0x4#32), (2, 0x8000001#32)] [] 0x0 [] none 0x1000#32 16 0x24E1
      [1, 2] [] []
    = some ([0x4#32, 0x80000010#32], [], [], 0x8#32, 0x1002#32) := by
  decide

/-- Vector A56 of spec/95. -/
theorem test_negR : run [(1, 0x80000000#32)] [] 0x0 [] none 0x1000#32 16 0x25A1
      [1, 2] [] []
    = some ([0x80000000#32, 0x80000000#32], [], [], 0xB#32, 0x1002#32) := by
  decide

/-- Vector A22 of spec/95. -/
theorem test_boundR : run [(1, 0xA#32), (2, 0xB#32)] [] 0x0 [] none 0x1000#32 16 0x25E1
      [1, 2] [] []
    = some ([0xA#32, 0xA#32], [], [], 0x0#32, 0x1002#32) := by
  decide

/-- Vector A06 of spec/95. -/
theorem test_addR : run [(1, 0x80000000#32), (2, 0x80000000#32)] [] 0x0 [] none 0x1000#32 16 0x2621
      [1, 2] [] []
    = some ([0x80000000#32, 0x0#32], [], [], 0x7#32, 0x1002#32) := by
  decide

/-- Vector A58 of spec/95. -/
theorem test_subR : run [(1, 0x1#32), (2, 0x12345600#32)] [] 0x0 [] none 0x1000#32 16 0x2681
      [1, 2] [] []
    = some ([0x1#32, 0x123456FF#32], [], [], 0x9#32, 0x1002#32) := by
  decide

/-- Vector A28 of spec/95. -/
theorem test_cmpR : run [(1, 0x80#32), (2, 0x7F#32)] [] 0x0 [] none 0x1000#32 16 0x26C1
      [1, 2] [] []
    = some ([0x80#32, 0x7F#32], [], [], 0xB#32, 0x1002#32) := by
  decide

/-- Vector L01 of spec/95. -/
theorem test_andR : run [(1, 0xF#32), (2, 0x123456F0#32)] [] 0x0 [] none 0x1000#32 16 0x2701
      [1, 2] [] []
    = some ([0xF#32, 0x12345600#32], [], [], 0x4#32, 0x1002#32) := by
  decide

/-- Vector L35 of spec/95. -/
theorem test_orR : run [(1, 0x80#32), (2, 0x12345601#32)] [] 0x0 [] none 0x1000#32 16 0x2741
      [1, 2] [] []
    = some ([0x80#32, 0x12345681#32], [], [], 0x8#32, 0x1002#32) := by
  decide

/-- Vector L07 of spec/95. -/
theorem test_asrR : run [(1, 0x4#32), (2, 0x80000000#32)] [] 0x0 [] none 0x1000#32 16 0x27A1
      [1, 2] [] []
    = some ([0x4#32, 0xF8000000#32], [], [], 0x8#32, 0x1002#32) := by
  decide

/-- Vector L29 of spec/95. -/
theorem test_lsrR : run [(1, 0x10#32), (2, 0x1234FFFF#32)] [] 0x0 [] none 0x1000#32 16 0x27D1
      [1, 2] [] []
    = some ([0x10#32, 0x12340000#32], [], [], 0x4#32, 0x1002#32) := by
  decide

/-- Vector A12 of spec/95. -/
theorem test_addi : run [(1, 0x3#32), (2, 0x2000#32)] [] 0xF [] none 0x1000#32 16 0x1522
      [1, 2] [] []
    = some ([0x3#32, 0x200C#32], [], [], 0xF#32, 0x1002#32) := by
  decide

/-- Vector F09 of spec/95. -/
theorem test_nop : run [] [] 0x1C [] none 0x1000#32 16 0x50F
      [] [] []
    = some ([], [], [], 0xC#32, 0x1002#32) := by
  decide

/-- Vector O03 of spec/95. -/
theorem test_biap : run [(5, 0x2000#32), (6, 0x2#32)] [] 0x9 [(0x2008, 0x88), (0x2009, 0x77),
      (0x200A, 0x66), (0x200B, 0x55)] none 0x1000#32 32 0x2A626565
      [5, 6] [] []
    = some ([0x2000#32, 0x2#32], [], [], 0x9#32, 0x1002#32) := by
  decide

/-- Vector L15 of spec/95. -/
theorem test_btst : run [(1, 0x23#32), (2, 0x8#32)] [] 0x0 [] none 0x1000#32 16 0x24F1
      [1, 2] [] []
    = some ([0x23#32, 0x8#32], [], [], 0x8#32, 0x1002#32) := by
  decide

/-- Vector A02 of spec/95. -/
theorem test_abs : run [(1, 0x80000000#32)] [] 0x0 [] none 0x1000#32 16 0x26B1
      [1, 2] [] []
    = some ([0x80000000#32, 0x80000000#32], [], [], 0x8#32, 0x1002#32) := by
  decide

/-- Vector A39 of spec/95. -/
theorem test_dstep : run [(1, 0x1#32), (2, 0x80000000#32)] [] 0x0 [] none 0x1000#32 16 0x26F1
      [1, 2] [] []
    = some ([0x1#32, 0x0#32], [], [], 0x4#32, 0x1002#32) := by
  decide

/-- Vector A43 of spec/95. -/
theorem test_lz : run [(1, 0x80000000#32), (2, 0x9#32)] [] 0x0 [] none 0x1000#32 16 0x2731
      [1, 2] [] []
    = some ([0x80000000#32, 0x0#32], [], [], 0x4#32, 0x1002#32) := by
  decide

/-- Vector L48 of spec/95. -/
theorem test_xor : run [(1, 0xFF00FF00#32), (2, 0xFF00FF0#32)] [] 0x0 [] none 0x1000#32 16 0x27B1
      [1, 2] [] []
    = some ([0xFF00FF00#32, 0xF0F0F0F0#32], [], [], 0x8#32, 0x1002#32) := by
  decide

/-- Vector A45 of spec/95. -/
theorem test_mstep : run [(1, 0x7#32), (2, 0x40000000#32)] [] 0x0 [] none 0x1000#32 16 0x27F1
      [1, 2] [] []
    = some ([0x7#32, 0x80000000#32], [], [], 0x8#32, 0x1002#32) := by
  decide

/-- Vector M74 of spec/95. -/
theorem test_scc : run [(3, 0xFFFFFFFF#32)] [] 0x4 [] none 0x1000#32 16 0x3533
      [3] [] []
    = some ([0x1#32], [], [], 0x4#32, 0x1002#32) := by
  decide

/-- Vector F13 of spec/95. -/
theorem test_setf : run [] [] 0x0 [] none 0x1000#32 16 0xF5BF
      [] [] []
    = some ([], [], [], 0xFF#32, 0x1002#32) := by
  decide

/-- Vector F03 of spec/95. -/
theorem test_clearf : run [] [] 0x7FF [] none 0x1000#32 16 0x5F0
      [] [] []
    = some ([], [], [], 0x1EF#32, 0x1002#32) := by
  decide

/-- Vector M27 of spec/95. -/
theorem test_moveRP : run [(1, 0xFFFFFFFF#32)] [] 0x0 [] none 0x1000#32 16 0x5631
      [1] [] []
    = some ([0xFFFFFFFF#32], [], [], 0x76F#32, 0x1002#32) := by
  decide

/-- Vector M38 of spec/95. -/
theorem test_movePR : run [(2, 0xAAAAAAAA#32)] [] 0x19 [] none 0x1000#32 16 0x5672
      [2] [] []
    = some ([0xAAAA0019#32], [], [], 0x9#32, 0x1002#32) := by
  decide

/-- Vector L45 of spec/95. -/
theorem test_swap : run [(3, 0x12345678#32)] [] 0x0 [] none 0x1000#32 16 0xF773
      [3] [] []
    = some ([0xE195D3B7#32], [], [], 0x8#32, 0x1002#32) := by
  decide

/-- Vector M01 of spec/95. -/
theorem test_clearR : run [(3, 0x12345678#32)] [] 0x1F [] none 0x1000#32 16 0x8673
      [3] [] []
    = some ([0x0#32], [], [], 0xF#32, 0x1002#32) := by
  decide

/-- Vector A20 of spec/95. -/
theorem test_addu : run [(1, 0x2000#32), (2, 0xFFFF0001#32)] [] 0x0 [(0x2000, 0xFF), (0x2001,
      0xFF)] none 0x1000#32 16 0x2C11
      [1, 2] [] []
    = some ([0x2002#32, 0x0#32], [], [], 0x5#32, 0x1002#32) := by
  decide

/-- Vector A17 of spec/95. -/
theorem test_adds : run [(1, 0x2000#32), (2, 0x10000#32)] [] 0x0 [(0x2001, 0x80)] none 0x1000#32
      16 0x2831
      [1, 2] [] []
    = some ([0x2000#32, 0x8000#32], [], [], 0x1#32, 0x1002#32) := by
  decide

/-- Vector M64 of spec/95. -/
theorem test_movu : run [(1, 0x2000#32)] [] 0x0 [(0x2000, 0xFF), (0x2001, 0xFF)] none 0x1000#32
      16 0x2C51
      [1, 2] [] []
    = some ([0x2002#32, 0xFFFF#32], [], [], 0x0#32, 0x1002#32) := by
  decide

/-- Vector M60 of spec/95. -/
theorem test_movs : run [(1, 0x2000#32)] [] 0x0 [(0x2000, 0xFF)] none 0x1000#32 16 0x2861
      [1, 2] [] []
    = some ([0x2000#32, 0xFFFFFFFF#32], [], [], 0x8#32, 0x1002#32) := by
  decide

/-- Vector A67 of spec/95. -/
theorem test_subu : run [(1, 0x2000#32), (2, 0x10000#32)] [] 0x0 [(0x2000, 0xFF), (0x2001, 0xFF)]
      none 0x1000#32 16 0x2C91
      [1, 2] [] []
    = some ([0x2002#32, 0x1#32], [], [], 0x0#32, 0x1002#32) := by
  decide

/-- Vector A35 of spec/95. -/
theorem test_cmpu : run [(1, 0x2000#32), (2, 0x7F#32)] [] 0x0 [(0x2000, 0x80)] none 0x1000#32 16
      0x28C1
      [1, 2] [] []
    = some ([0x2000#32, 0x7F#32], [], [], 0x9#32, 0x1002#32) := by
  decide

/-- Vector A34 of spec/95. -/
theorem test_cmps : run [(2, 0x7FFFFFFF#32)] [] 0x0 [] none 0x1000#32 32 0x80002CFF
      [2] [] []
    = some ([0x7FFFFFFF#32], [], [], 0xB#32, 0x1004#32) := by
  decide

/-- Vector A25 of spec/95. -/
theorem test_bound : run [(1, 0x2000#32), (2, 0xFFFFFFFF#32)] [] 0x0 [] none 0x1000#32 16 0x29E1
      [1, 2] [] []
    = some ([0x2000#32, 0x0#32], [], [], 0x4#32, 0x1002#32) := by
  decide

/-- Vector A07 of spec/95. -/
theorem test_add : run [(3, 0x2000#32), (4, 0x1#32)] [] 0x0 [(0x2000, 0xFF), (0x2001, 0xFF),
      (0x2002, 0xFF), (0x2003, 0x7F)] none 0x1000#32 16 0x4E23
      [3, 4] [] []
    = some ([0x2004#32, 0x80000000#32], [], [], 0xA#32, 0x1002#32) := by
  decide

/-- Vector O05 of spec/95. -/
theorem test_move : run [(5, 0x2000#32)] [] 0x0 [(0x207F, 0xEF), (0x2080, 0xBE)] (some 0x207F#32)
      0x1002#32 16 0x2A52
      [2, 5] [] []
    = some ([0xBEEF#32, 0x2000#32], [], [], 0x8#32, 0x1004#32) := by
  decide

/-- Vector A60 of spec/95. -/
theorem test_sub : run [(1, 0x2000#32), (2, 0x10005#32)] [] 0x0 [(0x2000, 0x5)] none 0x1000#32 16
      0x2A91
      [1, 2] [] []
    = some ([0x2000#32, 0x10000#32], [], [], 0x4#32, 0x1002#32) := by
  decide

/-- Vector A30 of spec/95. -/
theorem test_cmp : run [(1, 0x2000#32), (2, 0x1#32)] [] 0x0 [(0x2000, 0x2)] none 0x1000#32 16 0x2ED1
      [1, 2] [] []
    = some ([0x2002#32, 0x1#32], [], [], 0x9#32, 0x1002#32) := by
  decide

/-- Vector L03 of spec/95. -/
theorem test_and : run [(1, 0x2000#32), (2, 0xFFFF0000#32)] [] 0x0 [(0x2000, 0xFF), (0x2002,
      0xFF), (0x2003, 0x80)] none 0x1000#32 16 0x2F21
      [1, 2] [] []
    = some ([0x2004#32, 0x80FF0000#32], [], [], 0x8#32, 0x1002#32) := by
  decide

/-- Vector L37 of spec/95. -/
theorem test_or : run [(2, 0x10001#32)] [] 0x0 [] none 0x1000#32 32 0x80002F5F
      [2] [] []
    = some ([0x18001#32], [], [], 0x8#32, 0x1004#32) := by
  decide

/-- Vector A52 of spec/95. -/
theorem test_mulu : run [(1, 0xFFFFFFFF#32), (2, 0xFFFFFFFF#32)] [] 0x0 [] none 0x1000#32 16 0x2921
      [1, 2] [.mof] []
    = some ([0xFFFFFFFF#32, 0x1#32], [0xFFFFFFFE#32], [], 0xA#32, 0x1002#32) := by
  decide

/-- Vector A46 of spec/95. -/
theorem test_muls : run [(1, 0xFF#32), (2, 0x2#32)] [] 0x0 [] none 0x1000#32 16 0x2D01
      [1, 2] [.mof] []
    = some ([0xFF#32, 0xFFFFFFFE#32], [0xFFFFFFFF#32], [], 0x8#32, 0x1002#32) := by
  decide

/-- Vector J17 of spec/95. -/
theorem test_jump : run [(14, 0x3000#32)] [] 0x0 [(0x3001, 0x50)] none 0x1000#32 16 0xD3E
      [14] [] []
    = some ([0x3004#32], [], [], 0x0#32, 0x5000#32) := by
  decide

/-- Vector J15 of spec/95. -/
theorem test_jumpR : run [(3, 0x4000#32)] [] 0x18 [] none 0x1000#32 16 0x9B3
      [3] [] []
    = some ([0x4000#32], [], [], 0x8#32, 0x4000#32) := by
  decide

/-- Vector J29 of spec/95. -/
theorem test_jirc : run [(3, 0x2000#32)] [] 0x0 [(0x2001, 0x50)] none 0x1000#32 48 0xBBBBAAAA2933
      [3] [.irp] []
    = some ([0x2000#32], [0x1006#32], [], 0x0#32, 0x5000#32) := by
  decide

/-- Vector J28 of spec/95. -/
theorem test_jircR : run [(3, 0x4000#32)] [] 0x0 [] none 0x1000#32 48 0xBBBBAAAA29B3
      [3] [.irp] []
    = some ([0x4000#32], [0x1006#32], [], 0x0#32, 0x4000#32) := by
  decide

/-- Vector J27 of spec/95. -/
theorem test_jsrc : run [] [] 0x0 [] none 0x1000#32 80 0xBBBBAAAA000060003D3F
      [] [.srp] []
    = some ([], [0x100A#32], [], 0x0#32, 0x6000#32) := by
  decide

/-- Vector J26 of spec/95. -/
theorem test_jsrcR : run [(3, 0x4000#32)] [] 0x0 [] none 0x1000#32 48 0xBBBBAAAA39B3
      [3] [.srp] []
    = some ([0x4000#32], [0x1006#32], [], 0x0#32, 0x4000#32) := by
  decide

/-- Vector J31 of spec/95. -/
theorem test_jbrc : run [] [] 0x0 [] none 0x1000#32 80 0xBBBBAAAA000060006D3F
      [] [.brp] []
    = some ([], [0x100A#32], [], 0x0#32, 0x6000#32) := by
  decide

/-- Vector J30 of spec/95. -/
theorem test_jbrcR : run [(3, 0x4000#32)] [] 0x0 [] none 0x1000#32 48 0xBBBBAAAA69B3
      [3] [.brp] []
    = some ([0x4000#32], [0x1006#32], [], 0x0#32, 0x4000#32) := by
  decide

/-- Vector J25 of spec/95. -/
theorem test_jir : run [(3, 0x2000#32)] [] 0x0 [(0x2001, 0x50)] none 0x1000#32 16 0xA933
      [3] [.irp] []
    = some ([0x2000#32], [0x1002#32], [], 0x0#32, 0x5000#32) := by
  decide

/-- Vector J24 of spec/95. -/
theorem test_jirR : run [(3, 0x4000#32)] [] 0x0 [] none 0x1000#32 16 0xA9B3
      [3] [.irp] []
    = some ([0x4000#32], [0x1002#32], [], 0x0#32, 0x4000#32) := by
  decide

/-- Vector J23 of spec/95. -/
theorem test_jsr : run [(3, 0x2000#32)] [] 0x0 [(0x2001, 0x50)] none 0x1000#32 16 0xBD33
      [3] [.srp] []
    = some ([0x2004#32], [0x1002#32], [], 0x0#32, 0x5000#32) := by
  decide

/-- Vector J21 of spec/95. -/
theorem test_jsrR : run [(3, 0x4000#32)] [] 0x0 [] none 0x1000#32 16 0xB9B3
      [3] [.srp] []
    = some ([0x4000#32], [0x1002#32], [], 0x0#32, 0x4000#32) := by
  decide

/-- Vector J32 of spec/95. -/
theorem test_jmpu : run [(14, 0x3000#32)] [] 0x0 [(0x3001, 0x50)] none 0x1000#32 16 0x8D3E
      [14] [] []
    = some ([0x3004#32], [], [], 0x0#32, 0x5000#32) := by
  decide

/-- Vector F14 of spec/95. -/
theorem test_brk : run [] [(.ibr, 0xC0000000#32)] 0x10 [] none 0x1000#32 16 0xE938
      [] [.ibr, .brp] []
    = some ([], [0xC0000000#32, 0x1002#32], [], 0x400#32, 0xC0000040#32) := by
  decide

/-- Vector M32 of spec/95. -/
theorem test_moveSP : run [] [] 0x0 [] none 0x1000#32 32 0xF5E3F
      [] [] []
    = some ([], [], [], 0xF#32, 0x1004#32) := by
  decide

/-- Vector M42 of spec/95. -/
theorem test_movePD : run [(1, 0x2000#32)] [] 0x6 [(0x2000, 0xFF), (0x2001, 0xFF), (0x2002,
      0xFF), (0x2003, 0xFF)] none 0x1000#32 16 0x5E71
      [1] [] [0x2000#32, 0x2001#32]
    = some ([0x2002#32], [], [0x6#8, 0x0#8], 0x6#32, 0x1002#32) := by
  decide

/-- Vector M05 of spec/95. -/
theorem test_clear : run [(3, 0x2000#32)] [] 0x0 [(0x2000, 0xDD), (0x2001, 0xCC), (0x2002, 0xBB),
      (0x2003, 0xAA)] none 0x1000#32 16 0x4E73
      [3] [] [0x2000#32, 0x2001#32]
    = some ([0x2002#32], [], [0x0#8, 0x0#8], 0x0#32, 0x1002#32) := by
  decide

/-- Vector M81 of spec/95. -/
theorem test_test : run [(1, 0x2000#32)] [] 0x0 [] none 0x1000#32 16 0xFA1
      [1] [] []
    = some ([0x2004#32], [], [], 0x4#32, 0x1002#32) := by
  decide

/-- Vector M46 of spec/95. -/
theorem test_movemLoad : run [(5, 0x2000#32)] [] 0x0 [(0x2000, 0x22), (0x2004, 0x11), (0x2008,
      0xAA)] none 0x1000#32 16 0x2FB5
      [0, 1, 2, 5] [] []
    = some ([0xAA#32, 0x11#32, 0x22#32, 0x200C#32], [], [], 0x0#32, 0x1002#32) := by
  decide

/-- Vector M20 of spec/95. -/
theorem test_moveStore : run [(1, 0x2000#32), (2, 0x11223344#32)] [] 0xF [] none 0x1000#32 16 0x2BE1
      [1, 2] [] [0x2000#32, 0x2001#32, 0x2002#32, 0x2003#32]
    = some ([0x2000#32, 0x11223344#32], [], [0x44#8, 0x33#8, 0x22#8, 0x11#8], 0xF#32, 0x1002#32)
      := by
  decide

/-- Vector M52 of spec/95. -/
theorem test_movemStore : run [(0, 0xA0#32), (1, 0xA1#32), (2, 0xA2#32), (5, 0x2000#32)] [] 0x0
      [] none 0x1000#32 16 0x2FF5
      [0, 1, 2, 5] [] [0x2000#32, 0x2004#32, 0x2008#32]
    = some ([0xA0#32, 0xA1#32, 0xA2#32, 0x200C#32], [], [0xA2#8, 0xA1#8, 0xA0#8], 0x0#32,
      0x1002#32) := by
  decide

/-- Vector A11 of spec/95. -/
theorem test_add3 : run [(5, 0x2000#32), (6, 0x1F0#32), (7, 0xDEADBEEF#32)] [] 0x0 [(0x2008,
      0x20)] (some 0x2008#32) 0x1002#32 16 0x6A07
      [5, 6, 7] [] []
    = some ([0x2000#32, 0x1F0#32, 0xDEADBE10#32], [], [], 0x1#32, 0x1004#32) := by
  decide

/-- Vector A61 of spec/95. -/
theorem test_sub3 : run [(5, 0x2000#32), (6, 0xA#32)] [] 0x0 [(0x2008, 0x20)] (some 0x2008#32)
      0x1002#32 16 0x6AA7
      [5, 6, 7] [] []
    = some ([0x2000#32, 0xA#32, 0xFFFFFFEA#32], [], [], 0x9#32, 0x1004#32) := by
  decide

/-- Vector L04 of spec/95. -/
theorem test_and3 : run [(5, 0x2000#32), (6, 0xF0F0#32), (7, 0xDEADBEEF#32)] [] 0x0 [(0x2003,
      0xFF)] (some 0x2002#32) 0x1002#32 16 0x6B17
      [5, 6, 7] [] []
    = some ([0x2000#32, 0xF0F0#32, 0xDEADF000#32], [], [], 0x8#32, 0x1004#32) := by
  decide

/-- Vector L38 of spec/95. -/
theorem test_or3 : run [(5, 0x2000#32), (6, 0xF0#32)] [] 0x0 [(0x2002, 0xF)] (some 0x2002#32)
      0x1002#32 16 0x6B67
      [5, 6, 7] [] []
    = some ([0x2000#32, 0xF0#32, 0xFF#32], [], [], 0x0#32, 0x1004#32) := by
  decide

/-- Vector A26 of spec/95. -/
theorem test_bound3 : run [(5, 0x2000#32), (6, 0x12345#32)] [] 0x0 [(0x2002, 0xFF)] (some
      0x2002#32) 0x1002#32 16 0x69D7
      [5, 6, 7] [] []
    = some ([0x2000#32, 0x12345#32, 0xFF#32], [], [], 0x0#32, 0x1004#32) := by
  decide

/-- Vector A21 of spec/95. -/
theorem test_addu3 : run [(5, 0x2000#32), (6, 0x100#32)] [] 0x0 [(0x2002, 0xFF)] (some 0x2002#32)
      0x1002#32 16 0x6807
      [5, 6, 7] [] []
    = some ([0x2000#32, 0x100#32, 0x1FF#32], [], [], 0x0#32, 0x1004#32) := by
  decide

/-- Vector A18 of spec/95. -/
theorem test_adds3 : run [(5, 0x2000#32), (6, 0x100#32)] [] 0x0 [(0x2002, 0xFF), (0x2003, 0xFF)]
      (some 0x2002#32) 0x1002#32 16 0x6837
      [5, 6, 7] [] []
    = some ([0x2000#32, 0x100#32, 0xFF#32], [], [], 0x1#32, 0x1004#32) := by
  decide

/-- Vector A68 of spec/95. -/
theorem test_subu3 : run [(5, 0x2000#32), (6, 0x100#32)] [] 0x0 [(0x2002, 0xFF)] (some 0x2002#32)
      0x1002#32 16 0x6887
      [5, 6, 7] [] []
    = some ([0x2000#32, 0x100#32, 0x1#32], [], [], 0x0#32, 0x1004#32) := by
  decide

/-- Vector A65 of spec/95. -/
theorem test_subs3 : run [(5, 0x2000#32)] [] 0x0 [(0x2003, 0x80)] (some 0x2002#32) 0x1002#32 16
      0x68B7
      [5, 7] [] []
    = some ([0x2000#32, 0x8000#32], [], [], 0x1#32, 0x1004#32) := by
  decide

/-- Vector F01 of spec/95. -/
theorem test_ax : run [] [] 0x9 [] none 0x1000#32 16 0x15B0
      [] [] []
    = some ([], [], [], 0x19#32, 0x1002#32) := by
  decide

/-- Vector F07 of spec/95. -/
theorem test_di : run [] [] 0x7FF [] none 0x1000#32 16 0x25F0
      [] [] []
    = some ([], [], [], 0x1CF#32, 0x1002#32) := by
  decide

/-- Vector F08 of spec/95. -/
theorem test_ei : run [] [] 0x10 [] none 0x1000#32 16 0x25B0
      [] [] []
    = some ([], [], [], 0x20#32, 0x1002#32) := by
  decide

/-- Vector L33 of spec/95. -/
theorem test_not : run [(3, 0xFFFF#32)] [] 0x0 [] none 0x1000#32 16 0x8773
      [3] [] []
    = some ([0xFFFF0000#32], [], [], 0x8#32, 0x1002#32) := by
  decide

/-- Vector J39 of spec/95. -/
theorem test_ret : run [] [(.srp, 0x3000#32)] 0x0 [] none 0x1000#32 32 0x50FB67F
      [] [.srp] []
    = some ([], [0x3000#32], [], 0x0#32, 0x1002#32) := by
  decide

/-- Vector M67 of spec/95. -/
theorem test_popR : run [(14, 0x3000#32)] [] 0x0 [(0x3000, 0x1), (0x3003, 0x80)] none 0x1000#32
      16 0x3E6E
      [3, 14] [] []
    = some ([0x80000001#32, 0x3004#32], [], [], 0x8#32, 0x1002#32) := by
  decide

/-- Vector M69 of spec/95. -/
theorem test_popP : run [(14, 0x3000#32)] [] 0x0 [(0x3000, 0x2F)] none 0x1000#32 16 0x5E3E
      [14] [] []
    = some ([0x3002#32], [], [], 0x2F#32, 0x1002#32) := by
  decide

/-- Vector M70 of spec/95. -/
theorem test_pushR : run [(3, 0xCAFEBABE#32), (14, 0x3000#32)] [] 0x0 [] (some 0x2FFC#32)
      0x1002#32 16 0x3FEE
      [3, 14] [] [0x2FFC#32, 0x2FFD#32, 0x2FFE#32, 0x2FFF#32]
    = some ([0xCAFEBABE#32, 0x2FFC#32], [], [0xBE#8, 0xBA#8, 0xFE#8, 0xCA#8], 0x0#32, 0x1004#32)
      := by
  decide

/-- Vector M72 of spec/95. -/
theorem test_pushP : run [(14, 0x3000#32)] [] 0x9 [] (some 0x2FFE#32) 0x1002#32 16 0x5E7E
      [14] [] [0x2FFE#32]
    = some ([0x2FFE#32], [], [0x9#8], 0x9#32, 0x1004#32) := by
  decide

/-- Vector M10 of spec/95. -/
theorem test_testR : run [(1, 0x80000000#32), (2, 0x5#32)] [] 0x3 [] none 0x1000#32 16 0x2661
      [1, 2] [] []
    = some ([0x80000000#32, 0x80000000#32], [], [], 0x8#32, 0x1002#32) := by
  decide

/-- From the page of MOVE Rs,Rd (R302): the upper half stays, V and C are cleared. -/
theorem test_moveR : run [(1, 0x1234F00D#32), (2, 0xAAAAAAAA#32)] [] 0x3 [] none 0x1000#32 16 0x2651
      [1, 2] [] []
    = some ([0x1234F00D#32, 0xAAAAF00D#32], [], [], 0x8#32, 0x1002#32) := by
  decide

/-- From the page of SUBS (R225): 16 - (-1) = 17, with a borrow. -/
theorem test_subs : run [(1, 0x2000#32), (2, 0x10#32)] [] 0x0 [(0x2000, 0xFF)] none 0x1000#32 16
      0x28A1 [1, 2] [] []
    = some ([0x2000#32, 0x11#32], [], [], 0x1#32, 0x1002#32) := by
  decide

/-- From the page of Bcc with a 16-bit offset (R381): two words are consumed, X is cleared. -/
theorem test_bccW : run [] [] 0x14 [] none 0x1000#32 32 0x01003DFF [] [] []
    = some ([], [], [], 0x4#32, 0x1004#32) := by
  decide

/-- From the page of RETB (R390): the slot instruction comes first. -/
theorem test_retb : run [] [(.brp, 0x3000#32)] 0x0 [] none 0x1000#32 16 0xE67F [] [.brp] []
    = some ([], [0x3000#32], [], 0x0#32, 0x1002#32) := by
  decide

/-- From the page of RETI (R391). -/
theorem test_reti : run [] [(.irp, 0x3000#32)] 0x0 [] none 0x1000#32 16 0xA67F [] [.irp] []
    = some ([], [0x3000#32], [], 0x0#32, 0x1002#32) := by
  decide

/-- From the page of BDAP (R153): a prefix word keeps every flag, X among them. -/
theorem test_bdapQ : run [(5, 0x2000#32)] [] 0x1F [] none 0x1000#32 16 0x51FC [5] [] []
    = some ([0x2000#32], [], [], 0x1F#32, 0x1002#32) := by
  decide

/-- From the page of BDAP (R155): BDAP [R1+].W,R5. -/
theorem test_bdap : run [(1, 0x2000#32), (5, 0x3000#32)] [] 0x10 [(0x2000, 0x10)] none 0x1000#32 16
      0x5D51 [1, 5] [] []
    = some ([0x2002#32, 0x3000#32], [], [], 0x10#32, 0x1002#32) := by
  decide

/-- From the page of DIP (R156): DIP [R1+]. -/
theorem test_dip : run [(1, 0x2000#32)] [] 0x10 [] none 0x1000#32 16 0x0D71 [1] [] []
    = some ([0x2004#32], [], [], 0x10#32, 0x1002#32) := by
  decide

/-- From the page of SBFS (R359): the register moves by the sixteen bytes stored. -/
theorem test_sbfs : run [(1, 0x2000#32)] [] 0x1F [] none 0x1000#32 16 0x3F71 [1] [] []
    = some ([0x2010#32], [], [], 0xF#32, 0x1002#32) := by
  decide

/-- R24: an odd PC. -/
theorem test_odd_pc : step { State.reset with pc := 1#32 } = .refused .oddPc := rfl

/-- R462: a branch in a delay slot. -/
theorem test_branch_in_delay_slot :
    step { State.reset with delay := some ⟨.sequential, false⟩ } = .refused .invalidDelaySlot := rfl

/-- R83: the second byte of the instruction word was stored. -/
theorem test_stored_second_byte :
    step { State.reset with stored := [1] } = .refused .fetchOfStored := rfl

/-- R146: an immediate is read by MemRead. -/
theorem test_immediate_from_a_hole :
    exec (.move .word (.simple .immediate) 1#4) { State.reset with memMap := [⟨0, 3, .ram⟩] } =
      .fault (.busFault 3#32 .read) := rfl

/-- R72, R78: a fetch from an unmapped address; its kind is the model's choice (log 39). -/
theorem test_fetch_from_a_hole :
    step { State.reset with memMap := [⟨0, 1, .ram⟩] } = .fault (.busFault 1#32 .fetch) := rfl

/-! ### Witnesses: for every statement of Obligations.lean that has hypotheses, a concrete state and
operands that meet them all together, clause by clause at the edges of a clause's range -/

/-- The reset state with these general registers, and a prefix pending at 2000H. -/
def box (regs : List (GReg × Word)) (assignOk : Bool := true) : State :=
  regs.foldl (fun s p => s.setReg p.1 p.2) { State.reset with pfx := some ⟨0x2000#32, assignOk⟩ }

/-- A state with one word at address 0 and nothing pending but, perhaps, a delayed jump. -/
def atWord (w : Nat) (d : Option Delay := none) : State :=
  State.withFetchWord { State.reset with delay := d } 16 w

/-- The reset state with U set. -/
def userPending (d : Option Delay) (again : Bool) : State :=
  { State.reset with flags := { resetFlags with u := true }, delay := d, onceMore := again }

/-- MOVE.D R0,[R0] stores over its own word. -/
theorem witness_StepKeepsTheInvariant :
    ∃ t, StateInv (atWord 0x0BE0) ∧ step (atWord 0x0BE0) = .next t ∧ t.stored = [0, 1, 2, 3] :=
  ⟨_, ⟨by decide, by decide⟩, rfl, by decide⟩

theorem witness_DecodeOfEncodeIsTheInstruction :
    (Instr.moveStore .dword 15#4 (.simple (.autoinc 14#4))).wf = true ∧
    (Instr.addu3 .word 15#4 0#4).wf = true ∧ Instr.ret.wf = true := by
  decide

theorem witness_EncodeOfDecodeIsTheWord :
    decodeWord false 0xFFFF#16 = .ok (.movemStore 15#4 (.simple .immediate)) ∧
    decodeWord true 0x8800#16 = .ok (.addu3 .byte 8#4 0#4) := by
  decide

theorem witness_StepRunsTheDecodedInstruction :
    let s := atWord 0x050F
    let t := atWord 0x050F (some ⟨.addr 8#32, false⟩)
    (s.pc.getLsbD 0 = false ∧ Fetchable s s.pc 2 ∧
      decode s.pfx.isSome [s.byteAt s.pc, s.byteAt (s.pc + 1)] = .ok .nop ∧ s.delay = none) ∧
    t.pc.getLsbD 0 = false ∧ Fetchable t t.pc 2 ∧
      decode t.pfx.isSome [t.byteAt t.pc, t.byteAt (t.pc + 1)] = .ok .nop ∧
      slotValid .nop = true := by
  decide

theorem witness_StepRefusesWhatMayNotRun :
    (State.pc { State.reset with pc := 0xFFFFFFFF#32 }).getLsbD 0 = true ∧
    (let s := atWord 0x0570
     s.pc.getLsbD 0 = false ∧ Fetchable s s.pc 2 ∧
      decode s.pfx.isSome [s.byteAt s.pc, s.byteAt (s.pc + 1)] = .error .reserved) ∧
    (let s := box []
     s.pc.getLsbD 0 = false ∧ Fetchable s s.pc 2 ∧
      decode s.pfx.isSome [s.byteAt s.pc, s.byteAt (s.pc + 1)] = .error .prefixNotTaken) ∧
    (let s := atWord 0 (some ⟨.sequential, false⟩)
     s.pc.getLsbD 0 = false ∧ Fetchable s s.pc 2 ∧
      decode s.pfx.isSome [s.byteAt s.pc, s.byteAt (s.pc + 1)] = .ok (.bcc .cc 0#8) ∧
      s.delay ≠ none ∧ slotValid (.bcc .cc 0#8) = false) := by
  decide

/-- The reset state after stores to these addresses. -/
def marked (l : List Nat) : State := { State.reset with stored := l }

/-- A store that wraps around the top of the address space, a stored first and second byte of the
word at 0, and a stored first and last byte of an operand of each size at 2. -/
theorem witness_FetchOfAStoredByteIsRefused :
    (∃ t, writeMem .dword State.reset 0xFFFFFFFF#32 1#32 = .ok t ∧
      Within 0xFFFFFFFF#32 0xFFFFFFFF#32 4 ∧ Within 2#32 0xFFFFFFFF#32 4) ∧
    (marked [0]).pc.getLsbD 0 = false ∧ FetchMeetsStored (marked [0]) (marked [0]).pc 2 ∧
    (marked [1]).pc.getLsbD 0 = false ∧ FetchMeetsStored (marked [1]) (marked [1]).pc 2 ∧
    FetchMeetsStored (marked [2]) (marked [2]).npc0 Size.byte.bytes ∧
    FetchMeetsStored (marked [3]) (marked [3]).npc0 ZSize.word.size.bytes ∧
    FetchMeetsStored (marked [2]) (marked [2]).npc0 4 ∧
    FetchMeetsStored (marked [5]) (marked [5]).npc0 4 ∧
    specialSize .ccr = .ok .word ∧ FetchMeetsStored (marked [3]) (marked [3]).npc0 Size.word.bytes :=
  ⟨⟨_, rfl, ⟨0, by decide, by decide⟩, ⟨3, by decide, by decide⟩⟩, by decide, ⟨0, by decide⟩,
    by decide, ⟨1, by decide⟩, ⟨0, by decide⟩, ⟨1, by decide⟩, ⟨0, by decide⟩, ⟨3, by decide⟩, rfl,
    ⟨1, by decide⟩⟩

theorem witness_StoreThenLoadReturnsTheValue :
    ∃ t, Memory.wf State.reset.mem = true ∧
      writeMem .dword State.reset 0xFFFFFFFE#32 0x11223344#32 = .ok t ∧
      (3 < Size.dword.bytes) ∧ ¬ Within 2#32 0xFFFFFFFE#32 4 :=
  ⟨_, by decide, rfl, by decide, by unfold Within; decide⟩

/-- The first byte and the last byte of a dword unmapped. -/
theorem witness_FirstUnmappedByteFaults :
    (let s : State := { State.reset with memMap := [] }
     0 < Size.dword.bytes ∧ kindIn s.memMap (5#32 + 0#32).toNat = none ∧
      Readable s 5#32 0 ∧ Writable s 5#32 0 ∧ Fetchable s 5#32 0) ∧
    (let s : State := { State.reset with memMap := [⟨0, 8, .ram⟩] }
     3 < Size.dword.bytes ∧ kindIn s.memMap (5#32 + 3#32).toNat = none ∧
      Readable s 5#32 3 ∧ Writable s 5#32 3 ∧ Fetchable s 5#32 3) := by
  decide

theorem witness_CanonicalMemoriesAreEqualWhenTheyReadEqual :
    Memory.wf [(0, 1#8), (4294967295, 2#8)] = true ∧
    Memory.wf (Memory.write (Memory.write [] 4294967295 2#8) 0 1#8) = true ∧
    ∀ a, Memory.read [(0, 1#8), (4294967295, 2#8)] a =
      Memory.read (Memory.write (Memory.write [] 4294967295 2#8) 0 1#8) a :=
  ⟨by decide, by decide, fun _ => rfl⟩

theorem witness_OperandAddressesInEveryMode :
    (box []).pfx = some ⟨0x2000#32, true⟩ ∧ (box [] false).pfx = some ⟨0x2000#32, false⟩ ∧
    0#4 ≠ regOf 14 ∧ 15#4 ≠ regOf 14 := by
  decide

theorem witness_EveryInstructionDecidesX :
    (∃ t, exec (.bdapQ 1#8 0#4) State.reset = .next t ∧ isPrefixWord (.bdapQ 1#8 0#4) = true) ∧
    (∃ t, exec .ax State.reset = .next t) ∧
    (∃ t, exec (.setf axList) State.reset = .next t) ∧
    (∃ t, exec .nop { State.reset with flags := ⟨true, true, true, true, true, true, true, true,
      true, true, true⟩ } = .next t ∧ isPrefixWord .nop = false ∧ Instr.nop ≠ .ax ∧
      (∀ l, Instr.nop ≠ .setf l) ∧ ∀ o, Instr.nop ≠ .rbf o) :=
  ⟨⟨_, rfl, rfl⟩, ⟨_, rfl⟩, ⟨_, rfl⟩, ⟨_, rfl, rfl, by decide, nofun, nofun⟩⟩

theorem witness_InterruptWindowOpensForTheListedInstructions :
    (∃ t, exec .ei State.reset = .next t ∧ opensWindow .ei = true) ∧
    (∃ t, exec .nop { State.reset with flags := { resetFlags with i := true } } = .next t ∧
      t.maskableWindowOpen = true) :=
  ⟨⟨_, rfl, rfl⟩, ⟨_, rfl, rfl⟩⟩

theorem witness_SystemFlagsChangeOnlyByTheirWriters :
    (∃ t, exec (.clearf ⟨true, true, true, true, true, true, true, true⟩)
      { State.reset with flags := { resetFlags with m := true, p := true, f := true } } = .next t ∧
      t.flags.m = true ∧ t.flags.p ≠ true ∧ t.flags.f ≠ true) ∧
    (∃ t, exec (.setf ⟨true, true, true, false, false, false, false, false⟩) State.reset = .next t ∧
      t.flags.m ≠ State.reset.flags.m ∧ t.flags.i ≠ State.reset.flags.i ∧
      t.flags.b ≠ State.reset.flags.b) ∧
    (∃ t, exec (.moveRP 1#4 .dccr) (box [(1, 0x7FF#32)]) = .next t ∧
      t.flags.u ≠ (box []).flags.u ∧ t.flags.f ≠ (box []).flags.f ∧ t.flags.p ≠ (box []).flags.p) :=
  ⟨⟨_, rfl, by decide⟩, ⟨_, rfl, by decide⟩, ⟨_, rfl, by decide⟩⟩

theorem witness_ModeChangesOnlyWhereAllowed :
    (∃ t, exec (.brk 15#4) { State.reset with mode := .user } = .next t ∧
      t.mode = .supervisor) ∧
    (∃ t, exec (.jmpu (.simple (.indirect 0#4))) (userPending none false) = .next t ∧
      t.mode = .user) ∧
    (∃ t, exec .nop (userPending (some ⟨.addr 8#32, true⟩) false) = .next t ∧ t.mode = .user) ∧
    (∃ t, exec .nop (userPending none true) = .next t ∧ t.mode = .user) :=
  ⟨⟨_, rfl, rfl⟩, ⟨_, rfl, rfl⟩, ⟨_, rfl, rfl⟩, ⟨_, rfl, rfl⟩⟩

theorem witness_SpecialRegistersChangeOnlyByTheirWriters :
    (∃ t, exec (.muls .byte 1#4 1#4) (box [(1, 0x80#32)]) = .next t) ∧
    (∃ t, exec (.moveRP 1#4 .mof) (box [(1, 5#32)]) = .next t ∧ t.mof ≠ 0#32) ∧
    (∃ t, exec (.moveRP 1#4 .ibr) (box [(1, 5#32)]) = .next t ∧ t.ibr ≠ 0#32) ∧
    (∃ t, exec (.moveRP 1#4 .bar) (box [(1, 5#32)]) = .next t ∧ t.bar ≠ 0#32) ∧
    (∃ t, exec (.moveRP 1#4 .usp) (box [(1, 5#32)]) = .next t ∧ t.usp ≠ 0#32) ∧
    (∃ t, exec (.jirR 1#4) (box [(1, 6#32)]) = .next t ∧ t.irp ≠ 0#32) ∧
    (∃ t, exec (.jsrcR 1#4) (box [(1, 6#32)]) = .next t ∧ t.srp ≠ 0#32) ∧
    (∃ t, exec (.brk 0#4) (box []) = .next t ∧ t.brp ≠ 0#32) :=
  ⟨⟨_, rfl⟩, ⟨_, rfl, by decide⟩, ⟨_, rfl, by decide⟩, ⟨_, rfl, by decide⟩, ⟨_, rfl, by decide⟩,
    ⟨_, rfl, by decide⟩, ⟨_, rfl, by decide⟩, ⟨_, rfl, by decide⟩⟩

theorem witness_MemoryChangesOnlyByStores :
    ∃ t, exec (.move .dword (.complex 1#4) 1#4) (box []) = .next t ∧
      storesToMemory (.move .dword (.complex 1#4) 1#4) = false :=
  ⟨_, rfl, rfl⟩

theorem witness_DelayedJumpsHoldOffInterrupts :
    (∃ t, exec .ret State.reset = .next t ∧ (∀ o, Instr.ret ≠ .rbf o) ∧ t.delay ≠ none) ∧
    (∃ t, exec (.dip .immediate) State.reset = .next t ∧
      (∀ o, Instr.dip .immediate ≠ .rbf o) ∧ t.pfx ≠ none) :=
  ⟨⟨_, rfl, nofun, by decide⟩, ⟨_, rfl, nofun, by decide⟩⟩

/-- A NOP in the slot of a taken jump, of a branch not taken, and of a RETB with U set. -/
theorem witness_DelaySlotEndsTheDelayedJump :
    (∃ t, (atWord 0x050F (some ⟨.addr 0x40#32, false⟩)).delay = some ⟨.addr 0x40#32, false⟩ ∧
      (atWord 0x050F (some ⟨.addr 0x40#32, false⟩)).onceMore = false ∧
      decode false [0x0F#8, 0x05#8] = .ok .nop ∧ (∀ o, Instr.nop ≠ .rbf o) ∧
      step (atWord 0x050F (some ⟨.addr 0x40#32, false⟩)) = .next t ∧ t.pc = 0x40#32) ∧
    (∃ t, step (atWord 0x050F (some ⟨.sequential, false⟩)) = .next t ∧ t.pc = 2#32) ∧
    (∃ t, step { atWord 0x050F (some ⟨.addr 0x40#32, true⟩) with
        flags := { resetFlags with u := true } } = .next t ∧ t.mode = .user) :=
  ⟨⟨_, rfl, rfl, by decide, nofun, rfl, rfl⟩, ⟨_, rfl, rfl⟩, ⟨_, rfl, rfl⟩⟩

theorem witness_DivideAndMultiplyStepResults : (0 : GReg) ≠ 14 := by decide

/-- A source operand in each mode: immediate, `[R1]`, `[R1+]`, after a prefix word with the
destination R2 as Operand1, and with assign. -/
theorem witness_source_in_every_mode :
    SourceReads .byte (.mustBe (regOf 2)) (.simple .immediate) State.reset 0#8 none 4#32 ∧
    SourceReads .word (.mustBe (regOf 2)) (.simple (.indirect 1#4)) (box [(1, 0xFFFFFFFF#32)]) 0#16
      none 2#32 ∧
    SourceReads .dword (.mustBe (regOf 2)) (.simple (.autoinc 1#4)) (box [(1, 0xFFFFFFFF#32)])
      0#32 (some (1, 3#32)) 2#32 ∧
    SourceReads .dword (.mustBe (regOf 2)) (.complex 2#4) (box []) 0#32 none 2#32 ∧
    SourceReads .dword (.mustBe (regOf 2)) (.assign 1#4) (box []) 0#32 (some (1, 0x2000#32)) 2#32 :=
  ⟨.inl ⟨rfl, by decide, rfl, rfl, rfl⟩, .inr ⟨_, rfl, by decide, rfl, rfl⟩,
    .inr ⟨_, rfl, by decide, rfl, rfl⟩, .inr ⟨_, rfl, by decide, rfl, rfl⟩,
    .inr ⟨_, rfl, by decide, rfl, rfl⟩⟩

/-- With `witness_source_in_every_mode`, for every z and m size and every mode. -/
theorem witness_MemoryArithmeticResults :
    SourceReads .word (.mustBe (regOf 2)) (.simple (.autoinc 1#4)) (box [(1, 0x10#32)]) 0#16
      (some (1, 0x12#32)) 2#32 ∧ NotUpdated (some (1, 0x12#32)) 2 ∧
    SourceReads ZSize.byte.size (.mustBe (regOf 2)) (.assign 1#4) (box []) 0#8
      (some (1, 0x2000#32)) 2#32 ∧ NotUpdated (some (1, 0x2000#32)) 2 :=
  ⟨.inr ⟨_, rfl, by decide, rfl, rfl⟩, nofun, .inr ⟨_, rfl, by decide, rfl, rfl⟩, nofun⟩

theorem witness_MemoryLogicAndLoadResults :
    SourceReads .dword (.mustBe (regOf 2)) (.simple .immediate) State.reset 0#32 none 6#32 ∧
    NotUpdated none 2 ∧
    SourceReads ZSize.word.size (.mustBe (regOf 2)) (.complex 2#4) (box []) 0#16 none 2#32 ∧
    (13 : GReg) ≠ 14 ∧ Readable (box [(14, 0xFFFFFFFD#32)]) 0xFFFFFFFD#32 4 :=
  ⟨.inl ⟨rfl, by decide, rfl, rfl, rfl⟩, nofun, .inr ⟨_, rfl, by decide, rfl, rfl⟩, by decide,
    by decide⟩

/-- The compared register is the one autoincrement updates. -/
theorem witness_MemoryCompareResults :
    SourceReads .dword .ignored (.simple (.autoinc 2#4)) (box [(2, 8#32)]) 0#32
      (some (2, 12#32)) 2#32 ∧ regAfter (box [(2, 8#32)]) (some (2, 12#32)) 2 = 12#32 ∧
    SourceReads ZSize.byte.size .ignored (.simple .immediate) State.reset 0#8 none 4#32 :=
  ⟨.inr ⟨_, rfl, by decide, rfl, rfl⟩, rfl, .inl ⟨rfl, by decide, rfl, rfl, rfl⟩⟩

theorem witness_ThreeOperandResults :
    (box []).pfx = some ⟨0x2000#32, true⟩ ∧ Readable (box []) 0x2000#32 4 ∧
    (box [] false).pfx = some ⟨0x2000#32, false⟩ ∧
    Readable (box [] false) 0x2000#32 ZSize.word.size.bytes := by
  decide

/-- A destination in each mode, at the top of the address space, and PUSH. -/
theorem witness_StoreResults :
    (let s := box [(1, 0xFFFFFFFE#32)]
     Memory.wf s.mem = true ∧
      place .ignored (Size.amount .dword) s (.simple (.indirect 1#4)) =
        .ok ⟨0xFFFFFFFE#32, none⟩ ∧
      place .ignored (Size.amount .dword) s (.simple (.autoinc 1#4)) =
        .ok ⟨0xFFFFFFFE#32, some (1, 2#32)⟩ ∧
      place .ignored (Size.amount .dword) s (.complex 9#4) = .ok ⟨0x2000#32, none⟩ ∧
      place .ignored (Size.amount .dword) s (.assign 1#4) =
        .ok ⟨0x2000#32, some (1, 0x2000#32)⟩ ∧
      Writable s 0xFFFFFFFE#32 4 ∧ Writable s 0x2000#32 4) ∧
    NotUpdated (some (1, 2#32)) 0 ∧ specialSize .srp = .ok .dword ∧
    (Memory.wf (box []).mem = true ∧ (box []).pfx = some ⟨0x2000#32, true⟩ ∧ (0 : GReg) ≠ 14 ∧
      Writable (box []) 0x2000#32 4 ∧ specialSize .ccr = .ok .word ∧
      Writable (box []) 0x2000#32 2) :=
  ⟨by decide, nofun, rfl, by decide⟩

theorem witness_SpecialRegisterWriteResults :
    specialSize .ccr = .ok .word ∧ specialSize .vr = .ok .byte ∧ specialSize .usp = .ok .dword ∧
    SourceReads .dword .ignored (.simple (.autoinc 1#4)) (box [(1, 8#32)]) 0#32
      (some (1, 12#32)) 2#32 ∧
    Readable (box [(14, 0xFFFFFFFE#32)]) 0xFFFFFFFE#32 4 ∧ SpecialReg.p6 ∈ [.p2, .p3, .p6] :=
  ⟨rfl, rfl, rfl, .inr ⟨_, rfl, by decide, rfl, rfl⟩, by decide, by decide⟩

theorem witness_SpecialRegisterReadResults :
    specialSize .p0 = .ok .byte ∧ specialSize .ccr = .ok .word ∧ specialSize .mof = .ok .dword :=
  ⟨rfl, rfl, rfl⟩

/-- All fifteen registers, and R3 to R13 after a restart at R3 with `[SP+]`. -/
theorem witness_MovemLoadResults :
    (place .ignored (BitVec.ofNat 32 (4 * 15)) (box [(1, 0x100#32)]) (.simple (.indirect 1#4)) =
        .ok ⟨0x100#32, none⟩ ∧
      ∀ k : GReg, Readable (box []) (0x100#32 + BitVec.ofNat 32 (4 * (14 - k.val))) 4) ∧
    (let s : State := { box [(14, 0x100#32)] with resumeAt := some 3 }
     place .ignored (BitVec.ofNat 32 (4 * 14)) s (.simple (.autoinc 14#4)) =
        .ok ⟨0x100#32, some (14, 0x138#32)⟩ ∧
      (∀ g v, some ((14 : GReg), 0x138#32) = some (g, v) → (13 : GReg) < g) ∧
      ((List.finRange 15).filter fun k => decide (k ≤ 13 ∧ ∀ n ∈ s.resumeAt, k ≤ n)) =
        [0, 1, 2, 3] ∧
      ∀ k : GReg, k ≤ 3 → Readable s (0x100#32 + BitVec.ofNat 32 (4 * (13 - k.val))) 4) :=
  ⟨by decide, by decide, by rintro _ _ ⟨rfl, rfl⟩; decide, by decide, by decide⟩

theorem witness_MovemStoreResults :
    Memory.wf (box []).mem = true ∧
    (place .ignored (BitVec.ofNat 32 (4 * 15)) (box [(1, 0x100#32)]) (.simple (.indirect 1#4)) =
        .ok ⟨0x100#32, none⟩ ∧
      ∀ k : GReg, Writable (box []) (0x100#32 + BitVec.ofNat 32 (4 * (14 - k.val))) 4) ∧
    place .ignored (BitVec.ofNat 32 4) (box []) (.assign 1#4) =
        .ok ⟨0x2000#32, some (1, 0x2000#32)⟩ ∧
      (∀ g v, some ((1 : GReg), 0x2000#32) = some (g, v) → (0 : GReg) < g) ∧
      Writable (box []) 0x2000#32 4 :=
  ⟨by decide, by decide, by decide, by rintro _ _ ⟨rfl, rfl⟩; decide, by decide⟩

theorem witness_BreakTakesTheTrap : State.reset.delay = none ∧ State.reset.onceMore = false :=
  ⟨rfl, rfl⟩

/-- BREAK 15 from user mode. -/
theorem witness_BreakThenRetbReturns :
    ∃ t u w, State.delay { State.reset with mode := .user } = none ∧
      State.onceMore { State.reset with mode := .user } = false ∧
      exec (.brk 15#4) { State.reset with mode := .user } = .next t ∧ exec .retb t = .next u ∧
      exec .nop u = .next w ∧ w.mode = .user ∧ w.pc = 2#32 :=
  ⟨_, _, _, rfl, rfl, rfl, rfl, rfl, rfl, rfl⟩

/-- The 16-bit offsets 7FFEH and 7FFFH. -/
theorem witness_BranchResults :
    (let s := State.withFetchWord State.reset 32 0x7FFE3DFF
     s.delay = none ∧ Fetchable s s.npc0 2 ∧ (s.load .word s.npc0).getLsbD 0 = false) ∧
    (let s := State.withFetchWord State.reset 32 0x7FFF3DFF
     s.delay = none ∧ Fetchable s s.npc0 2 ∧ (s.load .word s.npc0).getLsbD 0 = true) := by
  decide

theorem witness_DelayedReturnResults :
    State.reset.delay = none ∧ specialSize .brp = .ok .dword ∧ specialSize .ccr = .ok .word ∧
    Size.word ≠ .dword :=
  ⟨rfl, rfl, rfl, by decide⟩

theorem witness_ImmediateJumpResults :
    State.reset.delay = none ∧
    SourceReads .dword .ignored (.simple .immediate) State.reset 0#32 none 6#32 ∧
    (box [(1, 8#32)]).delay = none ∧
    SourceReads .dword .ignored (.simple (.autoinc 1#4)) (box [(1, 8#32)]) 0#32
      (some (1, 12#32)) 2#32 :=
  ⟨rfl, .inl ⟨rfl, by decide, rfl, rfl, rfl⟩, rfl, .inr ⟨_, rfl, by decide, rfl, rfl⟩⟩

theorem witness_JumpToUserResults :
    (box []).delay = none ∧ MemOperand.complex 3#4 ≠ .simple .immediate ∧
    SourceReads .dword (.mustBe 3#4) (.complex 3#4) (box []) 0#32 none 2#32 :=
  ⟨rfl, by decide, .inr ⟨_, rfl, by decide, rfl, rfl⟩⟩

theorem witness_ReturnFromBusFaultRestores :
    (box []).delay = none ∧ (box []).onceMore = false ∧
    place (.mustBe 0#4) 16#32 (box []) (.complex 0#4) = .ok ⟨0x2000#32, none⟩ ∧
    place (.mustBe 0#4) 16#32 (box [(1, 0xFFFFFFF8#32)]) (.simple (.autoinc 1#4)) =
      .ok ⟨0xFFFFFFF8#32, some (1, 8#32)⟩ ∧
    Readable (box []) 0x2000#32 16 ∧ Readable (box []) 0xFFFFFFF8#32 16 := by
  decide

theorem witness_SaveBusFaultStatusStores :
    Memory.wf (box []).mem = true ∧
    place (.mustBe 0#4) 16#32 (box []) (.assign 1#4) = .ok ⟨0x2000#32, some (1, 0x2000#32)⟩ ∧
    Writable (box []) 0x2000#32 16 ∧ ¬ Within 0x2010#32 0x2000#32 16 :=
  ⟨by decide, by decide, by decide, by unfold Within; decide⟩

theorem witness_PrefixWordResults :
    State.reset.delay = none ∧
    SourceReads .word .ignored (.simple (.autoinc 1#4)) State.reset 0#16 (some (1, 2#32)) 2#32 ∧
    NotUpdated (some (1, 2#32)) 0 ∧
    SourceReads .dword .ignored (.simple .immediate) State.reset 0#32 none 6#32 :=
  ⟨rfl, .inr ⟨_, rfl, by decide, rfl, rfl⟩, nofun, .inl ⟨rfl, by decide, rfl, rfl, rfl⟩⟩

theorem witness_RegisterFifteenIsRefused :
    (0#4 ≠ pcReg ∧ 14#4 ≠ pcReg) ∧ specialSize .p0 = .ok .byte ∧ specialSize .usp = .ok .dword :=
  ⟨by decide, rfl, rfl⟩

theorem witness_OneRegisterInTwoRolesIsRefused :
    MemOperand.assign (regOf 14) ∈ [MemOperand.simple (.autoinc (regOf 14)), .assign (regOf 14)] ∧
    (14 : GReg) ≤ 14 ∧ (0 : GReg) ≤ 14 := by
  decide

theorem witness_PopReturnsWhatPushStored :
    let s : State := { State.reset with regs := Vector.replicate 15 2#32 }
    Memory.wf s.mem = true ∧ s.delay = none ∧ (0 : GReg) ≠ 14 ∧ (13 : GReg) ≠ 14 ∧
    Writable s (s.reg 14 - 4) 4 := by
  decide

end Sys2Proof.Tests
end

section
/-! PROOFS. The statements about the state as a whole: reset, what a step runs and refuses, the flag
register, who may change which flag, special register and mode, how an instruction ends, the moves
to and from special registers, and register 15. -/

namespace Sys2Proof.Machine

/-! ### Stops -/

theorem outcome_refused {r : Res State} {q : Refusal} :
    outcome r = .refused q ↔ r = refuse q := by
  unfold outcome refuse
  split <;> simp_all

/-- A computation that begins with a refusal is that refusal. -/
@[simp] theorem refuse_bind {α β : Type} (q : Refusal) (f : α → Res β) :
    (refuse q >>= f) = refuse q := rfl

@[simp] theorem ok_bind {α β : Type} (a : α) (f : α → Res β) :
    ((Except.ok a : Res α) >>= f) = f a := rfl

@[simp] theorem require_false (q : Refusal) : require false q = refuse q := rfl

@[simp] theorem require_true (q : Refusal) : require true q = .ok () := rfl

/-! ### The end of an instruction -/

/-- The window flag after an instruction says whether it is one of those that open the window. -/
theorem exec_inhibit {i : Instr} {s t : State} (e : exec i s = .next t) :
    t.inhibit = opensWindow i := by
  obtain ⟨u, fl, rfl, f⟩ := exec_facts e
  exact f.window

/-- X after an instruction is what the instruction decides, where it decides it (R46). -/
theorem exec_x {i : Instr} {s t : State} {b : Bool} (e : exec i s = .next t)
    (h : decidedX i s = some b) : t.flags.x = b := by
  obtain ⟨u, fl, rfl, f⟩ := exec_facts e
  rw [finish_flags]
  exact f.x b h

theorem decidedX_prefixWord {i : Instr} (s : State) (h : isPrefixWord i = true) :
    decidedX i s = some s.flags.x := by
  unfold isPrefixWord at h
  split at h
  case h_5 => cases h
  all_goals rfl

theorem decidedX_other {i : Instr} (s : State) (hp : isPrefixWord i = false) (ha : i ≠ .ax)
    (hs : ∀ l, i ≠ .setf l) (hr : NotRbf i) : decidedX i s = some false := by
  unfold decidedX
  split
  · exact absurd rfl ha
  · exact absurd rfl (hs _)
  · exact absurd rfl (hr _)
  · cases hp
  · cases hp
  · cases hp
  · cases hp
  · rfl

/-- After an instruction other than RBF a delayed jump is pending only if the instruction opens the
window: one that was pending before has been made. -/
theorem exec_delay_opensWindow {i : Instr} {s t : State} (e : exec i s = .next t) (hr : NotRbf i)
    (hd : t.delay ≠ none) : opensWindow i = true := by
  obtain ⟨u, fl, rfl, f⟩ := exec_facts e
  refine f.delayed hr fun h => hd ?_
  rw [finish_delay, h]
  cases u.delay <;> rfl

theorem exec_pfx_isPrefixWord {i : Instr} {s t : State} (e : exec i s = .next t) (hr : NotRbf i)
    (hp : t.pfx ≠ none) : isPrefixWord i = true := by
  obtain ⟨u, fl, rfl, f⟩ := exec_facts e
  exact f.pfx hr (by rwa [finish_pfx] at hp)

/-- Settles O17: X after an instruction is `decidedX`, read off for each kind of instruction. -/
theorem everyInstructionDecidesX : Obligations.EveryInstructionDecidesX := by
  intro i s t e
  refine ⟨fun h => exec_x e (decidedX_prefixWord s h), ?_, ?_,
    fun hp ha hs hr => exec_x e (decidedX_other s hp ha hs hr)⟩
  · rintro rfl; exact exec_x e rfl
  · rintro l rfl; exact exec_x e rfl

/-- Settles O18: the window flag says whether the instruction is in the list (`exec_inhibit`); the
rest is what an open window means. -/
theorem interruptWindowOpensForTheListedInstructions :
    Obligations.InterruptWindowOpensForTheListedInstructions := by
  intro i s t e
  have h := exec_inhibit e
  refine ⟨h, ?_, ?_⟩
  · simp [State.interruptWindowOpen, h, and_assoc]
  · simp [State.maskableWindowOpen]

/-- Settles O23: an instruction that asks for a delayed jump is one that opens the window. -/
theorem delayedJumpsHoldOffInterrupts : Obligations.DelayedJumpsHoldOffInterrupts := by
  intro i s t e hr
  exact ⟨fun hd => (exec_inhibit e).trans (exec_delay_opensWindow e hr hd),
    exec_pfx_isPrefixWord e hr⟩

/-! ### Who may change what -/

/-- Settles O19: the end of the cycle touches no flag but X, so what holds of the instruction's own
writes holds of the state after it. -/
theorem systemFlagsChangeOnlyByTheirWriters : Obligations.SystemFlagsChangeOnlyByTheirWriters := by
  intro i s t e
  obtain ⟨u, fl, rfl, f⟩ := exec_facts e
  rw [finish_flags]
  exact ⟨f.flagM.1, f.flagM.2, f.flagU, f.flagF, f.flagP, f.flagI, f.flagB⟩

/-- Settles O21: the end of the cycle touches no special register. -/
theorem specialRegistersChangeOnlyByTheirWriters :
    Obligations.SpecialRegistersChangeOnlyByTheirWriters := by
  intro i s t e
  obtain ⟨u, fl, rfl, f⟩ := exec_facts e
  rw [finish_mof, finish_ibr, finish_bar, finish_usp, finish_irp, finish_srp, finish_brp]
  exact ⟨f.mof, f.ibr, f.bar, f.usp, f.irp, f.srp, f.brp⟩

/-- Settles O20: either the check at the end of the cycle made the mode user, or the mode is the one
the instruction itself set. -/
theorem modeChangesOnlyWhereAllowed : Obligations.ModeChangesOnlyWhereAllowed := by
  intro i s t e n
  obtain ⟨u, fl, rfl, f⟩ := exec_facts e
  rw [finish_mode] at n
  rw [finish_mode, finish_flags]
  cases h : u.flags.u && checkDue u with
  | true =>
    obtain ⟨hu, hc⟩ := Bool.and_eq_true_iff.mp h
    exact .inr (.inr ⟨rfl, hu, f.due hc⟩)
  | false =>
    rw [h] at n
    exact (f.mode n).elim .inl fun k => .inr (.inl k)

/-! ### The delay slot -/

/-- What may stand in a delay slot leaves the mode to the end of the cycle, RBF apart. -/
theorem Facts.mode_slot {i : Instr} {s u : State} {fl : Flow} (f : Facts i s u fl)
    (hv : slotValid i = true) (hr : NotRbf i) : u.mode = s.mode := by
  by_contra n
  rcases f.mode n with ⟨-, k, rfl⟩ | ⟨-, -, ⟨o, rfl⟩ | ⟨o, rfl⟩⟩
  · cases hv
  · cases hv
  · exact hr o rfl

/-- Settles O24: the step is the slot instruction, which leaves the pending jump to the end of its
cycle, where `finish` makes it. -/
theorem delaySlotEndsTheDelayedJump : Obligations.DelaySlotEndsTheDelayedJump := by
  intro s t d i hd ho hi hr h
  obtain ⟨j, hj, e⟩ := step_next h
  obtain ⟨-, -, hj, hv⟩ := fetchInstr_ok.mp hj
  obtain rfl : i = j := Except.ok.inj (hi.symm.trans hj)
  have hv : slotValid i = true := hv.resolve_left (by simp [hd])
  obtain ⟨u, fl, rfl, f⟩ := exec_facts e
  have hu : u.delay = some d := (f.delay hr).trans hd
  have hc : checkDue u = d.userCheck := by simp [checkDue, hu, f.onceMore, ho]
  refine ⟨by rw [finish_delay, hu], ?_, ?_⟩
  · rw [finish_pc, hu, f.slot hv hr]; rfl
  · rw [finish_mode, finish_flags, hc, f.mode_slot hv hr, Bool.and_comm]

/-! ### Reset -/

/-- Settles O1: each part is read off the reset state. -/
theorem resetLeavesTheRequiredState : Obligations.ResetLeavesTheRequiredState :=
  ⟨rfl, rfl, rfl, rfl, rfl, rfl, rfl, rfl, rfl, rfl, rfl, rfl⟩

/-- Settles O2: memory and the list of stored addresses are empty. -/
theorem resetSatisfiesTheInvariant : Obligations.ResetSatisfiesTheInvariant := ⟨rfl, rfl⟩

/-! ### What a step runs and what it refuses -/

theorem step_of_fetch_ok {s : State} {i : Instr} (h : fetchInstr s = .ok i) :
    step s = exec i s := by
  rw [step, h]

theorem step_of_fetch_refused {s : State} {q : Refusal} (h : fetchInstr s = refuse q) :
    step s = .refused q := by
  rw [step, h]; rfl

theorem fetchInstr_odd {s : State} (h : s.pc.getLsbD 0 = true) : fetchInstr s = refuse .oddPc := by
  rw [fetchInstr, h]; rfl

theorem fetchBytes_ok {s : State} {a : Word} (h : Fetchable s a 2) :
    fetchBytes s a = .ok [s.byteAt a, s.byteAt (a + 1)] := by
  rw [fetchBytes, (accessAll_fetches_ok rfl).mpr h]; rfl

/-- A word that does not decode. -/
theorem fetchInstr_undecoded {s : State} {x : DecodeError} (hp : s.pc.getLsbD 0 = false)
    (hf : Fetchable s s.pc 2)
    (hd : decode s.pfx.isSome [s.byteAt s.pc, s.byteAt (s.pc + 1)] = .error x) :
    fetchInstr s = refuse (decodeRefusal x) := by
  simp only [fetchInstr, hp, fetchBytes_ok hf, hd, Bool.not_false, require_true, ok_bind]

/-- An instruction in a delay slot that may not stand there. -/
theorem fetchInstr_slotInvalid {s : State} {i : Instr} (hp : s.pc.getLsbD 0 = false)
    (hf : Fetchable s s.pc 2)
    (hd : decode s.pfx.isSome [s.byteAt s.pc, s.byteAt (s.pc + 1)] = .ok i) (hj : s.delay ≠ none)
    (hv : slotValid i = false) : fetchInstr s = refuse .invalidDelaySlot := by
  have hn : s.delay.isNone = false :=
    Option.isNone_eq_false_iff.mpr (Option.isSome_iff_ne_none.mpr hj)
  simp only [fetchInstr, hp, fetchBytes_ok hf, hd, hn, hv, Bool.not_false, Bool.or_self,
    require_true, require_false, ok_bind, refuse_bind]

/-- Settles O8: the word fetched is the instruction (`fetchInstr_ok`). -/
theorem stepRunsTheDecodedInstruction : Obligations.StepRunsTheDecodedInstruction := by
  intro s i hp hf hd hv
  exact step_of_fetch_ok (fetchInstr_ok.mpr ⟨hp, hf, hd, hv⟩)

/-- Settles O9: each case stops the fetch under its own name. -/
theorem stepRefusesWhatMayNotRun : Obligations.StepRefusesWhatMayNotRun := by
  intro s
  refine ⟨fun h => step_of_fetch_refused (fetchInstr_odd h), fun hp hf => ⟨?_, ?_, ?_⟩⟩
  · exact fun hd => step_of_fetch_refused (fetchInstr_undecoded hp hf hd)
  · exact fun hd => step_of_fetch_refused (fetchInstr_undecoded hp hf hd)
  · exact fun i hd hj hv => step_of_fetch_refused (fetchInstr_slotInvalid hp hf hd hj hv)

/-! ### The flags -/

/-! The four signed conditions: the table's sums of products over N and V compare the two. -/

theorem condHolds_ge (fl : Flags) : condHolds .ge fl = (fl.n == fl.v) := by
  simp only [condHolds]
  cases fl.n <;> cases fl.v <;> rfl

theorem condHolds_lt (fl : Flags) : condHolds .lt fl = (fl.n != fl.v) := by
  simp only [condHolds]
  cases fl.n <;> cases fl.v <;> rfl

theorem condHolds_gt (fl : Flags) : condHolds .gt fl = (fl.n == fl.v && !fl.z) := by
  simp only [condHolds]
  cases fl.n <;> cases fl.v <;> simp

theorem condHolds_le (fl : Flags) : condHolds .le fl = (fl.z || fl.n != fl.v) := by
  simp only [condHolds]
  cases fl.n <;> cases fl.v <;> simp

/-- Settles O11: row by row; the rows over both N and V by their lemmas above. -/
theorem conditionCodesFollowTheTable : Obligations.ConditionCodesFollowTheTable := fun fl =>
  ⟨rfl, rfl, rfl, rfl, rfl, rfl, rfl, rfl, rfl, rfl, condHolds_ge fl, condHolds_lt fl,
    condHolds_gt fl, condHolds_le fl, rfl, rfl⟩

/-- Appending a low bit to a word puts it first in the list of the word's bits. -/
theorem getLsbD_append_ofBool {w : Nat} {x : BitVec w} {l : List Bool} (b : Bool)
    (h : ∀ k, x.getLsbD k = l.getD k false) (k : Nat) :
    (x ++ BitVec.ofBool b).getLsbD k = (b :: l).getD k false := by
  rw [BitVec.getLsbD_append]
  cases k with
  | zero =>
    rw [if_pos Nat.zero_lt_one, BitVec.getLsbD_ofBool, decide_eq_true rfl, Bool.true_and]
    rfl
  | succ k =>
    rw [if_neg (Nat.not_lt.mpr (Nat.le_add_left 1 k)), Nat.add_sub_cancel, h]
    rfl

/-- The bits of the flag register, from C at bit 0 to F at bit 10. -/
theorem Flags.read_getLsbD (fl : Flags) : ∀ k, fl.read.getLsbD k =
    [fl.c, fl.v, fl.z, fl.n, fl.x, fl.i, fl.b, fl.m, fl.u, fl.p, fl.f].getD k false := by
  unfold Flags.read
  iterate 11 apply getLsbD_append_ofBool
  exact fun _ => BitVec.getLsbD_zero

/-- Settles O12: reading bit by bit; CCR and DCCR are one view, and the write is its definition. -/
theorem flagRegisterReadsAndWrites : Obligations.FlagRegisterReadsAndWrites :=
  ⟨fun s => s.flags.read_getLsbD, fun _ => rfl, fun _ _ => rfl⟩

/-! ### Moves to and from special registers -/

/-- POP of size `m` has its operand at SP and steps SP by the size. -/
theorem sourceReads_pop {m : Size} {s : State} (h : Readable s (s.reg 14) m.bytes) :
    SourceReads m .ignored (.simple (.autoinc spReg)) s (s.load m (s.reg 14))
      (some (14, s.reg 14 + BitVec.ofNat 32 m.bytes)) s.npc0 :=
  .inr ⟨s.reg 14, place_ok.mpr (.inr (.inl ⟨14, rfl, rfl⟩)), h, rfl, rfl⟩

theorem toSpecial_next {o : MemOperand} {s : State} {pd : SpecialReg} {m : Size}
    {v : BitVec m.bits} {upd : Option (GReg × Word)} {npc : Word} (hm : specialSize pd = .ok m)
    (h : SourceReads m .ignored o s v upd npc) : outcome (toSpecialForm o pd s) =
      .next (finish (((Place.mk 0#32 upd).commit s).setSpecial pd (BitVec.ofNat 32 v.toNat))
        { npc := npc, inhibit := true }) := by
  rw [ofNat_toNat_setWidth]
  exact outcome_next.mpr (toSpecialForm_ok.mpr ⟨m, v, upd, npc, hm, h, rfl⟩)

theorem moveRP_next {s : State} {x : GReg} {pd : SpecialReg} {m : Size}
    (hm : specialSize pd = .ok m) : exec (.moveRP (regOf x) pd) s =
      .next (finish (s.setSpecial pd (BitVec.ofNat 32 (low m (s.reg x)).toNat))
        { npc := s.npc0, inhibit := true }) := by
  show execMoveRP (regOf x) pd s = _
  simp [execMoveRP, hm, outcome_ok, State.doneInhibit]

/-- P2, P3 and P6 are refused before any operand is looked at. -/
theorem specialSize_reserved {p : SpecialReg} (h : p ∈ [SpecialReg.p2, .p3, .p6]) :
    specialSize p = refuse .reservedSpecial := by
  simp only [List.mem_cons, List.not_mem_nil, or_false] at h
  rcases h with rfl | rfl | rfl <;> rfl

/-- Settles O42: each of the three moves ends in the same write of a special register. -/
theorem specialRegisterWriteResults : Obligations.SpecialRegisterWriteResults := by
  refine ⟨?_, ?_, ?_, ?_⟩
  · intro s x pd m hm
    exact special_completes (upd := none) (moveRP_next hm)
  · intro s o pd m v upd npc hm h
    exact special_completes (toSpecial_next hm h)
  · intro s pd m hm h
    exact special_completes (i := .popP pd) (toSpecial_next hm (sourceReads_pop h))
  · intro pd hpd s r o
    have h := specialSize_reserved hpd
    simp only [exec, execMoveRP, execMoveSP, execMovePR, execMovePD, execPopP, execPushP,
      toSpecialForm, fromSpecialForm, specialToRegister, h, refuse_bind, outcome_refuse, and_self]

theorem toRegisterOrPc_regOf (m : Size) (v : Word) (check : Bool) (d : GReg) (s : State) :
    outcome (toRegisterOrPc m v check (regOf d) s) =
      .next (finish (s.setLow m d (low m v)) { npc := s.npc0, inhibit := true }) :=
  outcome_next.mpr (toRegisterOrPc_ok.mpr (.inr ⟨d, rfl, rfl⟩))

theorem movePR_next {ps : SpecialReg} {m : Size} (d : GReg) (s : State)
    (hm : specialSize ps = .ok m) : exec (.movePR ps (regOf d)) s =
      .next (finish (s.setLow m d (low m (s.special ps))) { npc := s.npc0, inhibit := true }) := by
  show outcome (specialToRegister ps (regOf d) s) = _
  rw [specialToRegister, hm, ok_bind, toRegisterOrPc_regOf]

theorem low_zero (m : Size) : low m 0#32 = 0#m.bits := by cases m <;> rfl

/-- Settles O43: both instructions merge a sized value into the register; the widths by cases. -/
theorem specialRegisterReadResults : Obligations.SpecialRegisterReadResults := by
  refine ⟨?_, ?_, ?_⟩
  · intro s d ps m hm
    exact runsTo_one (movePR_next d s hm) ⟨rfl⟩ rfl rfl
  · intro s d m
    rw [← low_zero]
    exact runsTo_one (toRegisterOrPc_regOf m 0#32 false d s) ⟨rfl⟩ rfl rfl
  · intro ps
    cases ps <;> rfl

/-! ### Register 15 as an operand -/

section RegisterFifteen

variable {m : Size} {s : State} {r rd : Reg} {o : MemOperand}

/-- A computation that first looks at a register is refused, whatever the register, if it is refused
for each general register. -/
theorem gpr_bind_pcOperand {α : Type} {f : GReg → Res α} (h : ∀ g, f g = refuse .pcOperand) :
    (gpr r >>= f) = refuse .pcOperand := by
  rcases reg_cases r with ⟨g, rfl⟩ | rfl
  · rw [gpr_regOf, ok_bind, h]
  · rfl

theorem pairForm_pc_source {op : GReg → GReg → State → State} :
    outcome (pairForm op pcReg rd s) = .refused .pcOperand :=
  outcome_refused.mpr (gpr_bind_pcOperand fun _ => rfl)

theorem regForm_pc_source {op : GReg → GReg → BitVec m.bits → State → State} :
    outcome (regForm m op pcReg rd s) = .refused .pcOperand :=
  outcome_refused.mpr (gpr_bind_pcOperand fun _ => rfl)

theorem threeForm_pc_left {op : GReg → GReg → BitVec m.bits → State → State} :
    outcome (threeForm m op pcReg rd s) = .refused .pcOperand :=
  outcome_refused.mpr (gpr_bind_pcOperand fun _ => rfl)

/-- BIAP names its base first, then its index. -/
theorem execBiap_pc_index : execBiap m pcReg rd s = .refused .pcOperand :=
  outcome_refused.mpr (gpr_bind_pcOperand fun _ => rfl)

/-- DSTEP and MSTEP compare their two registers first. -/
theorem stepForm_pc {op : GReg → GReg → State → State} {rs rd : Reg} (hn : rs ≠ rd)
    (h : outcome (pairForm op rs rd s) = .refused .pcOperand) :
    outcome (do require (rs != rd) .stepSameRegister; pairForm op rs rd s) =
      .refused .pcOperand := by
  rw [bne_iff_ne.mpr hn, require_true, ok_bind, h]

/-! `[PC]` -/

/-- The operand `[PC]`. -/
abbrev atPc : MemOperand := .simple (.indirect pcReg)

theorem memForm_atPc {op : GReg → GReg → BitVec m.bits → State → State} :
    outcome (memForm m op atPc r s) = .refused .pcOperand :=
  outcome_refused.mpr (gpr_bind_pcOperand fun _ => rfl)

/-- A comparison names its register, then reads its operand. -/
theorem cmpForm_atPc {op : GReg → BitVec m.bits → State → State} :
    outcome (do let d ← gpr r; testForm m (op d) atPc s) = .refused .pcOperand :=
  outcome_refused.mpr (gpr_bind_pcOperand fun _ => rfl)

theorem storeForm_atPc : outcome (storeForm m r atPc s) = .refused .pcOperand :=
  outcome_refused.mpr (gpr_bind_pcOperand fun _ => rfl)

theorem execMovemLoad_atPc : execMovemLoad atPc r s = .refused .pcOperand :=
  outcome_refused.mpr (gpr_bind_pcOperand fun _ => rfl)

theorem execMovemStore_atPc : execMovemStore r atPc s = .refused .pcOperand :=
  outcome_refused.mpr (gpr_bind_pcOperand fun _ => rfl)

theorem execBdap_atPc : execBdap m (.indirect pcReg) r s = .refused .pcOperand :=
  outcome_refused.mpr (gpr_bind_pcOperand fun _ => rfl)

end RegisterFifteen

/-- Settles O57: every instruction looks at its registers before anything else, so a 15 in the field
looked at first is refused by evaluation (`rfl`), and a 15 behind another register by the lemma of
its form. -/
theorem registerFifteenIsRefused : Obligations.RegisterFifteenIsRefused := by
  refine ⟨?_, ?_, ?_, ?_⟩
  · intro s r m z q j c o so sw b
    simp only [List.forall_mem_cons, List.not_mem_nil, IsEmpty.forall_iff, implies_true, and_true]
    exact ⟨
      -- two registers, the destination looked at first: ADD to NEG
      rfl, regForm_pc_source, rfl, regForm_pc_source, rfl, regForm_pc_source, rfl,
      regForm_pc_source, rfl, regForm_pc_source, rfl, regForm_pc_source, rfl, regForm_pc_source,
      rfl, regForm_pc_source,
      -- ASR, LSL, LSR
      rfl, pairForm_pc_source, rfl, pairForm_pc_source, rfl, pairForm_pc_source,
      -- the extending forms, MULU, MULS
      rfl, regForm_pc_source, rfl, regForm_pc_source, rfl, regForm_pc_source, rfl,
      regForm_pc_source, rfl, regForm_pc_source, rfl, regForm_pc_source, rfl, regForm_pc_source,
      rfl, regForm_pc_source,
      -- ADDI, ABS, LZ, XOR, BTST
      rfl, pairForm_pc_source, rfl, pairForm_pc_source, rfl, pairForm_pc_source, rfl,
      pairForm_pc_source, rfl, pairForm_pc_source,
      -- one register: the quick forms, Scc, SWAP, NOT, TEST
      rfl, rfl, rfl, rfl, rfl, rfl, rfl, rfl, rfl, rfl, rfl, rfl, rfl, rfl,
      -- the jumps
      rfl, rfl, rfl, rfl, rfl, rfl,
      -- BDAP, BIAP (base, then index), POP, PUSH
      rfl, rfl, execBiap_pc_index, rfl, rfl, rfl,
      -- a memory operand, MOVEM: the register is looked at first
      rfl, rfl, rfl, rfl, rfl, rfl, rfl, rfl, rfl, rfl, rfl, rfl, rfl, rfl, rfl, rfl,
      -- the 3-operand forms
      rfl, threeForm_pc_left, rfl, threeForm_pc_left, rfl, threeForm_pc_left, rfl,
      threeForm_pc_left, rfl, threeForm_pc_left, rfl, threeForm_pc_left, rfl, threeForm_pc_left,
      rfl, threeForm_pc_left, rfl, threeForm_pc_left,
      -- CMPU, CMPS
      rfl, rfl⟩
  · intro s r h
    simp only [List.forall_mem_cons, List.not_mem_nil, IsEmpty.forall_iff, implies_true, and_true]
    exact ⟨stepForm_pc h rfl, stepForm_pc h.symm pairForm_pc_source,
      stepForm_pc h rfl, stepForm_pc h.symm pairForm_pc_source⟩
  · intro s d m z pc
    simp only [List.forall_mem_cons, List.not_mem_nil, IsEmpty.forall_iff, implies_true, and_true]
    exact ⟨
      memForm_atPc, memForm_atPc, cmpForm_atPc, memForm_atPc, memForm_atPc, memForm_atPc,
      memForm_atPc, memForm_atPc, memForm_atPc, memForm_atPc, memForm_atPc, cmpForm_atPc,
      cmpForm_atPc, memForm_atPc, memForm_atPc, rfl, rfl, rfl, rfl, rfl, rfl, rfl, rfl, rfl, rfl,
      rfl, storeForm_atPc, execMovemLoad_atPc, execMovemStore_atPc, execBdap_atPc, rfl⟩
  · intro s p m hm
    simp only [List.forall_mem_cons, List.not_mem_nil, IsEmpty.forall_iff, implies_true, and_true]
    refine ⟨?_, ?_, ?_⟩
    · exact outcome_refused.mpr (by rw [hm]; rfl)
    · exact outcome_refused.mpr (by rw [toSpecialForm, hm]; rfl)
    · exact outcome_refused.mpr (by rw [fromSpecialForm, hm]; rfl)

end Sys2Proof.Machine
end

section
/-! PROOFS. The statements about memory: the canonical form and the step invariant, loads after stores,
the first unmapped byte, fetches of stored bytes, and which instructions touch memory. -/

namespace Sys2Proof.Machine

/-! ### The invariant -/

theorem StateInv.congr {s t : State} (h : StateInv s) (hm : t.mem = s.mem)
    (hs : t.stored = s.stored) : StateInv t :=
  ⟨hm ▸ h.1, hs ▸ h.2⟩

/-- The end of the cycle touches neither memory nor the list of stored addresses. -/
theorem exec_inv {i : Instr} {s t : State} (e : exec i s = .next t) (h : StateInv s) :
    StateInv t := by
  obtain ⟨u, fl, rfl, f⟩ := exec_facts e
  exact (f.inv h).congr (finish_mem u fl) (finish_stored u fl)

/-- Settles O3: a step that completes is one instruction, and every instruction keeps the
invariant. -/
theorem stepKeepsTheInvariant : Obligations.StepKeepsTheInvariant := by
  intro s t h hstep
  obtain ⟨i, -, e⟩ := step_next hstep
  exact exec_inv e h

/-- Settles O22: `exec_facts` says what every instruction keeps, and the end of the cycle adds
nothing to it. -/
theorem memoryChangesOnlyByStores : Obligations.MemoryChangesOnlyByStores := by
  intro i s t e
  obtain ⟨u, fl, rfl, f⟩ := exec_facts e
  refine ⟨(finish_memMap u fl).trans f.memMap, fun hs => ?_⟩
  obtain ⟨hmem, hstored, hdraw⟩ := f.kept hs
  exact {
    bytes := State.byteAt_congr ((finish_mem u fl).trans hmem)
    stored := (finish_stored u fl).trans hstored
    record := congrArg Config.statusRecord ((finish_bfsrDraw u fl).trans hdraw) }

/-! ### The canonical form -/

theorem Memory.wfFrom_cons {lo x : Nat} {c : Byte} {t : Memory} :
    Memory.wfFrom lo ((x, c) :: t) = true ↔
      lo ≤ x ∧ x < 4294967296 ∧ c ≠ Config.unlistedByte ∧ Memory.wfFrom (x + 1) t = true := by
  simp only [Memory.wfFrom, Bool.and_eq_true, decide_eq_true_eq, bne_iff_ne, and_assoc]

theorem Memory.read_head (x : Nat) (c : Byte) (t : Memory) : Memory.read ((x, c) :: t) x = c :=
  if_pos rfl

/-- The rest of a canonical memory reads as the whole does, but for the first address. -/
theorem Memory.read_tail {lo x : Nat} {c : Byte} {t : Memory}
    (w : Memory.wfFrom lo ((x, c) :: t) = true) (a : Nat) :
    Memory.read t a = if a = x then Config.unlistedByte else Memory.read ((x, c) :: t) a := by
  obtain ⟨-, -, -, wt⟩ := Memory.wfFrom_cons.mp w
  by_cases h : a = x
  · rw [if_pos h]
    exact Memory.read_below wt (by omega)
  · rw [if_neg h, Memory.read, if_neg h]

/-- The first address of a canonical memory is the least that does not read as unlisted. -/
theorem Memory.head_le_of_read_ne {lo x a : Nat} {c : Byte} {t : Memory}
    (w : Memory.wfFrom lo ((x, c) :: t) = true)
    (h : Memory.read ((x, c) :: t) a ≠ Config.unlistedByte) : x ≤ a := by
  obtain ⟨-, hx, hc, wt⟩ := Memory.wfFrom_cons.mp w
  have wx := Memory.wfFrom_cons.mpr ⟨Nat.le_refl x, hx, hc, wt⟩
  exact Nat.le_of_not_lt fun hlt => h (Memory.read_below wx hlt)

/-- A canonical memory that lists something does not read as unlisted everywhere. -/
theorem Memory.read_head_ne {lo x : Nat} {c : Byte} {t : Memory}
    (w : Memory.wfFrom lo ((x, c) :: t) = true) :
    Memory.read ((x, c) :: t) x ≠ Config.unlistedByte := by
  obtain ⟨-, -, hc, -⟩ := Memory.wfFrom_cons.mp w
  rwa [Memory.read_head]

/-- Reading determines a canonical memory: equal reads give the same first address, hence the same
first entry, and the rests read equal again. -/
theorem Memory.eq_of_read_eq {m : Memory} : ∀ {n : Memory} {lo hi : Nat},
    Memory.wfFrom lo m = true → Memory.wfFrom hi n = true →
    (∀ a, Memory.read m a = Memory.read n a) → m = n := by
  induction m with
  | nil =>
    intro n lo hi _ wn h
    cases n with
    | nil => rfl
    | cons e n => exact absurd (h e.1).symm (Memory.read_head_ne wn)
  | cons d m ih =>
    intro n lo hi wm wn h
    cases n with
    | nil => exact absurd (h d.1) (Memory.read_head_ne wm)
    | cons e n =>
      obtain ⟨x, c⟩ := d
      obtain ⟨y, b⟩ := e
      have hxy : x ≤ y := Memory.head_le_of_read_ne wm (by rw [h]; exact Memory.read_head_ne wn)
      have hyx : y ≤ x := Memory.head_le_of_read_ne wn (by rw [← h]; exact Memory.read_head_ne wm)
      obtain rfl := Nat.le_antisymm hxy hyx
      have hcb : c = b := by
        rw [← Memory.read_head x c m, h, Memory.read_head]
      obtain ⟨-, -, -, wm'⟩ := Memory.wfFrom_cons.mp wm
      obtain ⟨-, -, -, wn'⟩ := Memory.wfFrom_cons.mp wn
      have hmn : m = n := ih wm' wn' fun a => by
        rw [Memory.read_tail wm, Memory.read_tail wn, h]
      rw [hcb, hmn]

/-- Settles O15: by induction on the list (`Memory.eq_of_read_eq`). -/
theorem canonicalMemoriesAreEqualWhenTheyReadEqual :
    Obligations.CanonicalMemoriesAreEqualWhenTheyReadEqual :=
  fun _ _ wm wn h => Memory.eq_of_read_eq wm wn h

/-! ### Loads after stores -/

/-- What a write wrote may be read, and is the value: a byte that may be written may be read. -/
theorem readMem_writeMem {m : Size} {s t : State} {a : Word} {v : BitVec m.bits}
    (w : Memory.wf s.mem = true) (h : writeMem m s a v = .ok t) : readMem m t a = .ok v := by
  obtain ⟨hw, rfl⟩ := writeMem_ok.mp h
  have hmap : (s.store m a v).redrawStatus.memMap = s.memMap := by simp
  refine readMem_ok.mpr ⟨(Readable_congr hmap a _).mpr (Readable_of_Writable hw), ?_⟩
  exact (State.load_store w m a v).symm

/-- Settles O13: the new draw of the status record aside, a write is a store, whose laws say what
each byte reads as. -/
theorem storeThenLoadReturnsTheValue : Obligations.StoreThenLoadReturnsTheValue := by
  intro m s t a v w h
  refine ⟨readMem_writeMem w h, ?_⟩
  obtain ⟨-, rfl⟩ := writeMem_ok.mp h
  exact ⟨State.byteAt_store w m a v, fun b => State.byteAt_store_other w m a b v⟩

/-! ### The first unmapped byte -/

/-- An access whose first `j` bytes are admitted and whose next is unmapped is the bus fault of that
byte. -/
theorem accessAll_unmapped {acc : Access} {s : State} {a : Word} {j k : Nat} (hj : j < k)
    (before : accessAll acc s a j = .ok ())
    (h : kindIn s.memMap (a + BitVec.ofNat 32 j).toNat = none) :
    accessAll acc s a k =
      .error (.fault (.busFault (a + BitVec.ofNat 32 j) acc.faultKind)) :=
  accessAll_error hj (accessAll_ok.mp before) (accessByte_unmapped h)

/-- Settles O14: reads, writes and stream operands each begin with the access. -/
theorem firstUnmappedByteFaults : Obligations.FirstUnmappedByteFaults := by
  intro m s a v j hj h
  refine ⟨fun hr => ?_, fun hw => ?_, fun hf => ?_⟩
  · rw [readMem, accessAll_unmapped hj (accessAll_read_ok.mpr hr) h]; rfl
  · rw [writeMem, accessAll_unmapped hj (accessAll_write_ok.mpr hw) h]; rfl
  · rw [readStream, accessAll_unmapped hj ((accessAll_fetches_ok rfl).mpr hf) h]; rfl

/-! ### Fetches of stored bytes -/

theorem fetchInstr_stored {s : State} (hp : s.pc.getLsbD 0 = false)
    (h : FetchMeetsStored s s.pc 2) : fetchInstr s = refuse .fetchOfStored := by
  have hb : fetchBytes s s.pc = refuse .fetchOfStored := by
    rw [fetchBytes, accessAll_fetches_stored rfl h]; rfl
  rw [fetchInstr, hp, hb]; rfl

section StreamOperand

variable {m : Size} {s : State} {d : GReg}

/-- The operand in the instruction stream. -/
abbrev streamOperand : MemOperand := .simple .immediate

/-- What begins with reading a stream operand is refused when the operand meets a stored byte. -/
theorem readSource_stored_bind {α : Type} {rule : Operand1Rule} {f : Source m.bits → Res α}
    (h : FetchMeetsStored s s.npc0 m.bytes) :
    (readSource m rule streamOperand s s.npc0 >>= f) = refuse .fetchOfStored := by
  rw [readSource_stored h]; rfl

/-- A stream operand updates no register. -/
theorem noHazard_streamOperand (r : Reg) : noHazard streamOperand r = .ok () :=
  noHazard_ok.mpr nofun

theorem memForm_stored {op : GReg → GReg → BitVec m.bits → State → State}
    (h : FetchMeetsStored s s.npc0 m.bytes) :
    outcome (memForm m op streamOperand (regOf d) s) = .refused .fetchOfStored := by
  rw [outcome_refused, memForm, gpr_regOf, ok_bind, noHazard_streamOperand, ok_bind]
  exact readSource_stored_bind h

theorem testForm_stored {op : BitVec m.bits → State → State}
    (h : FetchMeetsStored s s.npc0 m.bytes) :
    testForm m op streamOperand s = refuse .fetchOfStored :=
  readSource_stored_bind h

/-- A comparison names its register, then reads its operand. -/
theorem cmpForm_stored {op : GReg → BitVec m.bits → State → State}
    (h : FetchMeetsStored s s.npc0 m.bytes) :
    outcome (do let d ← gpr (regOf d); testForm m (op d) streamOperand s) =
      .refused .fetchOfStored := by
  rw [outcome_refused, gpr_regOf, ok_bind]
  exact testForm_stored h

theorem execBdap_stored (h : FetchMeetsStored s s.npc0 m.bytes) :
    execBdap m .immediate (regOf d) s = .refused .fetchOfStored := by
  rw [execBdap, outcome_refused, gpr_regOf, ok_bind, noHazard_streamOperand, ok_bind]
  exact readSource_stored_bind h

theorem toSpecialForm_stored {pd : SpecialReg} (hm : specialSize pd = .ok m)
    (h : FetchMeetsStored s s.npc0 m.bytes) :
    outcome (toSpecialForm streamOperand pd s) = .refused .fetchOfStored := by
  rw [outcome_refused, toSpecialForm, hm, ok_bind]
  exact readSource_stored_bind h

theorem jumpMemForm_stored {link : Word → State → State} (h : FetchMeetsStored s s.npc0 4) :
    outcome (jumpMemForm link streamOperand s) = .refused .fetchOfStored :=
  outcome_refused.mpr (readSource_stored_bind (m := .dword) h)

theorem execDip_stored (h : FetchMeetsStored s s.npc0 4) :
    execDip .immediate s = .refused .fetchOfStored :=
  outcome_refused.mpr (readSource_stored_bind (m := .dword) h)

theorem execBccW_stored {q : Cond} (h : FetchMeetsStored s s.npc0 2) :
    execBccW q s = .refused .fetchOfStored := by
  rw [execBccW, readStream_stored (m := .word) h]; rfl

end StreamOperand

/-- Settles O10: a store lists its bytes; the fetch of the word and the read of a stream operand are
each refused at a listed byte, and an instruction makes that read its first access, after checks of
its registers that pass here. -/
theorem fetchOfAStoredByteIsRefused : Obligations.FetchOfAStoredByteIsRefused := by
  refine ⟨?_, ?_, ?_, ?_, ?_, ?_, ?_⟩
  · intro m s t a b v h hb
    obtain ⟨-, rfl⟩ := writeMem_ok.mp h
    exact State.stored_store s m a b v hb
  · intro s hp h
    exact step_of_fetch_refused (fetchInstr_stored hp h)
  · intro s m d h
    simp only [List.forall_mem_cons, List.not_mem_nil, IsEmpty.forall_iff, implies_true, and_true]
    exact ⟨memForm_stored h, memForm_stored h, cmpForm_stored h, memForm_stored h,
      memForm_stored h, memForm_stored h, memForm_stored h, outcome_refused.mpr (testForm_stored h),
      execBdap_stored h⟩
  · intro s z d h
    simp only [List.forall_mem_cons, List.not_mem_nil, IsEmpty.forall_iff, implies_true, and_true]
    exact ⟨memForm_stored h, memForm_stored h, memForm_stored h, memForm_stored h,
      cmpForm_stored h, cmpForm_stored h, memForm_stored h, memForm_stored h⟩
  · intro s h
    simp only [List.forall_mem_cons, List.not_mem_nil, IsEmpty.forall_iff, implies_true, and_true]
    exact ⟨jumpMemForm_stored h, jumpMemForm_stored h, jumpMemForm_stored h, jumpMemForm_stored h,
      jumpMemForm_stored h, jumpMemForm_stored h, execDip_stored h⟩
  · intro s pd m hm h
    exact toSpecialForm_stored hm h
  · intro s q h
    exact execBccW_stored h

end Sys2Proof.Machine
end

section
/-! PROOFS. What the statements about the encoding rest on: the values of a box, the row of the
opcode table that a word belongs to, the names that R116 gives to some rows, and the words that
quick immediates and memory operands are read from. -/

namespace Sys2Proof

/-! ### Boxes by their value -/

/-- Bits 5:4 as a size, or as the 11 of the fixed-size rows (R103). -/
theorem size_cases {motive : BitVec 2 → Prop} (sized : ∀ m, motive (sizeCode m))
    (unsized : motive noSize) (b : BitVec 2) : motive b := by
  have h : (∃ m, b = sizeCode m) ∨ b = noSize := by
    match b with
    | ⟨⟨0, _⟩⟩ => exact .inl ⟨.byte, rfl⟩
    | ⟨⟨1, _⟩⟩ => exact .inl ⟨.word, rfl⟩
    | ⟨⟨2, _⟩⟩ => exact .inl ⟨.dword, rfl⟩
    | ⟨⟨3, _⟩⟩ => exact .inr rfl
  rcases h with ⟨m, rfl⟩ | rfl
  · exact sized m
  · exact unsized

theorem zCode_zOf (b : BitVec 2) : zCode (zSigned b) (zOf b) = b := by revert b; decide

/-- Bits 5:4 as signedness and z size (R103). -/
theorem zSize_cases {motive : BitVec 2 → Prop} (unsigned : ∀ z, motive (zCode false z))
    (signed : ∀ z, motive (zCode true z)) (b : BitVec 2) : motive b := by
  rw [← zCode_zOf b]
  cases zSigned b
  · exact unsigned (zOf b)
  · exact signed (zOf b)

/-- Bits 15:12 as the number of a special register. -/
theorem special_cases {motive : BitVec 4 → Prop} (code : ∀ p, motive (specialCode p))
    (b : BitVec 4) : motive b := specialCode_specialOf b ▸ code (specialOf b)

theorem box1_cases {motive : BitVec 1 → Prop} (b0 : motive 0#1) (b1 : motive 1#1)
    (b : BitVec 1) : motive b :=
  match b with
  | ⟨⟨0, _⟩⟩ => b0
  | ⟨⟨1, _⟩⟩ => b1

/-- The four values of a two-bit box. -/
theorem box2_cases {motive : BitVec 2 → Prop} (b0 : motive 0#2) (b1 : motive 1#2)
    (b2 : motive 2#2) (b3 : motive 3#2) (b : BitVec 2) : motive b :=
  match b with
  | ⟨⟨0, _⟩⟩ => b0
  | ⟨⟨1, _⟩⟩ => b1
  | ⟨⟨2, _⟩⟩ => b2
  | ⟨⟨3, _⟩⟩ => b3

/-- The sixteen values of a four-bit box. -/
theorem box4_cases {motive : BitVec 4 → Prop} (b0 : motive 0#4) (b1 : motive 1#4)
    (b2 : motive 2#4) (b3 : motive 3#4) (b4 : motive 4#4) (b5 : motive 5#4) (b6 : motive 6#4)
    (b7 : motive 7#4) (b8 : motive 8#4) (b9 : motive 9#4) (b10 : motive 10#4)
    (b11 : motive 11#4) (b12 : motive 12#4) (b13 : motive 13#4) (b14 : motive 14#4)
    (b15 : motive 15#4) (b : BitVec 4) : motive b := by
  obtain ⟨n, rfl⟩ : ∃ n : Fin 16, b = BitVec.ofNat 4 n := ⟨b.toFin, by simp⟩
  fin_cases n <;> assumption

/-! ### The row of a word -/

/-- The row of the opcode table that a word belongs to, before R116 names it (R106). -/
def rowOf (pending : Bool) (w : Half) : Option Instr :=
  decodeRow pending (op2Of w) (modeOf w) (opcOf w) (sizeBitsOf w) (op1Of w)

theorem rowOf_wordOf (pending : Bool) (a : BitVec 4) (b : BitVec 2) (c : BitVec 4) (d : BitVec 2)
    (e : BitVec 4) : rowOf pending (wordOf a b c d e) = decodeRow pending a b c d e := by
  rw [rowOf, op2Of_wordOf, modeOf_wordOf, opcOf_wordOf, sizeBitsOf_wordOf, op1Of_wordOf]

/-- No row that is never prefixed is a prefixed instruction, row by row (R106, R114). -/
theorem never_and_prefixed (i : Instr) : (i.prefixUse == .never && i.prefixed) = false := by
  cases i <;> rfl

theorem prefixed_of_never {i : Instr} (h : i.prefixUse = .never) : i.prefixed = false := by
  simpa [h] using never_and_prefixed i

/-- A word decodes to the name of its row, if the row may stand where the word does. -/
theorem decodeWord_ok {pending : Bool} {w : Half} {i : Instr} :
    decodeWord pending w = .ok i ↔
      ∃ j, rowOf pending w = some j ∧ (pending = true → j.prefixUse ≠ .never) ∧ j.named = i := by
  unfold decodeWord
  rw [← rowOf]
  cases rowOf pending w with
  | none => simp
  | some j => cases pending <;> by_cases h : j.prefixUse = .never <;> simp [h]

/-- A word is reserved when it belongs to no row. -/
theorem decodeWord_reserved {pending : Bool} {w : Half} :
    decodeWord pending w = .error .reserved ↔ rowOf pending w = none := by
  unfold decodeWord
  rw [← rowOf]
  cases rowOf pending w with
  | none => simp
  | some j => cases pending <;> by_cases h : j.prefixUse = .never <;> simp [h]

/-! ### The names of R116 -/

/-- The row that a name of R116 stands for; every other instruction is its own row. -/
def Instr.expand : Instr → Instr
  | .ax => .setf axList
  | .ei => .setf iList
  | .di => .clearf iList
  | .not rd => .swap notOptions rd
  | .ret => .movePR .srp pcReg
  | .retb => .movePR .brp pcReg
  | .reti => .movePR .irp pcReg
  | .testR m rs => .moveR m rs rs
  | .popR rd => .move .dword (.simple (.autoinc spReg)) rd
  | .popP pd => .moveSP (.simple (.autoinc spReg)) pd
  | .pushR rs => .moveStore .dword rs (.assign spReg)
  | .pushP ps => .movePD ps (.assign spReg)
  | i => i

theorem encodeWord_expand (i : Instr) : encodeWord i.expand = encodeWord i := by
  unfold Instr.expand; split <;> rfl

theorem fieldsWf_expand (i : Instr) : i.expand.fieldsWf = i.fieldsWf := by
  unfold Instr.expand
  split <;> simp [Instr.fieldsWf, MemOperand.wf, SimpleMem.wf, SpecialReg.isZero, spReg, pcReg]

theorem prefixed_expand (i : Instr) : i.expand.prefixed = i.prefixed := by
  unfold Instr.expand; split <;> rfl

/-- An instruction that goes by its own name is the name of its row. -/
theorem named_expand {i : Instr} (h : i.named = i) : i.expand.named = i := by
  cases i with
  | testR m rs => exact if_pos rfl
  | ax | di | ei | not | ret | retb | reti | popR | popP | pushR | pushP => rfl
  | _ => exact h

/-- A name stands for the row it was given to. -/
theorem expand_named (i : Instr) : i.named.expand = i.expand := by
  fun_cases Instr.named i <;> simp_all [Instr.expand]

theorem named_named (i : Instr) : i.named.named = i.named := by
  fun_cases Instr.named i <;> simp_all [Instr.named]

theorem encodeWord_named (i : Instr) : encodeWord i.named = encodeWord i := by
  rw [← encodeWord_expand, expand_named, encodeWord_expand]

theorem prefixed_named (i : Instr) : i.named.prefixed = i.prefixed := by
  rw [← prefixed_expand, expand_named, prefixed_expand]

theorem named_wf {i : Instr} (h : i.fieldsWf = true) : i.named.wf = true := by
  refine Bool.and_eq_true_iff.mpr ⟨?_, beq_iff_eq.mpr (named_named i)⟩
  rw [← fieldsWf_expand, expand_named, fieldsWf_expand, h]

/-! ### Quick immediates and offsets: their boxes, and the words made of them (R105) -/

theorem offset_boxes (o : BitVec 8) :
    o.extractLsb' 6 2 ++ o.extractLsb' 4 2 ++ o.extractLsb' 0 4 = o := by
  rw [BitVec.extractLsb'_append_extractLsb'_eq_extractLsb' (show 6 = 4 + 2 from rfl),
    BitVec.extractLsb'_append_extractLsb'_eq_extractLsb' (show 4 = 0 + 4 from rfl)]
  exact BitVec.extractLsb'_eq_self

theorem quick6_boxes (i : BitVec 6) : i.extractLsb' 4 2 ++ i.extractLsb' 0 4 = i := by
  rw [BitVec.extractLsb'_append_extractLsb'_eq_extractLsb' (show 4 = 0 + 4 from rfl)]
  exact BitVec.extractLsb'_eq_self

theorem quick5_boxes (c : BitVec 5) : c.extractLsb' 4 1 ++ c.extractLsb' 0 4 = c := by
  rw [BitVec.extractLsb'_append_extractLsb'_eq_extractLsb' (show 4 = 0 + 4 from rfl)]
  exact BitVec.extractLsb'_eq_self

theorem offsetWord_boxes (a : BitVec 4) (k x d : BitVec 2) (e : BitVec 4) :
    offsetWord a k (x ++ d ++ e) = wordOf a 0#2 (k ++ x) d e := by
  unfold offsetWord
  rw [BitVec.extractLsb'_append_eq_of_le (start := 6) (by decide),
    BitVec.extractLsb'_append_eq_left, BitVec.extractLsb'_append_eq_right,
    BitVec.extractLsb'_append_eq_of_le (by decide), BitVec.extractLsb'_append_eq_right]

theorem quick6Word_boxes (a c : BitVec 4) (d : BitVec 2) (e : BitVec 4) :
    quick6Word a c (d ++ e) = wordOf a 0#2 c d e := by
  rw [quick6Word, BitVec.extractLsb'_append_eq_left, BitVec.extractLsb'_append_eq_right]

theorem quick5Word_boxes (a c : BitVec 4) (sub x : BitVec 1) (e : BitVec 4) :
    quick5Word a c sub (x ++ e) = wordOf a 0#2 c (sub ++ x) e := by
  rw [quick5Word, BitVec.extractLsb'_append_eq_left, BitVec.extractLsb'_append_eq_right]

/-! ### Memory operands and their boxes (R110, R114) -/

/-- The Mode box of a memory operand; bit 10 is given. -/
def memMode (m : Bool) : BitVec 2 := if m then 3#2 else 2#2

theorem decodeRow_memMode (p m : Bool) (a c : BitVec 4) (d : BitVec 2) (e : BitVec 4) :
    decodeRow p a (memMode m) c d e = decodeMemory p m a c d e := by
  cases m <;> rfl

theorem simpleMemCode_simpleMemOf (m : Bool) (r : BitVec 4) :
    simpleMemCode (simpleMemOf m r) = (memMode m, r) := by
  unfold simpleMemOf
  split
  · next h => subst h; split <;> simp_all [simpleMemCode, memMode]
  · simp_all [simpleMemCode, memMode]

theorem memCode_memOperandOf (p m : Bool) (r : BitVec 4) :
    memCode (memOperandOf p m r) = (memMode m, r) := by
  cases p
  · exact simpleMemCode_simpleMemOf m r
  · cases m <;> rfl

theorem memWord_memOperandOf (a c : BitVec 4) (d : BitVec 2) (p m : Bool) (r : BitVec 4) :
    memWord a c d (memOperandOf p m r) = wordOf a (memMode m) c d r := by
  rw [memWord, memCode_memOperandOf]

theorem simpleMemOf_wf (m : Bool) (r : BitVec 4) : (simpleMemOf m r).wf = true := by
  unfold simpleMemOf
  split
  · split
    · rfl
    · next h => simpa [SimpleMem.wf] using h
  · rfl

theorem memOperandOf_wf (p m : Bool) (r : BitVec 4) : (memOperandOf p m r).wf = true := by
  cases p
  · exact simpleMemOf_wf m r
  · cases m <;> rfl

theorem memOperandOf_prefixed (p m : Bool) (r : BitVec 4) : (memOperandOf p m r).prefixed = p := by
  cases p
  · rfl
  · cases m <;> rfl

/-- An encodable operand is one that some boxes stand for, in its own context. -/
theorem exists_memOperandOf {o : MemOperand} (h : o.wf = true) : ∃ p m r, o = memOperandOf p m r :=
  ⟨_, _, _, (memOperandOf_memCode o h).symm⟩

theorem wf_of_wfTwo {o : MemOperand} (h : o.wfTwo = true) : o.wf = true := by
  cases o with
  | simple o => exact h
  | complex r => rfl
  | assign r => rfl

theorem memOperandOf_wfTwo (p m : Bool) (r : BitVec 4) :
    (memOperandOf p m r).wfTwo = !(p && !m) := by
  cases p
  · exact simpleMemOf_wf m r
  · cases m <;> rfl

end Sys2Proof
end

section
/-! PROOFS. Decoding an encoding and encoding a decoding. -/

namespace Sys2Proof

/-! ### A well-formed instruction's word belongs to its row -/

theorem rowOf_offsetWord_bcc (p : Bool) (q : Cond) (o : BitVec 8) :
    rowOf p (offsetWord (condCode q) 0#2 o) = some (.bcc q o) := by
  rw [← offset_boxes o, offsetWord_boxes, rowOf_wordOf, ← condOf_condCode q, condCode_condOf]
  generalize o.extractLsb' 6 2 = x
  cases x using box2_cases <;> rfl

theorem rowOf_offsetWord_bdapQ (p : Bool) (rb : Reg) (o : BitVec 8) :
    rowOf p (offsetWord rb 1#2 o) = some (.bdapQ o rb) := by
  rw [← offset_boxes o, offsetWord_boxes, rowOf_wordOf]
  generalize o.extractLsb' 6 2 = x
  cases x using box2_cases <;> rfl

/-- A row whose low six bits are a quick immediate. -/
theorem rowOf_quick6Word {p : Bool} {a c : BitVec 4} {k : BitVec 6} {i : Instr}
    (h : ∀ d e, d ++ e = k → decodeQuick a c d e = i) :
    rowOf p (quick6Word a c k) = some i := by
  rw [quick6Word, rowOf_wordOf]
  exact congrArg some (h _ _ (quick6_boxes k))

/-- A row whose low five bits are a shift count or a bit number. -/
theorem rowOf_quick5Word {p : Bool} {a c : BitVec 4} {sub : BitVec 1} {k : BitVec 5} {i : Instr}
    (h : ∀ (x : BitVec 1) e, x ++ e = k → decodeQuick a c (sub ++ x) e = i) :
    rowOf p (quick5Word a c sub k) = some i := by
  rw [quick5Word, rowOf_wordOf]
  exact congrArg some (h _ _ (quick5_boxes k))

/-- A row with a memory operand. -/
theorem rowOf_memWord {a c : BitVec 4} {d : BitVec 2} {o : MemOperand} {i : Instr}
    (h : o.wf = true)
    (hi : ∀ p m r, memOperandOf p m r = o → decodeMemory p m a c d r = some i) :
    rowOf o.prefixed (memWord a c d o) = some i := by
  obtain ⟨p, m, r, rfl⟩ := exists_memOperandOf h
  rw [memWord_memOperandOf, memOperandOf_prefixed, rowOf_wordOf, decodeRow_memMode, hi p m r rfl]

theorem twoOrThree_two {p m : Bool} (h : (p && !m) = false) (two three : Instr) :
    twoOrThree p m two three = two := by
  rw [twoOrThree, h]; rfl

/-- A row with a memory operand that shares its words with a 3-operand row. -/
theorem rowOf_memWord_two {a c : BitVec 4} {d : BitVec 2} {o : MemOperand} {i : Instr}
    (h : o.wfTwo = true)
    (hi : ∀ p m r, memOperandOf p m r = o →
      ∃ three, decodeMemory p m a c d r = some (twoOrThree p m i three)) :
    rowOf o.prefixed (memWord a c d o) = some i := by
  refine rowOf_memWord (wf_of_wfTwo h) fun p m r e => ?_
  obtain ⟨three, hd⟩ := hi p m r e
  rw [← e, memOperandOf_wfTwo, Bool.not_eq_true'] at h
  rw [hd, twoOrThree_two h]

/-- BDAP and DIP, whose operand is read as one that nothing precedes. -/
theorem rowOf_memWord_simple {p : Bool} {a c : BitVec 4} {d : BitVec 2} {o : SimpleMem} {i : Instr}
    (h : o.wf = true)
    (hi : ∀ m r, simpleMemOf m r = o → decodeMemory p m a c d r = some i) :
    rowOf p (memWord a c d (.simple o)) = some i := by
  obtain ⟨m, r, e⟩ : ∃ m r, simpleMemOf m r = o :=
    ⟨_, _, MemOperand.simple.inj (memOperandOf_memCode (.simple o) h)⟩
  rw [memWord, memCode, ← e, simpleMemCode_simpleMemOf, rowOf_wordOf, decodeRow_memMode, hi m r e]

theorem clearOr_special {ps : SpecialReg} (h : ps.isZero = false) (clear : Size → Instr)
    (move : SpecialReg → Instr) : clearOr (specialCode ps) clear move = move ps := by
  cases ps with
  | p0 | p4 | p8 => cases h
  | _ => rfl

/-- The word of ADDI.B R0,PC is NOP's (R116). -/
theorem decodeRegister_addi (m : Size) (rs rd : Reg) :
    decodeRegister rs 4#4 (sizeCode m) rd =
      some (if m = .byte ∧ rs = 0#4 ∧ rd = pcReg then .nop else .addi m rs rd) := by
  cases m <;> rfl

theorem addi_fieldsWf {m : Size} {rs rd : Reg} : (Instr.addi m rs rd).fieldsWf = true ↔
    ¬(m = .byte ∧ rs = 0#4 ∧ rd = pcReg) := by
  simp only [Instr.fieldsWf, Bool.not_eq_true', Bool.and_eq_false_iff, beq_eq_false_iff_ne]
  tauto

/-- An instruction with encodable fields: its word belongs to its row, in its own context. -/
theorem rowOf_encodeWord {i : Instr} (h : i.fieldsWf = true) :
    rowOf i.prefixed (encodeWord i) = some i.expand := by
  cases i with
  | bcc q o => exact rowOf_offsetWord_bcc false q o
  | bdapQ o rb => exact rowOf_offsetWord_bdapQ false rb o
  | addq i rd | moveq i rd | subq i rd | cmpq i rd | andq i rd | orq i rd =>
    exact rowOf_quick6Word fun _ _ e => by cases e; rfl
  | btstq k rd | asrq k rd | lslq k rd | lsrq k rd =>
    exact rowOf_quick5Word fun x _ e => by cases e; cases x using box1_cases <;> rfl
  | adduR z rs rd | addsR z rs rd | movuR z rs rd | movsR z rs rd | subuR z rs rd
  | subsR z rs rd | addu3 z rs rd | adds3 z rs rd | subu3 z rs rd | subs3 z rs rd =>
    exact (rowOf_wordOf ..).trans (by cases z <;> rfl)
  | lslR m rs rd | negR m rs rd | boundR m rs rd | addR m rs rd | moveR m rs rd | subR m rs rd
  | cmpR m rs rd | andR m rs rd | orR m rs rd | asrR m rs rd | lsrR m rs rd | biap m rs rd
  | testR m rs | clearR m rs | mulu m rs rd | muls m rs rd | add3 m rs rd | sub3 m rs rd
  | and3 m rs rd | or3 m rs rd | bound3 m rs rd =>
    exact (rowOf_wordOf ..).trans (by cases m <;> rfl)
  | addi m rs rd =>
    refine (rowOf_wordOf ..).trans ((decodeRegister_addi m rs rd).trans (congrArg some ?_))
    exact if_neg (addi_fieldsWf.mp h)
  | btst rs rd | abs rs rd | dstep rs rd | lz rs rd | xor rs rd | mstep rs rd | jumpR rs | jircR rs
  | jsrcR rs | jbrcR rs | jirR rs | jsrR rs | brk rs | not rs | popR rs | pushR rs =>
    exact rowOf_wordOf ..
  | nop | ax | di | ei | ret | retb | reti => rfl
  | scc q rd | bccW q => exact (rowOf_wordOf ..).trans (by cases q <;> rfl)
  | setf l => exact (rowOf_wordOf ..).trans (congrArg (some ∘ Instr.setf) (flagListOf_nibbles l))
  | clearf l =>
    exact (rowOf_wordOf ..).trans (congrArg (some ∘ Instr.clearf) (flagListOf_nibbles l))
  | swap o rd =>
    exact (rowOf_wordOf ..).trans
      (congrArg (fun o => some (Instr.swap o rd)) (swapOptionsOf_nibble o))
  | moveRP rs pd | popP pd => exact (rowOf_wordOf ..).trans (by cases pd <;> rfl)
  | movePR ps rd | pushP ps =>
    have hz := Bool.eq_false_of_not_eq_true' h
    exact (rowOf_wordOf ..).trans (congrArg some (clearOr_special hz _ _))
  | movePD ps s =>
    obtain ⟨hz, hs⟩ := Bool.and_eq_true_iff.mp h
    exact rowOf_memWord hs fun _ _ _ e => by
      cases e; exact congrArg some (clearOr_special (Bool.eq_false_of_not_eq_true' hz) _ _)
  | moveSP s pd => exact rowOf_memWord h fun _ _ _ e => by cases e; cases pd <;> rfl
  | movu z s rd | movs z s rd | cmpu z s rd | cmps z s rd =>
    exact rowOf_memWord h fun _ _ _ e => by cases e; cases z <;> rfl
  | addu z s rd | adds z s rd | subu z s rd | subs z s rd =>
    exact rowOf_memWord_two h fun _ _ _ e => by cases e; cases z <;> exact ⟨_, rfl⟩
  | bound m s rd | add m s rd | sub m s rd | and m s rd | or m s rd =>
    exact rowOf_memWord_two h fun _ _ _ e => by cases e; cases m <;> exact ⟨_, rfl⟩
  | move m s rd | cmp m s rd | test m s | moveStore m rd s | clear m s =>
    exact rowOf_memWord h fun _ _ _ e => by cases e; cases m <;> rfl
  | jump s | jirc s | jsrc s | jbrc s | jir s | jsr s | jmpu s | rbf s | sbfs s
  | movemLoad s rd | movemStore rd s =>
    exact rowOf_memWord h fun _ _ _ e => by cases e; rfl
  | bdap m s rb => exact rowOf_memWord_simple h fun _ _ e => by cases e; cases m <;> rfl
  | dip s => exact rowOf_memWord_simple h fun _ _ e => by cases e; rfl

/-- Settles O4: the word of a well-formed instruction belongs to its row, and the name of that row
is the instruction. -/
theorem decodeOfEncodeIsTheInstruction : Obligations.DecodeOfEncodeIsTheInstruction := by
  intro i h
  obtain ⟨hf, hn⟩ := Bool.and_eq_true_iff.mp h
  rw [encode, decode_bytesOfHalf]
  refine decodeWord_ok.mpr ⟨i.expand, rowOf_encodeWord hf, fun hp hu => ?_,
    named_expand (eq_of_beq hn)⟩
  rw [← prefixed_expand, prefixed_of_never hu] at hp
  cases hp

/-! ### A row's word is the word -/

/-- Instruction `i` is a row of word `w`: its encoding is `w`, its fields are encodable, and it is a
prefixed instruction exactly in a prefixed context, if it may stand in one at all. -/
structure IsRow (pending : Bool) (w : Half) (i : Instr) : Prop where
  word : encodeWord i = w
  fields : i.fieldsWf = true
  context : i.prefixed = pending ∨ i.prefixUse = .never

/-- A part of the decoder answers nothing, or a row of the word. -/
def AnswersRow (pending : Bool) (w : Half) (r : Option Instr) : Prop :=
  ∀ i, r = some i → IsRow pending w i

theorem answersRow_none {p : Bool} {w : Half} : AnswersRow p w none := nofun

theorem answersRow_some {p : Bool} {w : Half} {i : Instr} (h : IsRow p w i) :
    AnswersRow p w (some i) := by
  rintro _ ⟨⟩; exact h

/-- A row that is never prefixed, whatever the context. -/
theorem isRow_never {p : Bool} {w : Half} {i : Instr} (word : encodeWord i = w)
    (fields : i.fieldsWf = true) (never : i.prefixUse = .never) : IsRow p w i :=
  ⟨word, fields, .inr never⟩

theorem isRow_bcc (p : Bool) (a : BitVec 4) (x d : BitVec 2) (e : BitVec 4) :
    IsRow p (wordOf a 0#2 (0#2 ++ x) d e) (.bcc (condOf a) (x ++ d ++ e)) := by
  refine isRow_never ?_ rfl rfl
  rw [encodeWord, condCode_condOf, offsetWord_boxes]

theorem isRow_bdapQ (p : Bool) (a : BitVec 4) (x d : BitVec 2) (e : BitVec 4) :
    IsRow p (wordOf a 0#2 (1#2 ++ x) d e) (.bdapQ (x ++ d ++ e) a) :=
  isRow_never (offsetWord_boxes ..) rfl rfl

/-- Mode 00: every word has a row. -/
theorem decodeQuick_isRow (p : Bool) (a c : BitVec 4) (d : BitVec 2) (e : BitVec 4) :
    IsRow p (wordOf a 0#2 c d e) (decodeQuick a c d e) := by
  cases c using box4_cases with
  | b0 => exact isRow_bcc p a 0#2 d e
  | b1 => exact isRow_bcc p a 1#2 d e
  | b2 => exact isRow_bcc p a 2#2 d e
  | b3 => exact isRow_bcc p a 3#2 d e
  | b4 => exact isRow_bdapQ p a 0#2 d e
  | b5 => exact isRow_bdapQ p a 1#2 d e
  | b6 => exact isRow_bdapQ p a 2#2 d e
  | b7 => exact isRow_bdapQ p a 3#2 d e
  | b8 | b9 | b10 | b11 | b12 | b13 => exact isRow_never (quick6Word_boxes ..) rfl rfl
  | b14 | b15 =>
    cases d using box2_cases with
    | b0 => exact isRow_never (quick5Word_boxes _ _ 0#1 0#1 e) rfl rfl
    | b1 => exact isRow_never (quick5Word_boxes _ _ 0#1 1#1 e) rfl rfl
    | b2 => exact isRow_never (quick5Word_boxes _ _ 1#1 0#1 e) rfl rfl
    | b3 => exact isRow_never (quick5Word_boxes _ _ 1#1 1#1 e) rfl rfl

/-- Bits 15:12 of MOVE Ps,d and CLEAR: they name a constant-zero register, hence a size, or another
special register. -/
theorem clearOr_cases {motive : Instr → Prop} {a : BitVec 4} {clear : Size → Instr}
    {move : SpecialReg → Instr} (zero : ∀ m, clearCode m = a → motive (clear m))
    (other : ∀ ps, specialCode ps = a → ps.isZero = false → motive (move ps)) :
    motive (clearOr a clear move) := by
  cases a using special_cases with
  | code ps =>
    cases ps with
    | p0 => exact zero .byte rfl
    | p4 => exact zero .word rfl
    | p8 => exact zero .dword rfl
    | vr | p2 | p3 | ccr | p6 | mof | ibr | irp | srp | bar | dccr | brp | usp =>
      exact other _ rfl rfl

theorem nibble_bits (b : BitVec 4) :
    nibble (b.getLsbD 3) (b.getLsbD 2) (b.getLsbD 1) (b.getLsbD 0) = b := by
  cases b using box4_cases <;> rfl

/-- Mode 01. -/
theorem decodeRegister_answersRow (p : Bool) (a c : BitVec 4) (d : BitVec 2) (e : BitVec 4) :
    AnswersRow p (wordOf a 1#2 c d e) (decodeRegister a c d e) := by
  cases c using box4_cases with
  | b0 | b1 | b2 =>
    cases d using zSize_cases with
    | unsigned z | signed z => cases z <;> exact answersRow_some (isRow_never rfl rfl rfl)
  | b3 | b10 | b11 | b12 | b14 | b15 =>
    cases d using size_cases with
    | sized m => cases m <;> exact answersRow_some (isRow_never rfl rfl rfl)
    | unsized => exact answersRow_some (isRow_never rfl rfl rfl)
  | b4 =>
    cases d using size_cases with
    | sized m =>
      rw [decodeRegister_addi]
      refine answersRow_some ?_
      split
      · next h => obtain ⟨rfl, rfl, rfl⟩ := h; exact isRow_never rfl rfl rfl
      · next h => exact isRow_never rfl (addi_fieldsWf.mpr h) rfl
    | unsized =>
      exact answersRow_some (isRow_never (congrArg (wordOf · _ _ _ _) (condCode_condOf a)) rfl rfl)
  | b5 =>
    cases d using size_cases with
    | sized m => cases m <;> exact answersRow_some (isRow_never rfl rfl rfl)
    | unsized => exact answersRow_none
  | b6 | b7 =>
    cases d using size_cases with
    | sized m => cases m <;> exact answersRow_some (isRow_never rfl rfl rfl)
    | unsized =>
      exact answersRow_some (isRow_never
        (congrArg₂ (wordOf · _ _ _ ·) (nibble_bits a) (nibble_bits e)) rfl rfl)
  | b8 =>
    cases d using size_cases with
    | sized m => cases m <;> exact answersRow_some (isRow_never rfl rfl rfl)
    | unsized =>
      exact answersRow_some (isRow_never
        (congrArg (wordOf · _ _ _ _) (specialCode_specialOf a)) rfl rfl)
  | b9 =>
    cases d using size_cases with
    | sized m => cases m <;> exact answersRow_some (isRow_never rfl rfl rfl)
    | unsized =>
      refine answersRow_some (clearOr_cases ?_ ?_)
      · rintro m rfl; exact isRow_never rfl rfl rfl
      · rintro ps rfl hz; exact isRow_never rfl (congrArg (!·) hz) rfl
  | b13 =>
    cases d using size_cases with
    | sized m => cases m <;> exact answersRow_some (isRow_never rfl rfl rfl)
    | unsized =>
      exact answersRow_some (isRow_never (congrArg (wordOf · _ _ _ _) (nibble_bits a)) rfl rfl)

section Memory

variable {p m : Bool} {a c : BitVec 4} {d : BitVec 2} {r : BitVec 4} {i three : Instr}

/-- A row with a memory operand. -/
theorem isRow_memory (word : encodeWord i = memWord a c d (memOperandOf p m r))
    (fields : i.fieldsWf = (memOperandOf p m r).wf)
    (context : i.prefixed = (memOperandOf p m r).prefixed) :
    IsRow p (wordOf a (memMode m) c d r) i :=
  ⟨word.trans (memWord_memOperandOf ..), fields.trans (memOperandOf_wf ..),
    .inl (context.trans (memOperandOf_prefixed ..))⟩

/-- BDAP and DIP. -/
theorem isRow_prefixWord (word : encodeWord i = memWord a c d (.simple (simpleMemOf m r)))
    (fields : i.fieldsWf = (simpleMemOf m r).wf) (never : i.prefixUse = .never) :
    IsRow p (wordOf a (memMode m) c d r) i :=
  isRow_never (word.trans (memWord_memOperandOf a c d false m r))
    (fields.trans (simpleMemOf_wf m r)) never

/-- A row with a memory operand and the 3-operand row that shares its words. -/
theorem isRow_twoOrThree (word : encodeWord i = memWord a c d (memOperandOf p m r))
    (fields : i.fieldsWf = (memOperandOf p m r).wfTwo)
    (context : i.prefixed = (memOperandOf p m r).prefixed)
    (word3 : encodeWord three = wordOf a 2#2 c d r) (fields3 : three.fieldsWf = true)
    (context3 : three.prefixed = true) :
    IsRow p (wordOf a (memMode m) c d r) (twoOrThree p m i three) := by
  unfold twoOrThree
  cases h : p && !m with
  | false =>
    exact ⟨word.trans (memWord_memOperandOf ..),
      fields.trans ((memOperandOf_wfTwo p m r).trans (congrArg (!·) h)),
      .inl (context.trans (memOperandOf_prefixed ..))⟩
  | true =>
    obtain ⟨rfl, hm⟩ := Bool.and_eq_true_iff.mp h
    obtain rfl := Bool.eq_false_of_not_eq_true' hm
    exact ⟨word3, fields3, .inl context3⟩

theorem decodeJump_answersRow :
    AnswersRow p (wordOf a (memMode m) 4#4 noSize r) (decodeJump a m (memOperandOf p m r) r) := by
  cases a using box4_cases with
  | b0 | b2 | b3 | b6 | b8 | b10 | b11 => exact answersRow_some (isRow_memory rfl rfl rfl)
  | b14 =>
    cases m with
    | false => exact answersRow_some (isRow_never rfl rfl rfl)
    | true => exact answersRow_none
  | b1 | b4 | b5 | b7 | b9 | b12 | b13 | b15 => exact answersRow_none

theorem decodeJumpRegister_answersRow :
    AnswersRow p (wordOf a 2#2 6#4 noSize r) (decodeJumpRegister a r) := by
  cases a using box4_cases with
  | b0 | b2 | b3 | b6 | b10 | b11 => exact answersRow_some (isRow_never rfl rfl rfl)
  | b1 | b4 | b5 | b7 | b8 | b9 | b12 | b13 | b14 | b15 => exact answersRow_none

theorem answersRow_ite {q : Prop} [Decidable q] {w : Half} {x : Option Instr}
    (h : q → AnswersRow p w x) : AnswersRow p w (if q then x else none) := by
  split
  · next hq => exact h hq
  · exact answersRow_none

/-- Modes 10 and 11. -/
theorem decodeMemory_answersRow :
    AnswersRow p (wordOf a (memMode m) c d r) (decodeMemory p m a c d r) := by
  cases c using box4_cases with
  | b0 | b2 =>
    cases d using zSize_cases with
    | unsigned z | signed z =>
      cases z <;> exact answersRow_some (isRow_twoOrThree rfl rfl rfl rfl rfl rfl)
  | b1 | b3 =>
    cases d using zSize_cases with
    | unsigned z | signed z => cases z <;> exact answersRow_some (isRow_memory rfl rfl rfl)
  | b4 =>
    cases d using size_cases with
    | sized k => cases m <;> cases k <;> exact answersRow_some (isRow_never rfl rfl rfl)
    | unsized => exact decodeJump_answersRow
  | b5 =>
    cases d using size_cases with
    | sized k => cases k <;> exact answersRow_some (isRow_prefixWord rfl rfl rfl)
    | unsized =>
      refine answersRow_ite fun h => ?_
      cases h; exact answersRow_some (isRow_prefixWord rfl rfl rfl)
  | b6 =>
    cases d using size_cases with
    | sized k => cases k <;> exact answersRow_none
    | unsized =>
      cases m with
      | false => exact decodeJumpRegister_answersRow
      | true => exact answersRow_none
  | b7 =>
    cases d using size_cases with
    | sized k =>
      cases k <;> exact answersRow_some (isRow_twoOrThree rfl rfl rfl rfl rfl rfl)
    | unsized =>
      refine answersRow_ite fun h => ?_
      obtain ⟨rfl, hr⟩ := Bool.and_eq_true_iff.mp h
      cases eq_of_beq hr
      exact answersRow_some (isRow_never (congrArg (wordOf · _ _ _ _) (condCode_condOf a)) rfl rfl)
  | b8 =>
    cases d using size_cases with
    | sized k =>
      cases k <;> exact answersRow_some (isRow_twoOrThree rfl rfl rfl rfl rfl rfl)
    | unsized =>
      exact answersRow_some (isRow_memory
        (congrArg (memWord · _ _ _) (specialCode_specialOf a)) rfl rfl)
  | b9 =>
    cases d using size_cases with
    | sized k => cases k <;> exact answersRow_some (isRow_memory rfl rfl rfl)
    | unsized =>
      refine answersRow_some (clearOr_cases ?_ ?_)
      · rintro k rfl; exact isRow_memory rfl rfl rfl
      · rintro ps rfl hz
        exact isRow_memory rfl (congrArg (!· && MemOperand.wf _) hz) rfl
  | b10 =>
    cases d using size_cases with
    | sized k =>
      cases k <;> exact answersRow_some (isRow_twoOrThree rfl rfl rfl rfl rfl rfl)
    | unsized => exact answersRow_none
  | b11 =>
    cases d using size_cases with
    | sized k => cases k <;> exact answersRow_some (isRow_memory rfl rfl rfl)
    | unsized => exact answersRow_none
  | b12 | b13 =>
    cases d using size_cases with
    | sized k =>
      cases k <;> exact answersRow_some (isRow_twoOrThree rfl rfl rfl rfl rfl rfl)
    | unsized =>
      refine answersRow_ite fun h => ?_
      cases h; exact answersRow_some (isRow_memory rfl rfl rfl)
  | b14 =>
    cases d using size_cases with
    | sized k =>
      cases k <;>
      · refine answersRow_ite fun h => ?_
        cases h; exact answersRow_some (isRow_memory rfl rfl rfl)
    | unsized => exact answersRow_some (isRow_memory rfl rfl rfl)
  | b15 =>
    cases d using size_cases with
    | sized k => cases k <;> exact answersRow_some (isRow_memory rfl rfl rfl)
    | unsized => exact answersRow_some (isRow_memory rfl rfl rfl)

end Memory

/-- The row of a word is a row whose word it is. -/
theorem rowOf_answersRow (p : Bool) (w : Half) : AnswersRow p w (rowOf p w) := by
  suffices h : ∀ a b c d e, AnswersRow p (wordOf a b c d e) (decodeRow p a b c d e) by
    have := h (op2Of w) (modeOf w) (opcOf w) (sizeBitsOf w) (op1Of w)
    rwa [wordOf_boxes] at this
  intro a b c d e
  cases b using box2_cases with
  | b0 => exact answersRow_some (decodeQuick_isRow p a c d e)
  | b1 => exact decodeRegister_answersRow p a c d e
  | b2 => exact decodeMemory_answersRow (m := false)
  | b3 => exact decodeMemory_answersRow (m := true)

/-- Settles O5: the word has a row whose word it is, and naming the row changes neither its word nor
where it stands. -/
theorem encodeOfDecodeIsTheWord : Obligations.EncodeOfDecodeIsTheWord := by
  intro p w i h
  obtain ⟨j, hj, hp, rfl⟩ := decodeWord_ok.mp h
  obtain ⟨word, fields, context⟩ := rowOf_answersRow p w j hj
  refine ⟨(encodeWord_named j).trans word, named_wf fields, (prefixed_named j).trans ?_⟩
  rcases context with hc | hn
  · exact hc
  · cases p with
    | false => exact prefixed_of_never hn
    | true => exact absurd hn (hp rfl)

end Sys2Proof
end

section
/-! PROOFS. The words that no row matches (30_encoding.md R120), and words the spec writes out. -/

namespace Sys2Proof

/-! ### Reserved words -/

section Reserved

variable {p m : Bool} {a c : BitVec 4} {d : BitVec 2} {e : BitVec 4} {o : MemOperand}

theorem sizeOf?_three : sizeOf? 3#2 = none := rfl

theorem sizeCode_ne (k : Size) : sizeCode k ≠ 3#2 := by cases k <;> decide

theorem decodeRegister_none :
    decodeRegister a c d e = none ↔ c = 5#4 ∧ d = 3#2 := by
  cases c using box4_cases with
  | b0 | b1 | b2 => simp [decodeRegister]
  | b5 =>
    cases d using size_cases with
    | sized k => simp [decodeRegister, sizeOf?_sizeCode, sizeCode_ne]
    | unsized => simp [decodeRegister, noSize, sizeOf?_three]
  | b3 | b4 | b6 | b7 | b8 | b9 | b10 | b11 | b12 | b13 | b14 | b15 =>
    cases d using size_cases with
    | sized k => simp [decodeRegister, sizeOf?_sizeCode]
    | unsized => simp [decodeRegister, sizeOf?_noSize]

theorem decodeJump_none : decodeJump a m o e = none ↔
    a ∈ [1#4, 4#4, 5#4, 7#4, 9#4, 12#4, 13#4, 15#4] ∨ (a = 14#4 ∧ m = true) := by
  cases a using box4_cases <;> simp [decodeJump]

theorem decodeJumpRegister_none : decodeJumpRegister a e = none ↔
    a ∈ [1#4, 4#4, 5#4, 7#4, 8#4, 9#4, 12#4, 13#4, 14#4, 15#4] := by
  cases a using box4_cases <;> simp [decodeJumpRegister]

theorem decodeMemory_none : decodeMemory p m a c d e = none ↔
    (c = 4#4 ∧ d = 3#2 ∧ decodeJump a m (memOperandOf p m e) e = none) ∨
    (c = 5#4 ∧ d = 3#2 ∧ a ≠ 0#4) ∨
    (c = 6#4 ∧ d ≠ 3#2) ∨
    (c = 6#4 ∧ d = 3#2 ∧ (m = false → decodeJumpRegister a e = none)) ∨
    (c = 7#4 ∧ d = 3#2 ∧ (m = true → e ≠ 15#4)) ∨
    ((c = 10#4 ∨ c = 11#4) ∧ d = 3#2) ∨
    ((c = 12#4 ∨ c = 13#4) ∧ d = 3#2 ∧ a ≠ 3#4) ∨
    (c = 14#4 ∧ d ≠ 3#2 ∧ a ≠ 0#4) := by
  cases c using box4_cases with
  | b0 | b1 | b2 | b3 => simp [decodeMemory]
  | b4 | b5 | b6 | b7 | b8 | b9 | b10 | b11 | b12 | b13 | b14 | b15 =>
    cases d using size_cases with
    | sized k => simp [decodeMemory, sizeOf?_sizeCode, sizeCode_ne]
    | unsized => simp [decodeMemory, noSize, sizeOf?_three, pcReg]

end Reserved

/-- Settles O7: the words of no row, mode by mode; mode 00 has a row for every word. -/
theorem reservedWordsAreTheListedPatterns : Obligations.ReservedWordsAreTheListedPatterns := by
  intro w
  rw [decodeWord_reserved, rowOf]
  generalize op2Of w = a, modeOf w = b, opcOf w = c, sizeBitsOf w = d, op1Of w = e
  cases b using box2_cases with
  | b0 => simp [decodeRow]
  | b1 =>
    refine (decodeRegister_none (a := a) (e := e)).trans ?_
    simp
  | b2 =>
    refine (decodeMemory_none (m := false)).trans ?_
    simp [decodeJump_none, decodeJumpRegister_none]
  | b3 =>
    refine (decodeMemory_none (m := true)).trans ?_
    simp [decodeJump_none]

/-! ### Words of the spec -/

/-- Settles O6: each word is decoded by evaluation. -/
theorem writtenOutWordsDecode : Obligations.WrittenOutWordsDecode :=
  ⟨rfl, rfl, rfl, rfl, rfl, rfl, rfl, rfl, rfl, rfl, rfl, rfl, rfl⟩

end Sys2Proof
end

section
/-! PROOFS. The statement about branches (45_control_transfer.md R381). -/

namespace Sys2Proof.Machine

/-- The offset of the 8-bit form as a number: bit 0 of the field is its sign, the other bits are the
offset's bits 7 to 1 (30_encoding.md R118). -/
def branchDistance (o : BitVec 8) : Int :=
  2 * (o.toNat / 2 : Nat) - (if o.getLsbD 0 then 256 else 0)

/-- The sign bit alone, as a signed number. -/
theorem toInt_signBit (o : BitVec 8) :
    (o.extractLsb' 0 1).toInt = if o.getLsbD 0 then -1 else 0 := by
  have h : o.extractLsb' 0 1 = BitVec.ofBool (o.getLsbD 0) := by
    ext j hj
    obtain rfl : j = 0 := by omega
    simp
  rw [h, BitVec.toInt_ofBool]
  cases o.getLsbD 0 <;> rfl

theorem branchOffset_eq (o : BitVec 8) : branchOffset o = BitVec.ofInt 32 (branchDistance o) := by
  have ho := o.isLt
  have hx : o.toNat >>> 1 % 2 ^ 7 = o.toNat / 2 := by
    rw [Nat.shiftRight_one]
    exact Nat.mod_eq_of_lt (by omega)
  refine congrArg (BitVec.ofInt 32) ?_
  rw [BitVec.toInt_append_zero, BitVec.toInt_append, toInt_signBit, BitVec.extractLsb'_toNat, hx,
    if_neg (by decide), branchDistance]
  split <;> omega

/-- The end of an instruction that makes no writes of its own. -/
theorem effect_finish (s : State) (fl : Flow) :
    Effect s (finish s fl) [] [] { s.flags with x := fl.x } where
  written := by simp
  otherRegs := fun g _ => finish_reg s fl g
  writtenSpecials := by simp
  otherSpecials := fun p hp _ => finish_special s fl hp
  flags := finish_flags s fl
  map := finish_memMap s fl

/-- A branch with no delayed jump pending sets one, and changes nothing else but X. -/
theorem branch_completes {i : Instr} {s : State} {q : Cond} {npc off : Word}
    (h : exec i s = .next (branch q npc off s)) (hd : s.delay = none) :
    Completes i s fun t =>
      Effect s t [] [] (clearX s.flags) ∧ KeepsMemory s t ∧
      Control t npc (some ⟨if condHolds q s.flags then .addr (npc + off) else .sequential, false⟩)
        none true ∧
      t.mode = modeAfter s t.flags.u := by
  refine ⟨_, h, effect_finish s _, keepsMemory_finish rfl rfl rfl _,
    ⟨?_, ?_, ?_, rfl, rfl, rfl⟩, ?_⟩
  · rw [branch, finish_pc, hd]; rfl
  · rw [branch, finish_delay, hd]
  · exact finish_pfx s _
  · rw [branch, finish_mode, finish_flags]; rfl

theorem exec_bcc (q : Cond) (o : BitVec 8) (s : State) : exec (.bcc q o) s =
    .next (branch q s.npc0 (BitVec.ofInt 32 (branchDistance o)) s) := by
  rw [← branchOffset_eq]; rfl

/-- The 16-bit form reads its offset, then looks at bit 0. -/
theorem exec_bccW (q : Cond) {s : State} (hf : Fetchable s s.npc0 2) : exec (.bccW q) s =
    if (s.load .word s.npc0).getLsbD 0 then .refused .oddBranchOffset
    else .next (branch q (s.npc0 + 2) (BitVec.ofInt 32 (s.load .word s.npc0).toInt) s) := by
  show execBccW q s = _
  rw [execBccW, (readStream_ok (m := .word)).mpr ⟨hf, rfl⟩, ok_bind]
  cases (s.load .word s.npc0).getLsbD 0 <;> rfl

/-- Settles O50: both forms end in `branch`, the 16-bit form after reading its offset. -/
theorem branchResults : Obligations.BranchResults := by
  refine ⟨fun s q o hd => branch_completes (exec_bcc q o s) hd,
    fun s q hd hf => ⟨fun ho => ?_, fun he => ?_⟩⟩
  · rw [exec_bccW q hf, if_pos ho]
  · refine branch_completes ?_ hd
    rw [exec_bccW q hf, he]
    rfl

end Sys2Proof.Machine
end

section
/-! PROOFS. The statements about operands and prefixes (40_operands_and_prefixes.md R140 to R160):
the 3-operand forms, BDAP, BIAP and DIP, operand addresses, and one register in two roles. -/

namespace Sys2Proof.Machine

/-! ### Operations that write one register -/

/-- From `s`, the operation `u` writes `r` to register `d` and computes the flags `fl`, counted with
X cleared, as the end of the cycle leaves them; it does nothing else. -/
structure WritesReg (s u : State) (d : GReg) (r : Word) (fl : Flags) : Prop where
  isLocal : Local s u
  regs : u.regs = (s.setReg d r).regs
  flags : { u.flags with x := false } = fl

section Operations

variable (m : Size) (d n : GReg) (s : State)

theorem addOp_writesReg (b : BitVec m.bits) : WritesReg s (addOp m d n b s) d
    (merge m (s.reg d) (sumOf (low m (s.reg n)) b (chainIn s.flags)))
    (sumFlags s.flags (low m (s.reg n)) b) where
  isLocal := ⟨rfl⟩
  regs := by rw [← addSized_value]; rfl
  flags := setArith_add m s.flags _ b

theorem subOp_writesReg (b : BitVec m.bits) : WritesReg s (subOp m d n b s) d
    (merge m (s.reg d) (diffOf (low m (s.reg n)) b (chainIn s.flags)))
    (diffFlags s.flags (low m (s.reg n)) b) where
  isLocal := ⟨rfl⟩
  regs := rfl
  flags := setArith_sub m s.flags _ b

theorem addOp_dword_writesReg (b : Word) : WritesReg s (addOp .dword d n b s) d
    (sumOf (s.reg n) b (chainIn s.flags)) (sumFlags s.flags (s.reg n) b) := by
  simpa using addOp_writesReg .dword d n s b

theorem subOp_dword_writesReg (b : Word) : WritesReg s (subOp .dword d n b s) d
    (diffOf (s.reg n) b (chainIn s.flags)) (diffFlags s.flags (s.reg n) b) := by
  simpa using subOp_writesReg .dword d n s b

theorem sizedResult_writesReg (r : BitVec m.bits) :
    WritesReg s (sizedResult m d r s) d (merge m (s.reg d) r) (logicFlags s.flags r) :=
  ⟨⟨rfl⟩, rfl, rfl⟩

theorem logicResult_writesReg (r : Word) :
    WritesReg s (logicResult d r s) d r (logicFlags s.flags r) :=
  ⟨⟨rfl⟩, rfl, rfl⟩

/-- BOUND's comparison takes the lesser of the register and the bound, as numbers. -/
theorem bound_eq_min (x : Word) (b : BitVec m.bits) :
    (if x > b.setWidth 32 then b.setWidth 32 else x) =
      BitVec.ofNat 32 (min x.toNat b.toNat) := by
  have hb : (b.setWidth 32).toNat = b.toNat :=
    BitVec.toNat_setWidth_of_le (by cases m <;> decide)
  split
  next h =>
    have h : b.toNat < x.toNat := hb ▸ BitVec.lt_def.mp h
    rw [Nat.min_eq_right h.le, BitVec.ofNat_toNat]
  next h =>
    have h : x.toNat ≤ b.toNat := Nat.le_of_not_lt fun k => h (BitVec.lt_def.mpr (hb.symm ▸ k))
    rw [Nat.min_eq_left h, BitVec.ofNat_toNat, BitVec.setWidth_eq]

theorem boundOp_writesReg (b : BitVec m.bits) :
    let r : Word := BitVec.ofNat 32 (min (s.reg n).toNat b.toNat)
    WritesReg s (boundOp m d n b s) d r (logicFlags s.flags r) := by
  rw [← bound_eq_min]
  exact logicResult_writesReg d s _

end Operations

/-! ### The 3-operand forms -/

/-- A 3-operand form runs its operation on the value at the pending address (R158). -/
theorem runsTo_three {i : Instr} {m : Size} {op : GReg → GReg → BitVec m.bits → State → State}
    {s : State} {p : Prefix} {n d : GReg} {r : Word} {fl : Flags} (hp : s.pfx = some p)
    (hr : Readable s p.ea m.bytes)
    (hi : exec i s = outcome (threeForm m op (regOf n) (regOf d) s))
    (h : WritesReg s (op d n (s.load m p.ea) s) d r fl) :
    RunsTo i s [(d, r)] fl s.npc0 false := by
  have e := hi.trans (three_next n d hp hr)
  rw [State.done, h.isLocal.npc0] at e
  exact runsTo_one e h.isLocal h.regs h.flags

/-- Settles O40: each form is `runsTo_three` over what its operation writes; the extending ones
are dword operations on the extended value. -/
theorem threeOperandResults : Obligations.ThreeOperandResults := by
  refine ⟨fun s p m n d hp hr => ?_, fun s p z n d hp hr => ?_⟩
  · exact ⟨runsTo_three hp hr rfl (addOp_writesReg m d n s _),
      runsTo_three hp hr rfl (subOp_writesReg m d n s _),
      runsTo_three hp hr rfl (sizedResult_writesReg m d s _),
      runsTo_three hp hr rfl (sizedResult_writesReg m d s _),
      runsTo_three hp hr rfl (boundOp_writesReg m d n s _)⟩
  · rw [ofInt_toInt, ofNat_toNat_setWidth]
    exact ⟨runsTo_three hp hr rfl (addOp_dword_writesReg d n s _),
      runsTo_three hp hr rfl (addOp_dword_writesReg d n s _),
      runsTo_three hp hr rfl (subOp_dword_writesReg d n s _),
      runsTo_three hp hr rfl (subOp_dword_writesReg d n s _)⟩

/-! ### BDAP, BIAP and DIP -/

/-- The end of an instruction whose one write is its operand's address register. -/
theorem effect_finish_commit (s : State) (upd : Option (GReg × Word)) (fl : Flow) :
    Effect s (finish ((Place.mk 0#32 upd).commit s) fl) (updateWrites upd) []
      { s.flags with x := fl.x } where
  written := fun p hp => (finish_reg _ fl _).trans ((Place.commit_writes upd 0#32 s).1 p hp)
  otherRegs := fun g hg => (finish_reg _ fl g).trans ((Place.commit_writes upd 0#32 s).2 g hg)
  writtenSpecials := by simp
  otherSpecials := fun q hq _ => by rw [finish_special _ _ hq, Place.commit_special]
  flags := by rw [finish_flags, Place.commit_flags]
  map := by rw [finish_memMap, Place.commit_memMap]

/-- With no delayed jump pending, an instruction that ends in `finishPrefix` once its operand is
read leaves an address pending and writes its operand's address register. -/
theorem prefix_completes {i : Instr} {s : State} {upd : Option (GReg × Word)} {npc ea : Word}
    {ok : Bool} (hd : s.delay = none)
    (h : exec i s = .next (finishPrefix ((Place.mk 0#32 upd).commit s) npc ea ok)) :
    Completes i s fun t => Effect s t (updateWrites upd) [] s.flags ∧ KeepsMemory s t ∧
      Control t npc none (some ⟨ea, ok⟩) false ∧ t.mode = modeAfter s t.flags.u := by
  rw [finishPrefix, Place.commit_flags] at h
  refine ⟨_, h, effect_finish_commit s upd _,
    keepsMemory_finish (Place.commit_mem _ s) (Place.commit_stored _ s)
      (Place.commit_bfsrDraw _ s) _,
    ⟨?_, ?_, finish_pfx _ _, rfl, rfl, rfl⟩, ?_⟩
  · rw [finish_pc, Place.commit_delay, hd]; rfl
  · rw [finish_delay, Place.commit_delay, hd]
  · rw [finish_mode, finish_flags, Place.commit_mode,
      checkDue_congr (Place.commit_delay _ s) (Place.commit_onceMore _ s)]
    rfl

/-- A source operand that can be read, read. -/
theorem SourceReads.readSource {m : Size} {rule : Operand1Rule} {o : MemOperand} {s : State}
    {v : BitVec m.bits} {upd : Option (GReg × Word)} {npc : Word}
    (h : SourceReads m rule o s v upd npc) :
    readSource m rule o s s.npc0 = .ok ⟨v, (Place.mk 0#32 upd).commit s, npc⟩ :=
  readSource_ok.mpr ⟨upd, h, rfl⟩

theorem exec_bdapQ (o : BitVec 8) (b : GReg) (s : State) : exec (.bdapQ o (regOf b)) s =
    .next (finishPrefix s s.npc0 (s.reg b + BitVec.ofInt 32 o.toInt) true) := by
  show execBdapQ o (regOf b) s = _
  rw [execBdapQ, gpr_regOf]; rfl

theorem exec_biap (m : Size) (i b : GReg) (s : State) : exec (.biap m (regOf i) (regOf b)) s =
    .next (finishPrefix s s.npc0
      (s.reg b + BitVec.ofNat 32 ((s.reg i).toNat * m.bytes)) true) := by
  show execBiap m (regOf i) (regOf b) s = _
  rw [execBiap, gpr_regOf, gpr_regOf, BitVec.ofNat_mul, BitVec.ofNat_toNat, BitVec.setWidth_eq]
  rfl

/-- BDAP reads its base after the operand's update, which the same-register check keeps from being
the base. -/
theorem exec_bdap {m : Size} {o : SimpleMem} {b : GReg} {s : State} {v : BitVec m.bits}
    {upd : Option (GReg × Word)} {npc : Word} (h : SourceReads m .ignored (.simple o) s v upd npc)
    (hn : NotUpdated upd b) : exec (.bdap m o (regOf b)) s =
      .next (finishPrefix ((Place.mk 0#32 upd).commit s) npc
        (s.reg b + BitVec.ofInt 32 v.toInt) true) := by
  show execBdap m o (regOf b) s = _
  rw [execBdap, gpr_regOf, ok_bind, h.noHazard.mpr hn, ok_bind,
    h.readSource, ok_bind, Place.commit_reg_of 0#32 s hn]
  rfl

theorem exec_dip {o : SimpleMem} {s : State} {v : Word} {upd : Option (GReg × Word)} {npc : Word}
    (h : SourceReads .dword .ignored (.simple o) s v upd npc) : exec (.dip o) s =
      .next (finishPrefix ((Place.mk 0#32 upd).commit s) npc v false) := by
  show execDip o s = _
  rw [execDip, h.readSource]
  rfl

/-- Settles O56: all four words end in `finishPrefix`; what is left is the address each computes. -/
theorem prefixWordResults : Obligations.PrefixWordResults := by
  intro s hd
  refine ⟨?_, ?_, ?_, ?_⟩
  · intro b o
    exact prefix_completes (upd := none) hd (exec_bdapQ o b s)
  · intro b i m
    exact prefix_completes (upd := none) hd (exec_biap m i b s)
  · intro b m o v upd npc h hn
    exact prefix_completes hd (exec_bdap h hn)
  · intro o v upd npc h
    exact prefix_completes hd (exec_dip h)

/-! ### Operand addresses -/

theorem place_complex_mismatch {amount : Word} {s : State} {p : Prefix} {op1 r : Reg}
    (hp : s.pfx = some p) (hn : op1 ≠ r) :
    place (.mustBe r) amount s (.complex op1) = refuse .operand1Mismatch := by
  rw [place, pendingPrefix_ok.mpr hp, ok_bind, checkOperand1, beq_eq_false_iff_ne.mpr hn]
  rfl

theorem place_assign_notAssignable {rule : Operand1Rule} {amount : Word} {s : State} {p : Prefix}
    (g : GReg) (hp : s.pfx = some p) (hn : p.assignOk = false) :
    place rule amount s (.assign (regOf g)) = refuse .assignAfterDip := by
  rw [place, pendingPrefix_ok.mpr hp, ok_bind, gpr_regOf, ok_bind, hn]
  rfl

theorem place_assign_pc {rule : Operand1Rule} {amount : Word} {s : State} {p : Prefix}
    (hp : s.pfx = some p) : place rule amount s (.assign pcReg) = refuse .pcOperand := by
  rw [place, pendingPrefix_ok.mpr hp]
  rfl

/-- Settles O16: the four modes that have an address are those of `place_ok`, the refusals those of
the lemmas above. -/
theorem operandAddressesInEveryMode : Obligations.OperandAddressesInEveryMode := by
  intro s rule amount g op1 p
  refine ⟨place_ok.mpr (.inl ⟨g, rfl, rfl⟩), place_ok.mpr (.inr (.inl ⟨g, rfl, rfl⟩)), rfl, rfl,
    fun hp => ?_, fun hp => ?_, place_complex_mismatch, fun hp ha => ?_,
    place_assign_notAssignable g, place_assign_pc⟩
  · exact place_ok.mpr (.inr (.inr (.inl ⟨op1, p, rfl, hp, .inl rfl, rfl⟩)))
  · exact place_ok.mpr (.inr (.inr (.inl ⟨op1, p, rfl, hp, .inr rfl, rfl⟩)))
  · exact place_ok.mpr (.inr (.inr (.inr ⟨g, p, rfl, hp, ha, rfl⟩)))

/-! ### One register in two roles -/

section TwoRoles

variable {m : Size} {o : MemOperand} {g r : GReg} {s : State}

theorem noHazard_updated {q : Reg} (h : MemOperand.updates o = some q) :
    noHazard o q = refuse .sameRegister := by
  rw [noHazard, h, bne_self_eq_false]; rfl

theorem noRangeHazard_updated (h : MemOperand.updates o = some (regOf g)) (hr : g ≤ r) :
    noRangeHazard o (regOf r) = refuse .sameRegister := by
  have hn : ¬ r.val < g.val := Nat.not_lt.mpr hr
  rw [noRangeHazard, h]
  simp only [regOf_toNat, hn, decide_false, require_false]

theorem memForm_updated {op : GReg → GReg → BitVec m.bits → State → State}
    (h : MemOperand.updates o = some (regOf g)) :
    outcome (memForm m op o (regOf g) s) = .refused .sameRegister := by
  rw [memForm, gpr_regOf, ok_bind, noHazard_updated h, refuse_bind, outcome_refuse]

theorem storeForm_updated (h : MemOperand.updates o = some (regOf g)) :
    outcome (storeForm m (regOf g) o s) = .refused .sameRegister := by
  rw [storeForm, gpr_regOf, ok_bind, noHazard_updated h, refuse_bind, outcome_refuse]

theorem execBdap_updated :
    execBdap m (.autoinc (regOf g)) (regOf g) s = .refused .sameRegister := by
  rw [execBdap, gpr_regOf, ok_bind, noHazard_updated rfl, refuse_bind, outcome_refuse]

theorem execMovemLoad_updated (h : MemOperand.updates o = some (regOf g)) (hr : g ≤ r) :
    execMovemLoad o (regOf r) s = .refused .sameRegister := by
  rw [execMovemLoad, gpr_regOf, ok_bind, noRangeHazard_updated h hr, refuse_bind, outcome_refuse]

theorem execMovemStore_updated (h : MemOperand.updates o = some (regOf g)) (hr : g ≤ r) :
    execMovemStore (regOf r) o s = .refused .sameRegister := by
  rw [execMovemStore, gpr_regOf, ok_bind, noRangeHazard_updated h hr, refuse_bind, outcome_refuse]

/-- PUSH SP stores the register that its operand assigns. -/
theorem execPushR_sp : execPushR spReg s = .refused .sameRegister :=
  storeForm_updated (g := 14) (o := .assign spReg) rfl

/-- POP SP loads the register that its operand steps. -/
theorem execPopR_sp : execPopR spReg s = .refused .sameRegister :=
  memForm_updated (g := 14) (o := .simple (.autoinc spReg)) rfl

end TwoRoles

/-- Settles O58: both operands update `g`, and every form checks that before it accesses memory. -/
theorem oneRegisterInTwoRolesIsRefused : Obligations.OneRegisterInTwoRolesIsRefused := by
  intro s m z g r o ho
  have h : MemOperand.updates o = some (regOf g) := by
    simp only [List.mem_cons, List.not_mem_nil, or_false] at ho
    rcases ho with rfl | rfl <;> rfl
  refine ⟨?_, fun hr => ⟨execMovemLoad_updated h hr, execMovemStore_updated h hr⟩⟩
  simp only [List.forall_mem_cons, List.not_mem_nil, IsEmpty.forall_iff, implies_true, and_true]
  exact ⟨
    -- ADD, SUB, AND, OR, BOUND, MOVE and the extending forms
    memForm_updated h, memForm_updated h, memForm_updated h, memForm_updated h, memForm_updated h,
    memForm_updated h, memForm_updated h, memForm_updated h, memForm_updated h, memForm_updated h,
    memForm_updated h, memForm_updated h,
    -- the store, BDAP, PUSH SP and POP SP
    storeForm_updated h, execBdap_updated, execPushR_sp, execPopR_sp⟩

end Sys2Proof.Machine
end

section
/-! PROOFS. What the statements about arithmetic (41_arithmetic.md R200 to R228) rest on: what the
operations write, each form over what its operation writes, and the values as numbers. -/

namespace Sys2Proof.Machine

/-! ### Operations that write one register, or flags alone -/

/-- From `s`, the operation `u` writes no register and computes the flags `fl`, counted with X
cleared, as the end of the cycle leaves them. -/
structure SetsFlags (s u : State) (fl : Flags) : Prop where
  isLocal : Local s u
  regs : u.regs = s.regs
  flags : { u.flags with x := false } = fl

section Operations

variable (m : Size) (d : GReg) (s : State)

theorem cmpOp_setsFlags (b : BitVec m.bits) :
    SetsFlags s (cmpOp m d b s) (diffFlags s.flags (low m (s.reg d)) b) :=
  ⟨⟨rfl⟩, rfl, setArith_sub m s.flags _ b⟩

theorem cmpOp_dword_setsFlags (b : Word) :
    SetsFlags s (cmpOp .dword d b s) (diffFlags s.flags (s.reg d) b) := by
  simpa using cmpOp_setsFlags .dword d s b

theorem setLogic_setsFlags {w : Nat} (v : BitVec w) :
    SetsFlags s { s with flags := s.flags.setLogic v } (logicFlags s.flags v) :=
  ⟨⟨rfl⟩, rfl, rfl⟩

theorem negOp_writesReg (b : BitVec m.bits) : WritesReg s (negOp m d b s) d
    (merge m (s.reg d) (diffOf 0#m.bits b (chainIn s.flags)))
    (diffFlags s.flags 0#m.bits b) :=
  ⟨⟨rfl⟩, rfl, setArith_sub m s.flags _ b⟩

/-- A dword result with N cleared and Z of the result. -/
theorem setNZ_writesReg (r : Word) (z : Bool) :
    WritesReg s { s.setReg d r with flags := s.flags.setNZ false z } d r
      (ccFlags s.flags false z false false) :=
  ⟨⟨rfl⟩, rfl, rfl⟩

theorem setReg_writesReg (r : Word) : WritesReg s (s.setReg d r) d r (clearX s.flags) :=
  ⟨⟨rfl⟩, rfl, rfl⟩

end Operations

/-! ### The forms, over what their operation writes -/

section Forms

variable {i : Instr} {m : Size} {s u : State} {x d : GReg} {r : Word} {fl : Flags}

theorem WritesReg.runsTo (h : WritesReg s u d r fl) (e : exec i s = .next u.done) :
    RunsTo i s [(d, r)] fl s.npc0 false := by
  rw [State.done, h.isLocal.npc0] at e
  exact runsTo_one e h.isLocal h.regs h.flags

theorem SetsFlags.runsTo (h : SetsFlags s u fl) (e : exec i s = .next u.done) :
    RunsTo i s [] fl s.npc0 false := by
  rw [State.done, h.isLocal.npc0] at e
  exact runsTo_none e h.isLocal h.regs h.flags

theorem runsTo_quick {op : GReg → State → State}
    (hi : exec i s = outcome (quickForm op (regOf d) s)) (h : WritesReg s (op d s) d r fl) :
    RunsTo i s [(d, r)] fl s.npc0 false :=
  h.runsTo (hi.trans (quick_next d s))

theorem runsTo_pair {op : GReg → GReg → State → State}
    (hi : exec i s = outcome (pairForm op (regOf x) (regOf d) s))
    (h : WritesReg s (op x d s) d r fl) : RunsTo i s [(d, r)] fl s.npc0 false :=
  h.runsTo (hi.trans (pair_next x d s))

theorem runsTo_reg {op : GReg → GReg → BitVec m.bits → State → State}
    (hi : exec i s = outcome (regForm m op (regOf x) (regOf d) s))
    (h : WritesReg s (op d d (low m (s.reg x)) s) d r fl) :
    RunsTo i s [(d, r)] fl s.npc0 false :=
  h.runsTo (hi.trans (reg_next x d s))

variable {o : MemOperand} {v : BitVec m.bits} {upd : Option (GReg × Word)} {npc : Word}

/-- A form with a memory or immediate source runs its operation on the state in which the operand's
own update is made (R150). -/
theorem runsTo_mem {op : GReg → GReg → BitVec m.bits → State → State}
    (hs : SourceReads m (.mustBe (regOf d)) o s v upd npc) (hn : NotUpdated upd d)
    (hi : exec i s = outcome (memForm m op o (regOf d) s))
    (h : WritesReg ((Place.mk 0#32 upd).commit s) (op d d v ((Place.mk 0#32 upd).commit s))
      d r fl) :
    RunsTo i s ((d, r) :: updateWrites upd) fl npc false :=
  runsTo_update (hi.trans (mem_next hs hn)) ((Place.commit_local _ s).trans h.isLocal) hn h.regs
    h.flags

/-- As `runsTo_mem`, for a form that writes flags alone. -/
theorem runsTo_test {op : BitVec m.bits → State → State}
    (hs : SourceReads m .ignored o s v upd npc)
    (hi : exec i s = outcome (testForm m op o s))
    (h : SetsFlags ((Place.mk 0#32 upd).commit s) (op v ((Place.mk 0#32 upd).commit s)) fl) :
    RunsTo i s (updateWrites upd) fl npc false :=
  runsTo_updateOnly (hi.trans (test_next hs)) ((Place.commit_local _ s).trans h.isLocal) h.regs
    h.flags

end Forms

/-- A comparison names its register, then reads its operand. -/
theorem cmpForm_regOf {m : Size} {op : GReg → BitVec m.bits → State → State} {o : MemOperand}
    (d : GReg) (s : State) :
    outcome (do let d ← gpr (regOf d); testForm m (op d) o s) =
      outcome (testForm m (op d) o s) := by
  rw [gpr_regOf, ok_bind]

/-! ### Values -/

theorem abs_value (x : Word) :
    (if x.msb then 0#32 - x else x) = BitVec.ofInt 32 |x.toInt| := by
  rw [BitVec.msb_eq_toInt]
  split
  next h =>
    rw [abs_of_neg (of_decide_eq_true h), BitVec.ofInt_neg, BitVec.ofInt_toInt, BitVec.zero_sub]
  next h =>
    rw [abs_of_nonneg (not_lt.mp fun k => h (decide_eq_true k)), BitVec.ofInt_toInt]

/-- The topmost bit of a number below `2 ^ (k + 1)` says whether the number reaches `2 ^ k`. -/
theorem getLsbD_top {w k : Nat} {v : BitVec w} (h : v.toNat < 2 ^ (k + 1)) :
    v.getLsbD k = true ↔ 2 ^ k ≤ v.toNat := by
  rw [BitVec.getLsbD, Nat.testBit_eq_decide_div_mod_eq, decide_eq_true_eq,
    Nat.mod_eq_of_lt (Nat.div_lt_of_lt_mul (Nat.pow_succ 2 k ▸ h)),
    Nat.div_eq_iff (Nat.two_pow_pos k)]
  omega

/-- LZ's search from bit `k - 1` down finds the bit that the logarithm names. -/
theorem leadingZeros_eq_log2 {v : Word} {k : Nat} (h : v.toNat < 2 ^ k) :
    leadingZeros v k = if v = 0#32 then 32 else 31 - v.toNat.log2 := by
  induction k with
  | zero =>
    have hv : v = 0#32 := BitVec.eq_of_toNat_eq (by simpa using h)
    rw [if_pos hv, leadingZeros]
  | succ k ih =>
    rw [leadingZeros]
    split
    next hk =>
      have hk : 2 ^ k ≤ v.toNat := (getLsbD_top h).mp hk
      have hn : v.toNat ≠ 0 := (Nat.two_pow_pos k |>.trans_le hk).ne'
      have hv : v ≠ 0#32 := fun e => hn (congrArg BitVec.toNat e)
      rw [if_neg hv, (Nat.log2_eq_iff hn).mpr ⟨hk, h⟩]
    next hk => exact ih (Nat.lt_of_not_le fun hle => hk ((getLsbD_top h).mpr hle))

/-- A number below `2 ^ 32` is zero as a word only where it is zero. -/
theorem ofNat_beq_zero {k : Nat} (h : k < 2 ^ 32) :
    (BitVec.ofNat 32 k == 0#32) = decide (k = 0) := by
  rw [Bool.eq_iff_iff, beq_iff_eq, decide_eq_true_eq, ← BitVec.toNat_inj, BitVec.toNat_ofNat,
    Nat.mod_eq_of_lt h]
  rfl

theorem shiftLeft_one (x : Word) : x <<< 1 = BitVec.ofNat 32 (2 * x.toNat) := by
  apply BitVec.eq_of_toNat_eq
  simp [BitVec.toNat_shiftLeft, Nat.shiftLeft_eq, Nat.mul_comm]

theorem dstep_value (t x : Word) :
    (if t < x then t else t - x) = if x.toNat ≤ t.toNat then t - x else t := by
  simp only [BitVec.lt_def, ← Nat.not_le, ite_not]

theorem mstep_value (a b : Word) (n : Bool) :
    (if n then a <<< 1 + b else a <<< 1) =
      BitVec.ofNat 32 (2 * a.toNat + if n then b.toNat else 0) := by
  rw [shiftLeft_one]
  cases n
  · rfl
  · rw [if_pos rfl, if_pos rfl, BitVec.ofNat_add, BitVec.ofNat_toNat 32 b, BitVec.setWidth_eq]

theorem addi_value (m : Size) (a b : Word) :
    a + b * Size.amount m = BitVec.ofNat 32 (a.toNat + b.toNat * m.bytes) := by
  rw [BitVec.ofNat_add, BitVec.ofNat_mul, BitVec.ofNat_toNat, BitVec.ofNat_toNat,
    BitVec.setWidth_eq, BitVec.setWidth_eq]
  rfl

/-! ### Products -/

section Product

variable (p : BitVec 64)

theorem product_low_ofInt : p.extractLsb' 0 32 = BitVec.ofInt 32 p.toInt := by
  apply BitVec.eq_of_toNat_eq
  simp only [BitVec.extractLsb'_toNat, BitVec.toNat_ofInt, BitVec.toInt_eq_toNat_cond]
  split <;> omega

theorem product_high_ofInt : p.extractLsb' 32 32 = BitVec.ofInt 32 (p.toInt / 2 ^ 32) := by
  apply BitVec.eq_of_toNat_eq
  simp only [BitVec.extractLsb'_toNat, BitVec.toNat_ofInt, BitVec.toInt_eq_toNat_cond,
    Nat.shiftRight_eq_div_pow]
  split <;> omega

theorem product_beq_zero_toInt : (p == 0#64) = decide (p.toInt = 0) := by
  rw [Bool.eq_iff_iff, beq_iff_eq, decide_eq_true_eq, ← BitVec.toInt_inj, BitVec.toInt_zero]

/-- MULS's V: the high half is not the sign of the low half exactly where the product has no signed
reading in 32 bits. -/
theorem product_overflow_signed :
    ((!p.getLsbD 31 && p.extractLsb' 32 32 != 0#32) ||
      (p.getLsbD 31 && p.extractLsb' 32 32 != 0xFFFFFFFF#32)) = signedOverflow 32 p.toInt := by
  have := p.isLt
  rw [Bool.eq_iff_iff, signedOverflow, BitVec.getLsbD, Nat.testBit_eq_decide_div_mod_eq]
  simp only [Bool.or_eq_true, Bool.and_eq_true, bne_iff_ne, ne_eq, Bool.not_eq_true',
    decide_eq_true_eq, decide_eq_false_iff_not, ← BitVec.toNat_inj, BitVec.extractLsb'_toNat,
    BitVec.toInt_eq_toNat_cond, Nat.shiftRight_eq_div_pow, BitVec.toNat_ofNat]
  split <;> omega

theorem product_low_ofNat : p.extractLsb' 0 32 = BitVec.ofNat 32 p.toNat := rfl

theorem product_high_ofNat : p.extractLsb' 32 32 = BitVec.ofNat 32 (p.toNat / 2 ^ 32) :=
  congrArg (BitVec.ofNat 32) (Nat.shiftRight_eq_div_pow p.toNat 32)

theorem product_beq_zero_toNat : (p == 0#64) = decide (p.toNat = 0) := by
  rw [Bool.eq_iff_iff, beq_iff_eq, decide_eq_true_eq, ← BitVec.toNat_inj]
  rfl

/-- MULU's V: the product does not fit in 32 bits. -/
theorem product_overflow_unsigned : (p.extractLsb' 32 32 != 0#32) = decide (2 ^ 32 ≤ p.toNat) := by
  have := p.isLt
  rw [product_high_ofNat, Bool.eq_iff_iff, bne_iff_ne, decide_eq_true_eq, ne_eq, ← BitVec.toNat_inj,
    BitVec.toNat_ofNat, BitVec.toNat_ofNat]
  omega

end Product

/-- A product of two sized signed values fits in 64 bits. -/
theorem product_toInt (m : Size) (a b : BitVec m.bits) :
    (a.signExtend 64 * b.signExtend 64).toInt = a.toInt * b.toInt := by
  have hm : m.bits ≤ 64 := by cases m <;> decide
  have hp : (2 : Int) ^ (m.bits * 2 - 2) ≤ 2 ^ 62 :=
    pow_le_pow_right₀ (by decide) (by cases m <;> decide)
  have lo := BitVec.le_toInt_mul_toInt (x := a) (y := b)
  have hi := BitVec.toInt_mul_toInt_le (x := a) (y := b)
  rw [BitVec.toInt_mul, BitVec.toInt_signExtend_of_le hm, BitVec.toInt_signExtend_of_le hm]
  exact Int.bmod_eq_of_le (by omega) (by omega)

/-- A product of two sized unsigned values fits in 64 bits. -/
theorem product_toNat (m : Size) (a b : BitVec m.bits) :
    (a.setWidth 64 * b.setWidth 64).toNat = a.toNat * b.toNat := by
  have hm : m.bits ≤ 64 := by cases m <;> decide
  have hp : 2 ^ m.bits * 2 ^ m.bits ≤ 2 ^ 64 := by cases m <;> decide
  rw [BitVec.toNat_mul, BitVec.toNat_setWidth_of_le hm, BitVec.toNat_setWidth_of_le hm]
  exact Nat.mod_eq_of_lt ((Nat.mul_lt_mul'' a.isLt b.isLt).trans_le hp)

theorem mulsOp_eq (m : Size) (d : GReg) (b : BitVec m.bits) (s : State) :
    let p := b.signExtend 64 * (low m (s.reg d)).signExtend 64
    mulsOp m d b s = productResult d p (signedOverflow 32 p.toInt) s :=
  congrArg (productResult d _ · s) (product_overflow_signed _)

theorem muluOp_eq (m : Size) (d : GReg) (b : BitVec m.bits) (s : State) :
    let p := b.setWidth 64 * (low m (s.reg d)).setWidth 64
    muluOp m d b s = productResult d p (decide (2 ^ 32 ≤ p.toNat)) s :=
  congrArg (productResult d _ · s) (product_overflow_unsigned _)

/-- An instruction that ends in a product writes MOF beside its register. -/
theorem product_completes {i : Instr} {s : State} {d : GReg} {p : BitVec 64} {v : Bool}
    (e : exec i s = .next (productResult d p v s).done) :
    Completes i s fun t =>
      Effect s t [(d, p.extractLsb' 0 32)] [(.mof, p.extractLsb' 32 32)]
        (ccFlags s.flags p.msb (p == 0#64) v false) ∧
      KeepsMemory s t ∧ Ends s t s.npc0 false := by
  refine ⟨_, e, ⟨?_, ?_, ?_, ?_, finish_flags _ _, finish_memMap _ _⟩,
    keepsMemory_finish (s := s) (u := productResult d p v s) rfl rfl rfl _,
    ends_finish (s := s) (u := productResult d p v s) rfl rfl rfl false⟩
  · intro q hq
    rw [List.mem_singleton.mp hq]
    exact (finish_reg _ _ d).trans (State.setReg_reg_same s d _)
  · intro g hg
    have hg : d ≠ g := fun h => hg (List.mem_singleton.mpr h.symm)
    exact (finish_reg _ _ g).trans (State.setReg_reg_other s _ hg)
  · intro q hq
    rw [List.mem_singleton.mp hq]
    exact finish_mof _ _
  · intro q hq hn
    refine (finish_special _ _ hq).trans ?_
    cases q with
    | mof => exact absurd (List.mem_singleton.mpr rfl) hn
    | ccr | dccr => exact absurd hq (by decide)
    | _ => rfl

end Sys2Proof.Machine
end

section
/-! PROOFS. The statements about arithmetic, logic and loads with a register, a quick immediate, or
a memory or immediate source (41_arithmetic.md R200 to R228; 42_logic_shift_bit.md R261, R273;
43_move.md R302, R309 to R311, R316). -/

namespace Sys2Proof.Machine

/-! ### A memory or immediate source -/

/-- Settles O37: the operation runs once the operand's update is made, which leaves Rd and the flags
as they were. -/
theorem memoryArithmeticResults : Obligations.MemoryArithmeticResults := by
  refine ⟨fun s m o d v upd npc hs hn => ?_, fun s z o d v upd npc hs hn => ?_⟩
  · rw [← Place.commit_reg_of 0#32 s hn, ← Place.commit_flags ⟨0#32, upd⟩ s]
    exact ⟨runsTo_mem hs hn rfl (addOp_writesReg m d d _ v),
      runsTo_mem hs hn rfl (subOp_writesReg m d d _ v)⟩
  · rw [ofInt_toInt, ofNat_toNat_setWidth, ← Place.commit_reg_of 0#32 s hn,
      ← Place.commit_flags ⟨0#32, upd⟩ s]
    exact ⟨runsTo_mem hs hn rfl (addOp_dword_writesReg d d _ _),
      runsTo_mem hs hn rfl (addOp_dword_writesReg d d _ _),
      runsTo_mem hs hn rfl (subOp_dword_writesReg d d _ _),
      runsTo_mem hs hn rfl (subOp_dword_writesReg d d _ _)⟩

/-- Settles O38: as O37; POP is the autoincrement form on SP, and a simple operand is read alike
under every Operand1 rule. -/
theorem memoryLogicAndLoadResults : Obligations.MemoryLogicAndLoadResults := by
  refine ⟨fun s m o d v upd npc hs hn => ?_, fun s z o d v upd npc hs hn => ?_, fun s d hd hr => ?_⟩
  · rw [← Place.commit_reg_of 0#32 s hn, ← Place.commit_flags ⟨0#32, upd⟩ s]
    exact ⟨runsTo_mem hs hn rfl (sizedResult_writesReg m d _ _),
      runsTo_mem hs hn rfl (sizedResult_writesReg m d _ _),
      runsTo_mem hs hn rfl (boundOp_writesReg m d d _ v),
      runsTo_mem hs hn rfl (sizedResult_writesReg m d _ v)⟩
  · rw [ofInt_toInt, ofNat_toNat_setWidth, ← Place.commit_flags ⟨0#32, upd⟩ s]
    exact ⟨runsTo_mem hs hn rfl (logicResult_writesReg d _ _),
      runsTo_mem hs hn rfl (setNZ_writesReg d _ _ _)⟩
  · have hs : SourceReads .dword (.mustBe (regOf d)) (.simple (.autoinc spReg)) s
        (s.load .dword (s.reg 14)) (some (14, s.reg 14 + 4)) s.npc0 := sourceReads_pop hr
    have hn : NotUpdated (some (14, s.reg 14 + 4)) d := by
      rintro v e
      exact hd (congrArg Prod.fst (Option.some.inj e)).symm
    rw [← Place.commit_flags ⟨0#32, some (14, s.reg 14 + 4)⟩ s]
    exact runsTo_mem hs hn rfl (sizedResult_writesReg .dword d _ _)

/-- Settles O39: the comparison reads Rd from the state in which the operand's update is made. -/
theorem memoryCompareResults : Obligations.MemoryCompareResults := by
  refine ⟨fun s m o d v upd npc hs => ?_, fun s z o d v upd npc hs => ?_⟩
  · rw [← Place.commit_reg ⟨0#32, upd⟩ s d, ← Place.commit_flags ⟨0#32, upd⟩ s]
    exact ⟨runsTo_test hs (cmpForm_regOf d s) (cmpOp_setsFlags m d _ v),
      runsTo_test hs rfl (setLogic_setsFlags _ v)⟩
  · rw [ofInt_toInt, ofNat_toNat_setWidth, ← Place.commit_reg ⟨0#32, upd⟩ s d,
      ← Place.commit_flags ⟨0#32, upd⟩ s]
    exact ⟨runsTo_test hs (cmpForm_regOf d s) (cmpOp_dword_setsFlags d _ _),
      runsTo_test hs (cmpForm_regOf d s) (cmpOp_dword_setsFlags d _ _)⟩

/-! ### Quick immediates and two registers -/

/-- Settles O28: dword operations on the extended immediate. -/
theorem quickArithmeticResults : Obligations.QuickArithmeticResults := by
  intro s d j i
  rw [ofInt_toInt, ofNat_toNat_setWidth]
  exact ⟨runsTo_quick rfl (addOp_dword_writesReg d d s _),
    runsTo_quick rfl (subOp_dword_writesReg d d s _),
    (cmpOp_dword_setsFlags d s _).runsTo (quick_next d s)⟩

/-- Settles O29: each form over what its operation writes; the extending ones are dword operations
on the extended source. -/
theorem registerArithmeticResults : Obligations.RegisterArithmeticResults := by
  refine ⟨fun s m x d => ?_, fun s z x d => ?_⟩
  · exact ⟨runsTo_reg rfl (addOp_writesReg m d d s _),
      runsTo_reg rfl (subOp_writesReg m d d s _),
      runsTo_reg rfl (negOp_writesReg m d s _),
      (cmpOp_setsFlags m d s _).runsTo (reg_next x d s)⟩
  · rw [ofInt_toInt, ofNat_toNat_setWidth]
    exact ⟨runsTo_reg rfl (addOp_dword_writesReg d d s _),
      runsTo_reg rfl (addOp_dword_writesReg d d s _),
      runsTo_reg rfl (subOp_dword_writesReg d d s _),
      runsTo_reg rfl (subOp_dword_writesReg d d s _)⟩

/-- Settles O31: what is left over the forms is the value each page names: the absolute value, the
position of the highest 1 bit, the lesser of two numbers, the extended source. -/
theorem absBoundLzAndExtendingMoveResults : Obligations.AbsBoundLzAndExtendingMoveResults := by
  refine ⟨fun s x d => ⟨?_, ?_⟩, fun s m x d => ?_, fun s z x d => ?_⟩
  · rw [← abs_value]
    exact runsTo_pair rfl (logicResult_writesReg d s _)
  · intro k
    have hk : leadingZeros (s.reg x) 32 = k := leadingZeros_eq_log2 (s.reg x).isLt
    have k_lt : k < 2 ^ 32 := by
      dsimp only [k]
      split <;> omega
    rw [← ofNat_beq_zero k_lt, ← hk]
    exact runsTo_pair rfl (setNZ_writesReg d s _ _)
  · exact runsTo_reg rfl (boundOp_writesReg m d d s _)
  · rw [ofInt_toInt, ofNat_toNat_setWidth]
    exact ⟨runsTo_reg rfl (logicResult_writesReg d s _), runsTo_reg rfl (setNZ_writesReg d s _ _)⟩

/-! ### DSTEP and MSTEP -/

theorem dstepOp_writesReg (x d : GReg) (s : State) :
    let t : Word := BitVec.ofNat 32 (2 * (s.reg d).toNat)
    let r : Word := if (s.reg x).toNat ≤ t.toNat then t - s.reg x else t
    WritesReg s (dstepOp x d s) d r (logicFlags s.flags r) := by
  intro t r
  have hr : dstepOp x d s = logicResult d r s := by
    rw [dstepOp, shiftLeft_one, dstep_value]
  rw [hr]
  exact logicResult_writesReg d s r

theorem mstepOp_writesReg (x d : GReg) (s : State) :
    let r : Word := BitVec.ofNat 32
      (2 * (s.reg d).toNat + if s.flags.n then (s.reg x).toNat else 0)
    WritesReg s (mstepOp x d s) d r (logicFlags s.flags r) := by
  rw [← mstep_value]
  exact logicResult_writesReg d s _

/-- DSTEP and MSTEP of one register twice. -/
theorem stepForm_same {op : GReg → GReg → State → State} (r : Reg) (s : State) :
    outcome (do require (r != r) .stepSameRegister; pairForm op r r s) =
      .refused .stepSameRegister := by
  rw [bne_self_eq_false, require_false, refuse_bind, outcome_refuse]

/-- DSTEP and MSTEP of two registers. -/
theorem stepForm_distinct {op : GReg → GReg → State → State} {x d : GReg} (h : x ≠ d)
    (s : State) :
    outcome (do require (regOf x != regOf d) .stepSameRegister; pairForm op (regOf x) (regOf d) s) =
      outcome (pairForm op (regOf x) (regOf d) s) := by
  rw [bne_iff_ne.mpr (mt regOf_inj.mp h), require_true, ok_bind]

/-- Settles O33: both compare their registers first, and then are operations on two registers. -/
theorem divideAndMultiplyStepResults : Obligations.DivideAndMultiplyStepResults := by
  refine ⟨fun s x d h => ⟨?_, ?_⟩, fun s r => ⟨stepForm_same r s, stepForm_same r s⟩⟩
  · exact runsTo_pair (stepForm_distinct h s) (dstepOp_writesReg x d s)
  · exact runsTo_pair (stepForm_distinct h s) (mstepOp_writesReg x d s)

/-! ### Multiplication, and ADDI -/

/-- A word with its boxes Mode and Opcode written as one (30_encoding.md R101). -/
theorem wordOf_eq_append (a : BitVec 4) (b : BitVec 2) (c : BitVec 4) (d : BitVec 2)
    (e : BitVec 4) : wordOf a b c d e = a ++ (b ++ c) ++ d ++ e := by
  rw [wordOf, BitVec.append_assoc (x₁ := a)]
  rfl

/-- Settles O34: the 64-bit product is the exact one (`product_toInt`, `product_toNat`), and its
halves and flags are those of a number. -/
theorem multiplyResults : Obligations.MultiplyResults := by
  refine ⟨fun s m x d => ⟨?_, ?_⟩, fun s m rs => ⟨rfl, rfl⟩, fun m rs rd => ⟨?_, ?_⟩⟩
  · have e : exec (.muls m (regOf x) (regOf d)) s = .next (mulsOp m d (low m (s.reg x)) s).done :=
      reg_next x d s
    rw [mulsOp_eq] at e
    have c := product_completes e
    rwa [product_low_ofInt, product_high_ofInt, product_beq_zero_toInt, BitVec.msb_eq_toInt,
      product_toInt] at c
  · have e : exec (.mulu m (regOf x) (regOf d)) s = .next (muluOp m d (low m (s.reg x)) s).done :=
      reg_next x d s
    rw [muluOp_eq] at e
    have c := product_completes e
    rwa [product_low_ofNat, product_high_ofNat, product_beq_zero_toNat, BitVec.msb_eq_decide,
      product_toNat] at c
  · exact wordOf_eq_append rd 3#2 4#4 (sizeCode m) rs
  · exact wordOf_eq_append rd 2#2 4#4 (sizeCode m) rs

/-- Settles O35: the scaled sum as a number; the registers are looked at base first. -/
theorem addIndexResults : Obligations.AddIndexResults := by
  refine ⟨fun s m x d => ?_, fun s m r => ⟨rfl, pairForm_pc_source⟩,
    fun m rs rd => wordOf_eq_append rs 1#2 4#4 (sizeCode m) rd, rfl⟩
  rw [← addi_value]
  exact runsTo_pair rfl (setReg_writesReg d s _)

end Sys2Proof.Machine
end

section
/-! PROOFS. What the statements about shifts, bit tests and SWAP (42_logic_shift_bit.md R260 to R277)
rest on: the words of the quick forms, shifts as quotients and products, runs of zero bits, and
where each option of SWAP takes a bit from. -/

namespace Sys2Proof.Machine

/-! ### Words as appended fields -/

theorem quick6Word_eq_append (a c : BitVec 4) (i : BitVec 6) :
    quick6Word a c i = a ++ (0#2 ++ c) ++ i := by
  rw [quick6Word, wordOf_eq_append, BitVec.append_assoc (x₁ := a ++ (0#2 ++ c)), quick6_boxes]
  rfl

theorem quick5Word_eq_append (a c : BitVec 4) (sub : BitVec 1) (i : BitVec 5) :
    quick5Word a c sub i = a ++ (0#2 ++ c ++ sub) ++ i := by
  have count : sub ++ i.extractLsb' 4 1 ++ i.extractLsb' 0 4 = sub ++ i := by
    rw [BitVec.append_assoc, quick5_boxes]
    rfl
  calc quick5Word a c sub i
    _ = a ++ (0#2 ++ c) ++ (sub ++ i.extractLsb' 4 1) ++ i.extractLsb' 0 4 := wordOf_eq_append ..
    _ = a ++ (0#2 ++ c) ++ (sub ++ i) :=
      BitVec.append_assoc.trans (congrArg (a ++ (0#2 ++ c) ++ ·) count)
    _ = a ++ (0#2 ++ c) ++ sub ++ i := BitVec.append_assoc.symm
    _ = a ++ (0#2 ++ c ++ sub) ++ i := congrArg (· ++ i) BitVec.append_assoc

theorem unsizedWord_eq_append (a : BitVec 4) (b : BitVec 2) (c e : BitVec 4) :
    wordOf a b c noSize e = a ++ (b ++ c ++ noSize) ++ e := by
  rw [wordOf_eq_append, BitVec.append_assoc (x₁ := a)]
  rfl

/-! ### Shifts -/

theorem shiftLeft_eq_ofNat {w : Nat} (v : BitVec w) (n : Nat) :
    v <<< n = BitVec.ofNat w (v.toNat * 2 ^ n) :=
  congrArg (BitVec.ofNat w) (Nat.shiftLeft_eq v.toNat n)

theorem ushiftRight_eq_ofNat {w : Nat} (v : BitVec w) (n : Nat) :
    v >>> n = BitVec.ofNat w (v.toNat / 2 ^ n) := by
  rw [← Nat.shiftRight_eq_div_pow, ← BitVec.toNat_ushiftRight, BitVec.ofNat_toNat,
    BitVec.setWidth_eq]

/-- The low bits of an arithmetic shift are those of the floor of the signed quotient. -/
theorem setWidth_sshiftRight {w k : Nat} (h : k ≤ w) (v : BitVec w) (n : Nat) :
    (v.sshiftRight n).setWidth k = BitVec.ofInt k (v.toInt / 2 ^ n) := by
  rw [← BitVec.signExtend_eq_setWidth_of_le _ h, ← ofInt_toInt, BitVec.toInt_sshiftRight,
    Int.shiftRight_eq_div_pow, Nat.cast_pow]
  rfl

theorem sshiftRight_eq_ofInt {w : Nat} (v : BitVec w) (n : Nat) :
    v.sshiftRight n = BitVec.ofInt w (v.toInt / 2 ^ n) := by
  rw [← setWidth_sshiftRight w.le_refl, BitVec.setWidth_eq]

theorem size_bits_le (m : Size) : m.bits ≤ 32 := by cases m <;> decide

theorem shiftCount_eq (v : Word) : shiftCount v = v.toNat % 64 := rfl

section Operations

variable (m : Size) (x d : GReg) (s : State)

theorem asrOp_eq : asrOp m x d s = sizedResult m d
    (BitVec.ofInt m.bits ((low m (s.reg d)).toInt / 2 ^ min ((s.reg x).toNat % 64) 31)) s := by
  have h := setWidth_sshiftRight (size_bits_le m) ((low m (s.reg d)).signExtend 32)
    (min (shiftCount (s.reg x)) 31)
  rw [BitVec.toInt_signExtend_of_le (size_bits_le m), shiftCount_eq] at h
  exact congrArg (sizedResult m d · s) h

/-- The case of a count of 32 or more agrees with the shift itself. -/
theorem lslOp_eq : lslOp m x d s = sizedResult m d
    (BitVec.ofNat m.bits ((low m (s.reg d)).toNat * 2 ^ ((s.reg x).toNat % 64))) s := by
  rw [← shiftCount_eq, ← shiftLeft_eq_ofNat]
  refine congrArg (sizedResult m d · s) (ite_eq_right_iff.mpr fun h => ?_)
  exact (BitVec.shiftLeft_eq_zero ((size_bits_le m).trans h)).symm

theorem lsrOp_eq : lsrOp m x d s = sizedResult m d
    (BitVec.ofNat m.bits ((low m (s.reg d)).toNat / 2 ^ ((s.reg x).toNat % 64))) s := by
  rw [← shiftCount_eq, ← ushiftRight_eq_ofNat]
  refine congrArg (sizedResult m d · s) (ite_eq_right_iff.mpr fun h => ?_)
  exact (BitVec.ushiftRight_eq_zero ((size_bits_le m).trans h)).symm

/-! ### Bit tests, and TEST -/

/-- The remainder by `2 ^ (b + 1)` is zero where bits `b` to 0 are. -/
theorem toNat_mod_eq_zero_iff {w : Nat} (v : BitVec w) (b : Nat) :
    v.toNat % 2 ^ (b + 1) = 0 ↔ ∀ k ≤ b, v.getLsbD k = false := by
  have bit (k : Nat) : (v.toNat % 2 ^ (b + 1)).testBit k = (decide (k ≤ b) && v.getLsbD k) := by
    rw [Nat.testBit_mod_two_pow, BitVec.testBit_toNat]
    simp only [Nat.lt_succ_iff]
  constructor
  · intro h k hk
    have := bit k
    rwa [h, Nat.zero_testBit, decide_eq_true hk, Bool.true_and, eq_comm] at this
  · intro h
    refine Nat.zero_of_testBit_eq_false fun k => (bit k).trans ?_
    by_cases hk : k ≤ b
    · rw [h k hk, Bool.and_false]
    · rw [decide_eq_false hk, Bool.false_and]

theorem bitTest_setsFlags (b : Nat) : SetsFlags s (bitTest d b s)
    (ccFlags s.flags ((s.reg d).getLsbD b) (decide (∀ k ≤ b, (s.reg d).getLsbD k = false))
      false false) where
  isLocal := ⟨rfl⟩
  regs := rfl
  flags := congrArg (ccFlags s.flags _ · false false)
    (decide_eq_decide.mpr (toNat_mod_eq_zero_iff (s.reg d) b))

theorem State.setReg_self : s.setReg d (s.reg d) = s := by
  rw [State.setReg, State.reg]
  exact congrArg (fun regs => { s with regs := regs }) (Vector.set_getElem_self d.isLt)

/-- Moving a register's low part to itself writes flags alone. -/
theorem moveOp_self_setsFlags (n : GReg) : SetsFlags s (moveOp m d n (low m (s.reg d)) s)
    (logicFlags s.flags (low m (s.reg d))) where
  isLocal := ⟨rfl⟩
  regs := by
    show (s.setReg d (merge m (s.reg d) (low m (s.reg d)))).regs = s.regs
    rw [merge_low, State.setReg_self]
  flags := rfl

end Operations

/-! ### SWAP -/

/-- Where `mask` is set, bit `k` of `u` is bit `k xor t` of `v`; elsewhere `u` is zero. -/
def ExchangesUnder (t : Nat) (mask u v : Word) : Prop :=
  ∀ k < 32, u.getLsbD k = (mask.getLsbD k && v.getLsbD (k ^^^ t))

/-- Bit `k` of `u` is bit `k xor t` of `v`. -/
def Exchanges (t : Nat) (u v : Word) : Prop := ∀ k < 32, u.getLsbD k = v.getLsbD (k ^^^ t)

section Swap

variable {n t t' : Nat} {mask mask' u u' v w : Word}

theorem exchangesUnder_shiftLeft
    (h : ∀ k < 32, mask.getLsbD k = true → n ≤ k ∧ k - n = k ^^^ t) :
    ExchangesUnder t mask (v <<< n &&& mask) v := by
  intro k hk
  rw [BitVec.getLsbD_and, Bool.and_comm]
  cases hm : mask.getLsbD k with
  | false => rfl
  | true =>
    obtain ⟨hn, e⟩ := h k hk hm
    rw [BitVec.getLsbD_shiftLeft, decide_eq_true hk, decide_eq_false (Nat.not_lt.mpr hn), e]
    rfl

theorem exchangesUnder_shiftRight (h : ∀ k < 32, mask.getLsbD k = true → n + k = k ^^^ t) :
    ExchangesUnder t mask (v >>> n &&& mask) v := by
  intro k hk
  rw [BitVec.getLsbD_and, Bool.and_comm]
  cases hm : mask.getLsbD k with
  | false => rfl
  | true => rw [BitVec.getLsbD_ushiftRight, h k hk hm]

theorem ExchangesUnder.or (h : ExchangesUnder t mask u v) (h' : ExchangesUnder t mask' u' v) :
    ExchangesUnder t (mask ||| mask') (u ||| u') v := by
  intro k hk
  rw [BitVec.getLsbD_or, BitVec.getLsbD_or, h k hk, h' k hk, Bool.and_or_distrib_right]

/-- An exchange under a mask of all ones. -/
theorem ExchangesUnder.full (h : ExchangesUnder t mask u v) (hm : mask = BitVec.allOnes 32) :
    Exchanges t u v := by
  intro k hk
  rw [h k hk, hm, BitVec.getLsbD_allOnes, decide_eq_true hk, Bool.true_and]

theorem swapWords_exchanges (v : Word) : Exchanges 16 (swapWords v) v := by
  have high : v <<< 16 = v <<< 16 &&& 0xFFFF0000#32 := by
    conv_lhs => rw [← BitVec.and_allOnes (x := v), BitVec.shiftLeft_and_distrib]
    rfl
  rw [swapWords, high]
  exact ((exchangesUnder_shiftLeft (by decide)).or (exchangesUnder_shiftRight (by decide))).full rfl

theorem swapBytes_exchanges (v : Word) : Exchanges 8 (swapBytes v) v :=
  ((exchangesUnder_shiftLeft (by decide)).or (exchangesUnder_shiftRight (by decide))).full rfl

/-- One shift for each place of a byte, up for the upper four and down for the lower four. -/
theorem reverseBits_exchanges (v : Word) : Exchanges 7 (reverseBits v) v := by
  apply ExchangesUnder.full
  iterate 7 apply ExchangesUnder.or
  iterate 4 exact exchangesUnder_shiftLeft (by decide)
  iterate 4 exact exchangesUnder_shiftRight (by decide)
  rfl

theorem Exchanges.refl (v : Word) : Exchanges 0 v v := fun k _ => by rw [Nat.xor_zero]

theorem Exchanges.ite (c : Bool) (h : Exchanges t u v) :
    Exchanges (if c then t else 0) (if c then u else v) v := by
  cases c with
  | false => exact .refl v
  | true => exact h

theorem Exchanges.trans (h : Exchanges t u v) (h' : Exchanges t' v w) (ht : t < 32) :
    Exchanges (t ^^^ t') u w := fun k hk => by
  rw [h k hk, h' _ (Nat.xor_lt_two_pow (n := 5) hk ht), Nat.xor_assoc]

end Swap

/-- How far, by exclusive or, the options W, B and R take a bit (R276). -/
abbrev swapDistance (o : SwapOptions) : Nat :=
  (if o.w then 16 else 0) + (if o.b then 8 else 0) + (if o.r then 7 else 0)

/-- The three options change different binary digits of a bit number. -/
theorem swapDistance_eq_xor (o : SwapOptions) : swapDistance o =
    (if o.r then 7 else 0) ^^^ ((if o.b then 8 else 0) ^^^ (if o.w then 16 else 0)) := by
  obtain ⟨n, w, b, r⟩ := o
  revert n w b r
  decide

theorem swapDistance_lt (o : SwapOptions) : swapDistance o < 32 := by
  obtain ⟨n, w, b, r⟩ := o
  revert n w b r
  decide

theorem getLsbD_ite_not (c : Bool) (v : Word) {k : Nat} (hk : k < 32) :
    (if c then ~~~v else v).getLsbD k = (c ^^ v.getLsbD k) := by
  cases c with
  | false => exact (Bool.false_xor _).symm
  | true => rw [if_pos rfl, BitVec.getLsbD_not, decide_eq_true hk, Bool.true_and, Bool.true_xor]

/-- The options in the order N, W, B, R: the last exchange is the outermost. -/
theorem swapValue_exchanges (o : SwapOptions) (v : Word) :
    Exchanges (swapDistance o) (swapValue o v) (if o.n then ~~~v else v) := by
  have words (u : Word) := (swapWords_exchanges u).ite o.w
  have bytes (u : Word) := (swapBytes_exchanges u).ite o.b
  have bits (u : Word) := (reverseBits_exchanges u).ite o.r
  have bytes_lt : (if o.b then 8 else 0) < 32 := by split <;> decide
  have bits_lt : (if o.r then 7 else 0) < 32 := by split <;> decide
  rw [swapDistance_eq_xor]
  exact (bits _).trans ((bytes _).trans (words _) bytes_lt) bits_lt

theorem swapValue_getLsbD (o : SwapOptions) (v : Word) {k : Nat} (hk : k < 32) :
    (swapValue o v).getLsbD k = (o.n ^^ v.getLsbD (k ^^^ swapDistance o)) := by
  rw [swapValue_exchanges o v k hk,
    getLsbD_ite_not _ _ (Nat.xor_lt_two_pow (n := 5) hk (swapDistance_lt o))]

end Sys2Proof.Machine
end

section
/-! PROOFS. The statements about logic, shifts, bit tests and SWAP of registers and quick immediates
(42_logic_shift_bit.md R260 to R277; 43_move.md R302, R308, R316). -/

namespace Sys2Proof.Machine

/-- Settles O32: each shift as a quotient or product of the sized number (`asrOp_eq`, `lslOp_eq`,
`lsrOp_eq`). -/
theorem registerShiftResults : Obligations.RegisterShiftResults := by
  refine ⟨fun s m x d => ⟨?_, ?_, ?_⟩, fun s m rs => ⟨rfl, rfl, rfl⟩,
    fun m rs rd => ⟨?_, ?_, ?_⟩⟩
  · exact runsTo_pair rfl (asrOp_eq m x d s ▸ sizedResult_writesReg m d s _)
  · exact runsTo_pair rfl (lslOp_eq m x d s ▸ sizedResult_writesReg m d s _)
  · exact runsTo_pair rfl (lsrOp_eq m x d s ▸ sizedResult_writesReg m d s _)
  · exact wordOf_eq_append rd 1#2 14#4 (sizeCode m) rs
  · exact wordOf_eq_append rd 1#2 3#4 (sizeCode m) rs
  · exact wordOf_eq_append rd 1#2 15#4 (sizeCode m) rs

/-- Settles O36: SWAP writes `swapValue`, whose options exchange bits (`swapValue_exchanges`); NOT is
SWAP with option N alone. -/
theorem swapPermutesTheBits : Obligations.SwapPermutesTheBits := by
  intro s d o
  refine ⟨?_, runsTo_quick rfl (logicResult_writesReg d s _)⟩
  obtain ⟨t, run, effect, memory, ends⟩ :
      RunsTo (.swap o (regOf d)) s [(d, swapValue o (s.reg d))]
        (logicFlags s.flags (swapValue o (s.reg d))) s.npc0 false :=
    runsTo_quick rfl (logicResult_writesReg d s _)
  have value : t.reg d = swapValue o (s.reg d) := effect.written _ List.mem_cons_self
  rw [← value] at effect
  refine ⟨t, run, fun k hk => ?_, effect, memory, ends⟩
  rw [value]
  exact swapValue_getLsbD o (s.reg d) hk

/-- Settles O25: logic operations on the sign-extended immediate. -/
theorem quickMoveAndLogicResults : Obligations.QuickMoveAndLogicResults := by
  refine ⟨fun s d i => ?_, fun s i => ⟨rfl, rfl, rfl⟩, fun rd i => ?_⟩
  · rw [ofInt_toInt]
    exact ⟨runsTo_quick rfl (logicResult_writesReg d s _),
      runsTo_quick rfl (logicResult_writesReg d s _),
      runsTo_quick rfl (logicResult_writesReg d s _)⟩
  · exact ⟨quick6Word_eq_append rd 9#4 i, quick6Word_eq_append rd 12#4 i,
      quick6Word_eq_append rd 13#4 i⟩

/-- Settles O26: each shift as a quotient or product of the register's number. -/
theorem quickShiftResults : Obligations.QuickShiftResults := by
  refine ⟨fun s d c => ?_, fun s c => ⟨rfl, rfl, rfl⟩, fun rd c => ?_⟩
  · rw [← sshiftRight_eq_ofInt, ← shiftLeft_eq_ofNat, ← ushiftRight_eq_ofNat]
    exact ⟨runsTo_quick rfl (logicResult_writesReg d s _),
      runsTo_quick rfl (logicResult_writesReg d s _),
      runsTo_quick rfl (logicResult_writesReg d s _)⟩
  · exact ⟨quick5Word_eq_append rd 14#4 1#1 c, quick5Word_eq_append rd 15#4 0#1 c,
      quick5Word_eq_append rd 15#4 1#1 c⟩

/-- Settles O27: both forms are `bitTest`, which writes flags alone. -/
theorem bitTestResults : Obligations.BitTestResults := by
  refine ⟨fun s x d => ?_, fun s d c => ?_, fun rs rd c => ⟨?_, ?_⟩⟩
  · exact (bitTest_setsFlags d s _).runsTo (pair_next x d s)
  · exact (bitTest_setsFlags d s _).runsTo (quick_next d s)
  · exact unsizedWord_eq_append rd 1#2 3#4 rs
  · exact quick5Word_eq_append rd 14#4 0#1 c

/-- Settles O30: logic results of the low parts; TEST is a move of a register to itself. -/
theorem registerLogicAndMoveResults : Obligations.RegisterLogicAndMoveResults := by
  intro s m x d
  exact ⟨runsTo_reg rfl (sizedResult_writesReg m d s _),
    runsTo_reg rfl (sizedResult_writesReg m d s _),
    runsTo_pair rfl (logicResult_writesReg d s _),
    runsTo_reg rfl (sizedResult_writesReg m d s _),
    (moveOp_self_setsFlags m d s d).runsTo (reg_next d d s)⟩

end Sys2Proof.Machine
end

section
/-! PROOFS. The statements about stores, MOVEM, Scc, the delayed moves to PC, and PUSH followed by
POP (43_move.md R301 to R307, R311 to R315; 45_control_transfer.md R389 to R391). -/

namespace Sys2Proof.Machine

/-! ### Stores -/

/-- The store of one value, with its operand's register side effect. -/
abbrev storedAt (m : Size) (s : State) (ea : Word) (upd : Option (GReg × Word))
    (v : BitVec m.bits) : State :=
  (Place.mk ea upd).commit (s.store m ea v).redrawStatus

section Stores

variable {m : Size} {s : State} {o : MemOperand} {ea : Word} {upd : Option (GReg × Word)}

theorem notUpdated_of_ne {g k : GReg} {v : Word} (h : g ≠ k) : NotUpdated (some (k, v)) g := by
  rintro w e
  exact h (congrArg Prod.fst (Option.some.inj e)).symm

/-- The operand of PUSH is the pending address, which SP takes where it may. -/
theorem place_push {amount : Word} {p : Prefix} (hp : s.pfx = some p) (ha : p.assignOk = true) :
    place .ignored amount s (.assign spReg) = .ok ⟨p.ea, some (14, p.ea)⟩ :=
  place_ok.mpr (.inr (.inr (.inr ⟨14, p, rfl, hp, ha, rfl⟩)))

theorem storedAt_npc0 (v : BitVec m.bits) : (storedAt m s ea upd v).npc0 = s.npc0 := by simp

theorem store_next {x : GReg} (hp : place .ignored (Size.amount m) s o = .ok ⟨ea, upd⟩)
    (hn : NotUpdated upd x) (hw : Writable s ea m.bytes) :
    outcome (storeForm m (regOf x) o s) =
      .next (finish (storedAt m s ea upd (low m (s.reg x))) { npc := s.npc0 }) := by
  rw [← storedAt_npc0 (low m (s.reg x))]
  exact outcome_next.mpr (storeForm_ok.mpr ⟨x, ea, upd, rfl, hp, hn, hw, rfl⟩)

theorem fromSpecial_next {ps : SpecialReg} (hm : specialSize ps = .ok m)
    (hp : place .ignored (Size.amount m) s o = .ok ⟨ea, upd⟩) (hw : Writable s ea m.bytes) :
    outcome (fromSpecialForm ps o s) =
      .next (finish (storedAt m s ea upd (low m (s.special ps)))
        { npc := s.npc0, inhibit := true }) := by
  rw [← storedAt_npc0 (low m (s.special ps))]
  exact outcome_next.mpr (fromSpecialForm_ok.mpr ⟨m, ea, upd, hm, hp, hw, rfl⟩)

theorem exec_clear (hp : place .ignored (Size.amount m) s o = .ok ⟨ea, upd⟩)
    (hw : Writable s ea m.bytes) : exec (.clear m o) s =
      .next (finish (storedAt m s ea upd 0#m.bits) { npc := s.npc0, inhibit := true }) := by
  show execClear m o s = _
  rw [execClear, writeDest_ok.mpr ⟨ea, upd, hp, hw, rfl⟩, ok_bind, State.doneInhibit,
    storedAt_npc0, outcome_ok]

end Stores

/-- Settles O41: each form stores one value and then makes its operand's update (`store_completes`);
PUSH is a store through `[SP=...]`. -/
theorem storeResults : Obligations.StoreResults := by
  refine ⟨fun s m o ea upd w hp hw => ⟨fun x hn => ?_, ?_, fun ps hm => ?_⟩,
    fun s p w hp ha => ⟨fun x hx hw => ?_, fun ps m hm hw => ?_⟩⟩
  · exact store_completes w (store_next hp hn hw)
  · exact store_completes w (exec_clear hp hw)
  · exact store_completes w (fromSpecial_next hm hp hw)
  · rw [← low_dword (s.reg x)]
    exact store_completes (i := .pushR (regOf x)) w
      (store_next (place_push hp ha) (notUpdated_of_ne hx) hw)
  · exact store_completes (i := .pushP ps) w (fromSpecial_next hm (place_push hp ha) hw)

/-! ### MOVEM -/

/-- The registers a MOVEM transfers, as the statements list them. -/
theorem mem_moved {resume : Option GReg} {r k : GReg} :
    k ∈ (List.finRange 15).filter (fun k => decide (k ≤ r ∧ ∀ n ∈ resume, k ≤ n)) ↔
      k ∈ movemRegisters resume r := by
  rw [mem_movemRegisters, List.mem_filter, decide_eq_true_eq]
  exact and_iff_right (List.mem_finRange k)

section Movem

variable {s t : State} {o : MemOperand} {r : GReg} {ea : Word} {upd : Option (GReg × Word)}

/-- An address register above R`r` is none of the registers that MOVEM transfers. -/
theorem notUpdated_of_mem_movemRegisters {resume : Option GReg} {k : GReg}
    (hu : ∀ g v, upd = some (g, v) → r < g) (hk : k ∈ movemRegisters resume r) :
    NotUpdated upd k := fun v e =>
  absurd (mem_movemRegisters.mp hk).1 (not_le.mpr (hu k v e))

theorem exec_movemLoad (hp : place .ignored (movemAmount r) s o = .ok ⟨ea, upd⟩)
    (hu : ∀ g v, upd = some (g, v) → r < g)
    (ht : loadRegisters ea r (movemRegisters s.resumeAt r) s = .ok t) :
    exec (.movemLoad o (regOf r)) s = .next ((Place.mk ea upd).commit t).done := by
  show execMovemLoad o (regOf r) s = _
  rw [execMovemLoad, gpr_regOf, ok_bind, (noRangeHazard_iff (u := ()) hp).mpr hu, ok_bind, hp,
    ok_bind, ht, ok_bind, outcome_ok]

theorem exec_movemStore (hp : place .ignored (movemAmount r) s o = .ok ⟨ea, upd⟩)
    (hu : ∀ g v, upd = some (g, v) → r < g)
    (ht : storeRegisters ea r (movemRegisters s.resumeAt r) s = .ok t) :
    exec (.movemStore (regOf r) o) s = .next ((Place.mk ea upd).commit t).done := by
  show execMovemStore (regOf r) o s = _
  rw [execMovemStore, gpr_regOf, ok_bind, (noRangeHazard_iff (u := ()) hp).mpr hu, ok_bind, hp,
    ok_bind, ht, ok_bind, outcome_ok]

/-- The end of an instruction that has stored, and then made its operand's update. -/
theorem effect_finish_storing (h : Storing s t) (hr : t.regs = s.regs) (fl : Flow) :
    Effect s (finish ((Place.mk ea upd).commit t) fl) (updateWrites upd) []
      { s.flags with x := fl.x } where
  written := fun p hp => (finish_reg _ fl _).trans ((Place.commit_writes upd ea t).1 p hp)
  otherRegs := fun g hg => ((finish_reg _ fl g).trans ((Place.commit_writes upd ea t).2 g hg)).trans
    (State.reg_congr hr g)
  writtenSpecials := by simp
  otherSpecials := fun q hq _ => by rw [finish_special _ _ hq, Place.commit_special, h.special]
  flags := by rw [finish_flags, Place.commit_flags, h.flags]
  map := by rw [finish_memMap, Place.commit_memMap, h.memMap]

end Movem

/-- Settles O44: the registers are loaded one by one (`loadRegisters_ok`), and the operand's update,
which is of none of them, is made last. -/
theorem movemLoadResults : Obligations.MovemLoadResults := by
  intro s o r ea upd hp hu moved hr
  obtain ⟨t, ht, hl, hf, loaded, kept⟩ :=
    loadRegisters_ok (ks := movemRegisters s.resumeAt r) fun k hk => hr k (mem_moved.mpr hk)
  obtain ⟨updated, others⟩ := Place.commit_writes upd ea t
  have e := exec_movemLoad hp hu ht
  rw [State.done, Place.commit_npc0, hl.npc0] at e
  refine runsTo_of e (hl.trans (Place.commit_local _ t)) ?_ ?_ ?_
  · intro p hp
    rcases List.mem_append.mp hp with hp | hp
    · obtain ⟨k, hk, rfl⟩ := List.mem_map.mp hp
      have hk := mem_moved.mp hk
      exact (Place.commit_reg_of ea t (notUpdated_of_mem_movemRegisters hu hk)).trans (loaded k hk)
    · exact updated p hp
  · intro g hg
    rw [List.map_append, List.mem_append, not_or] at hg
    obtain ⟨notMoved, notUpdated⟩ := hg
    refine (others g notUpdated).trans (kept g fun hk => notMoved ?_)
    rw [List.map_map]
    exact List.mem_map.mpr ⟨g, mem_moved.mpr hk, rfl⟩
  · rw [Place.commit_flags, hf]
    rfl

/-- Settles O45: the registers are stored one by one at places apart (`storeRegisters_ok`), and the
operand's update is made last. -/
theorem movemStoreResults : Obligations.MovemStoreResults := by
  intro s o r ea upd w hp hu moved hw
  obtain ⟨t, ht, hs, hr, stored, kept⟩ :=
    storeRegisters_ok (ks := movemRegisters s.resumeAt r) w (movemRegisters_nodup _ r)
      (fun k hk => (mem_movemRegisters.mp hk).1) fun k hk => hw k (mem_moved.mpr hk)
  have e := exec_movemStore hp hu ht
  rw [State.done, Place.commit_npc0, hs.npc0] at e
  have mem : (finish ((Place.mk ea upd).commit t) { npc := s.npc0 }).mem = t.mem :=
    (finish_mem _ _).trans (Place.commit_mem _ t)
  have h := hs.trans (Place.commit_storing ⟨ea, upd⟩ t)
  refine ⟨_, e, effect_finish_storing hs hr _, fun k hk => ?_, fun a ha => ?_,
    ends_finish h.delay h.onceMore h.mode _⟩
  · exact (State.load_congr mem _ _).trans (stored k (mem_moved.mp hk))
  · exact (State.byteAt_congr mem a).trans (kept a fun k hk => ha k (mem_moved.mpr hk))

/-! ### Moves to PC -/

/-- With no delayed jump pending, `delayedJump` leaves one pending and changes nothing else but X,
which it clears. -/
theorem delayedJump_completes {i : Instr} {s : State} {a : Word} {check : Bool}
    (hd : s.delay = none) (h : exec i s = .next (delayedJump a check s)) :
    Completes i s fun t =>
      Effect s t [] [] (clearX s.flags) ∧ KeepsMemory s t ∧
      Control t s.npc0 (some ⟨.addr a, check⟩) none true ∧ t.mode = modeAfter s t.flags.u := by
  refine ⟨_, h, effect_finish s _, keepsMemory_finish rfl rfl rfl _,
    ⟨?_, ?_, finish_pfx s _, rfl, rfl, rfl⟩, ?_⟩
  · rw [delayedJump, finish_pc, hd]; rfl
  · rw [delayedJump, finish_delay, hd]
  · rw [delayedJump, finish_mode, finish_flags]; rfl

theorem toRegisterOrPc_dword (v : Word) (check : Bool) (s : State) :
    outcome (toRegisterOrPc .dword v check pcReg s) = .next (delayedJump v check s) :=
  outcome_next.mpr (toRegisterOrPc_ok.mpr (.inl ⟨rfl, rfl, rfl⟩))

theorem toRegisterOrPc_narrow {m : Size} (h : m ≠ .dword) (v : Word) (check : Bool) (s : State) :
    outcome (toRegisterOrPc m v check pcReg s) = .refused .narrowToPc := by
  rw [toRegisterOrPc, if_pos rfl, beq_eq_false_iff_ne.mpr h, require_false, refuse_bind,
    outcome_refuse]

theorem exec_movePR_pc {ps : SpecialReg} {m : Size} (hm : specialSize ps = .ok m) (s : State) :
    exec (.movePR ps pcReg) s =
      outcome (toRegisterOrPc m (s.special ps) (returnChecks ps) pcReg s) := by
  show outcome (specialToRegister ps pcReg s) = _
  rw [specialToRegister, hm, ok_bind]

theorem returnChecks_eq_decide (ps : SpecialReg) :
    returnChecks ps = decide (ps = .brp ∨ ps = .irp) := by
  rw [Bool.decide_or]
  rfl

/-- Settles O51: all are moves of a sized value to register 15; RET, RETB and RETI are the moves of
SRP, BRP and IRP. -/
theorem delayedReturnResults : Obligations.DelayedReturnResults := by
  intro s hd jumps
  refine ⟨delayedJump_completes hd (toRegisterOrPc_dword s.srp false s),
    delayedJump_completes hd (toRegisterOrPc_dword s.brp true s),
    delayedJump_completes hd (toRegisterOrPc_dword s.irp true s),
    delayedJump_completes hd (toRegisterOrPc_dword 0#32 false s), fun ps hm => ?_,
    fun ps m hm hn => ?_, fun m hn => toRegisterOrPc_narrow hn 0#32 false s⟩
  · rw [← returnChecks_eq_decide]
    exact delayedJump_completes hd ((exec_movePR_pc hm s).trans (toRegisterOrPc_dword _ _ s))
  · exact (exec_movePR_pc hm s).trans (toRegisterOrPc_narrow hn _ _ s)

/-! ### Scc -/

theorem exec_scc (q : Cond) (d : GReg) (s : State) : exec (.scc q (regOf d)) s =
    .next (finish (s.setReg d (if condHolds q s.flags then 1#32 else 0#32))
      { npc := s.npc0, inhibit := true }) := by
  show execScc q (regOf d) s = _
  rw [execScc, gpr_regOf]
  rfl

/-- Settles O47: one register write, read off `exec_scc`. -/
theorem setConditionResults : Obligations.SetConditionResults := by
  refine ⟨fun s q d => ?_, fun s q => rfl, fun q rd => ?_⟩
  · exact runsTo_one (exec_scc q d s) ⟨rfl⟩ rfl rfl
  · exact unsizedWord_eq_append (condCode q) 1#2 4#4 rd

/-! ### PUSH, then POP -/

/-- The first word of PUSH, BDAP with offset -4 on SP (R313), leaves the address below SP pending,
and registers and memory as they were. -/
theorem pushFirstWord_completes (s : State) : Completes (.bdapQ 0xFC#8 spReg) s fun t =>
    t.pfx = some ⟨s.reg 14 - 4, true⟩ ∧ t.regs = s.regs ∧ t.mem = s.mem ∧
      t.memMap = s.memMap := by
  refine ⟨finishPrefix s s.npc0 (s.reg 14 - 4) true, ?_, finish_pfx s _, finish_regs s _,
    finish_mem s _, finish_memMap s _⟩
  rw [BitVec.sub_eq_add_neg]
  exact exec_bdapQ 0xFC#8 14 s

/-- Settles O59: PUSH's first word changes no register and no byte, PUSH stores below SP and lowers
it (O41), and POP reads that place and brings SP back (O38). -/
theorem popReturnsWhatPushStored : Obligations.PopReturnsWhatPushStored := by
  intro s x d hwf _ hx hsp hw
  obtain ⟨t, first, t_pfx, t_regs, t_mem, t_map⟩ := pushFirstWord_completes s
  have t_reg (g : GReg) : t.reg g = s.reg g := State.reg_congr t_regs g
  obtain ⟨u, push, pushed, stored, -⟩ :=
    (storeResults.2 t ⟨s.reg 14 - 4, true⟩ (t_mem ▸ hwf) t_pfx rfl).1 x hx
      ((Writable_congr t_map _ _).mpr hw)
  have u_sp : u.reg 14 = s.reg 14 - 4 := pushed.written _ List.mem_cons_self
  have u_reg (g : GReg) (hg : g ≠ 14) : u.reg g = s.reg g :=
    (pushed.otherRegs g (by simpa using hg)).trans (t_reg g)
  have readable : Readable u (u.reg 14) 4 := by
    rw [u_sp, Readable_congr (pushed.map.trans t_map)]
    exact Readable_of_Writable hw
  obtain ⟨w, pop, popped, memory, -⟩ := memoryLogicAndLoadResults.2.2 u d hsp readable
  refine ⟨t, first, u, push, u_sp, w, pop, ?_, ?_, fun g hgd hg => ?_, fun a ha => ?_⟩
  · calc w.reg d
      _ = u.load .dword (u.reg 14) := popped.written _ List.mem_cons_self
      _ = t.reg x := by rw [u_sp]; exact stored.value
      _ = s.reg x := t_reg x
  · calc w.reg 14
      _ = u.reg 14 + 4 := popped.written (14, _) (by simp)
      _ = s.reg 14 := by rw [u_sp, BitVec.sub_add_cancel]
  · exact (popped.otherRegs g (by simp [hgd, hg])).trans (u_reg g hg)
  · calc w.byteAt a
      _ = u.byteAt a := memory.bytes a
      _ = t.byteAt a := stored.others a ha
      _ = s.byteAt a := State.byteAt_congr t_mem a

end Sys2Proof.Machine
end

section
/-! PROOFS. The statements about the flag instructions, BREAK, SBFS and RBF
(44_flags_and_system.md R351 to R359). -/

namespace Sys2Proof.Machine

/-! ### SBFS -/

/-- A place at offset `n` from `a` does not reach below that offset, short of a wrap. -/
theorem not_within_of_lt {a : Word} {j n k : Nat} (h : j < n) (hw : n + k ≤ 2 ^ 32) :
    ¬ Within (a + BitVec.ofNat 32 j) (a + BitVec.ofNat 32 n) k := by
  rintro ⟨i, hi, e⟩
  rw [BitVec.add_assoc] at e
  have e := congrArg BitVec.toNat (add_left_cancel e)
  simp only [BitVec.toNat_add, BitVec.toNat_ofNat] at e
  omega

theorem Within.of_offset {x a : Word} {n k : Nat} (h : Within x (a + BitVec.ofNat 32 n) k) :
    Within x a (n + k) := by
  obtain ⟨i, hi, rfl⟩ := h
  exact ⟨n + i, by omega, by rw [BitVec.add_assoc, BitVec.ofNat_add]⟩

/-- Byte `i` of dword `k` of a record. -/
theorem byte_of_dword (v : BitVec 128) (k : Nat) {i : Nat} (hi : i < 4) :
    (v.extractLsb' (32 * k) 32).extractLsb' (8 * i) 8 = v.extractLsb' (32 * k + 8 * i) 8 := by
  ext b hb
  simp only [BitVec.getElem_extractLsb', BitVec.getLsbD_extractLsb']
  rw [decide_eq_true (by omega), Bool.true_and, Nat.add_assoc]

/-- The first `k` dwords of the status record stored from `a` upward. -/
def State.storeDwords (s : State) (a : Word) (v : BitVec 128) : Nat → State
  | 0 => s
  | k + 1 => (s.storeDwords a v k).store .dword (a + BitVec.ofNat 32 (4 * k))
      (v.extractLsb' (32 * k) 32)

section StoreDwords

variable {s : State} (a : Word) (v : BitVec 128) (k : Nat)

theorem writeRecord_ok {t : State} : writeRecord s a v = .ok t ↔
    Writable s a 16 ∧ t = (s.storeDwords a v 4).redrawStatus := by
  have chain : s.storeDwords a v 4 =
      (((s.store .dword a (v.extractLsb' 0 32)).store .dword (a + 4) (v.extractLsb' 32 32)).store
        .dword (a + 8) (v.extractLsb' 64 32)).store .dword (a + 12) (v.extractLsb' 96 32) := by
    simp [State.storeDwords]
  rw [writeRecord, bind_ok, chain]
  constructor
  · rintro ⟨_, h, e⟩
    exact ⟨accessAll_write_ok.mp h, (Except.ok.inj e).symm⟩
  · rintro ⟨h, rfl⟩
    exact ⟨(), accessAll_write_ok.mpr h, rfl⟩

theorem State.storeDwords_regs : (s.storeDwords a v k).regs = s.regs := by
  induction k with
  | zero => rfl
  | succ k ih => exact (State.store_regs _ _ _ _).trans ih

theorem State.storeDwords_bfsrDraw : (s.storeDwords a v k).bfsrDraw = s.bfsrDraw := by
  induction k with
  | zero => rfl
  | succ k ih => exact (State.store_bfsrDraw _ _ _ _).trans ih

theorem State.wf_storeDwords (w : Memory.wf s.mem = true) :
    Memory.wf (s.storeDwords a v k).mem = true := by
  induction k with
  | zero => exact w
  | succ k ih => exact State.wf_store ih _ _ _

/-- Byte `j` lies in the last dword or before it; a dword stored later leaves it alone. -/
theorem State.byteAt_storeDwords (w : Memory.wf s.mem = true) (hk : 4 * k ≤ 2 ^ 32) {j : Nat}
    (hj : j < 4 * k) :
    (s.storeDwords a v k).byteAt (a + BitVec.ofNat 32 j) = v.extractLsb' (8 * j) 8 := by
  induction k with
  | zero => omega
  | succ k ih =>
    have wk := State.wf_storeDwords a v k w
    by_cases hlt : j < 4 * k
    · exact (State.byteAt_store_other wk .dword _ _ _ (not_within_of_lt hlt hk)).trans
        (ih (by omega) hlt)
    · obtain ⟨i, rfl⟩ := Nat.exists_eq_add_of_le (Nat.le_of_not_lt hlt)
      have hi : i < 4 := by omega
      rw [BitVec.ofNat_add, ← BitVec.add_assoc]
      refine (State.byteAt_store wk .dword _ _ i hi).trans ?_
      rw [byte_of_dword v k hi, Nat.mul_add, ← Nat.mul_assoc]

theorem State.byteAt_storeDwords_other (w : Memory.wf s.mem = true) {x : Word}
    (h : ¬ Within x a (4 * k)) : (s.storeDwords a v k).byteAt x = s.byteAt x := by
  induction k with
  | zero => rfl
  | succ k ih =>
    refine (State.byteAt_store_other (State.wf_storeDwords a v k w) .dword _ x _
      fun hx => h hx.of_offset).trans (ih fun hx => h ?_)
    obtain ⟨j, hj, e⟩ := hx
    exact ⟨j, by omega, e⟩

/-- A record that may be written: what the write leaves in memory and elsewhere. -/
theorem writeRecord_stores (w : Memory.wf s.mem = true) (h : Writable s a 16) :
    ∃ t, writeRecord s a v = .ok t ∧ Storing s t ∧ t.regs = s.regs ∧
      t.bfsrDraw = s.bfsrDraw + 1 ∧
      (∀ j < 16, t.byteAt (a + BitVec.ofNat 32 j) = v.extractLsb' (8 * j) 8) ∧
      ∀ x, ¬ Within x a 16 → t.byteAt x = s.byteAt x := by
  have ht := (writeRecord_ok a v).mpr ⟨h, rfl⟩
  exact ⟨_, ht, (writeRecord_storing ht).1,
    (State.redrawStatus_regs _).trans (State.storeDwords_regs a v 4),
    congrArg (· + 1) (State.storeDwords_bfsrDraw a v 4),
    fun j hj => (State.byteAt_congr (State.redrawStatus_mem _) _).trans
      (State.byteAt_storeDwords a v 4 w (by omega) hj),
    fun x hx => (State.byteAt_congr (State.redrawStatus_mem _) x).trans
      (State.byteAt_storeDwords_other a v 4 w hx)⟩

end StoreDwords

theorem exec_sbfs {s t : State} {o : MemOperand} {ea : Word} {upd : Option (GReg × Word)}
    (hp : place (.mustBe 0#4) 16#32 s o = .ok ⟨ea, upd⟩)
    (ht : writeRecord s ea s.bfsr = .ok t) :
    exec (.sbfs o) s =
      .next (finish ((Place.mk ea upd).commit t) { npc := s.npc0, inhibit := true }) := by
  show execSbfs o s = _
  rw [execSbfs, recordAmount, hp, ok_bind, ht, ok_bind, State.doneInhibit, Place.commit_npc0,
    (writeRecord_storing ht).1.npc0, outcome_ok]

/-- Settles O55: the record is stored as four dwords in a row (`writeRecord_stores`), and the
operand's update is made last. -/
theorem saveBusFaultStatusStores : Obligations.SaveBusFaultStatusStores := by
  intro s o ea upd w hp hw
  obtain ⟨t, ht, storing, regs, draw, bytes, others⟩ := writeRecord_stores ea s.bfsr w hw
  have all := storing.trans (Place.commit_storing ⟨ea, upd⟩ t)
  have mem (fl : Flow) : (finish ((Place.mk ea upd).commit t) fl).mem = t.mem :=
    (finish_mem _ fl).trans (Place.commit_mem _ t)
  refine ⟨_, exec_sbfs hp ht, effect_finish_storing storing regs _, fun j hj => ?_, fun a ha => ?_,
    ?_, ends_finish all.delay all.onceMore all.mode _⟩
  · exact (State.byteAt_congr (mem _) _).trans (bytes j hj)
  · exact (State.byteAt_congr (mem _) a).trans (others a ha)
  · rw [finish_bfsrDraw, Place.commit_bfsrDraw, draw]

/-! ### RBF -/

theorem readRecord_ok {s : State} {ea : Word} {v : BitVec 128} :
    readRecord s ea = .ok v ↔ Readable s ea 16 ∧
      v = s.load .dword (ea + 12) ++ s.load .dword (ea + 8) ++ s.load .dword (ea + 4) ++
        s.load .dword ea := by
  rw [readRecord, bind_ok]
  constructor
  · rintro ⟨_, h, e⟩
    exact ⟨accessAll_read_ok.mp h, (Except.ok.inj e).symm⟩
  · rintro ⟨h, rfl⟩
    exact ⟨(), accessAll_read_ok.mpr h, rfl⟩

theorem exec_rbf {s : State} {o : MemOperand} {ea : Word} {upd : Option (GReg × Word)}
    {v : BitVec 128} (hp : place (.mustBe 0#4) 16#32 s o = .ok ⟨ea, upd⟩)
    (hv : readRecord s ea = .ok v) :
    exec (.rbf o) s = .next (restoreRecord v ((Place.mk ea upd).commit s)) := by
  show execRbf o s = _
  rw [execRbf, recordAmount, hp, ok_bind, hv, ok_bind, outcome_ok]

section RestoreRecord

variable (v : BitVec 128) (s : State)

theorem restoreRecord_regs : (restoreRecord v s).regs = s.regs := by simp [restoreRecord]

theorem restoreRecord_special {p : SpecialReg} (hp : p ∈ storedSpecials) :
    (restoreRecord v s).special p = s.special p := by
  rw [restoreRecord, finish_special _ _ hp, State.returnMode_eq]
  cases p <;> simp [storedSpecials] at hp <;> rfl

theorem restoreRecord_flags : (restoreRecord v s).flags =
    { s.flags with x := Config.recordX v, u := Config.recordU v } := by simp [restoreRecord]

theorem restoreRecord_memMap : (restoreRecord v s).memMap = s.memMap := by simp [restoreRecord]

theorem restoreRecord_pfx : (restoreRecord v s).pfx = recordPrefix v := finish_pfx _ _

variable {s} (hd : s.delay = none)
include hd

theorem restoreRecord_pc : (restoreRecord v s).pc = Config.recordRestart v := by
  rw [restoreRecord, finish_pc, State.returnMode_delay, hd]
  rfl

theorem restoreRecord_delay : (restoreRecord v s).delay = recordDelay v := by
  rw [restoreRecord, finish_delay, State.returnMode_delay, hd]
  rfl

/-- With no restart pending, RBF's own check of the old U is the only one. -/
theorem restoreRecord_mode (ho : s.onceMore = false) :
    (restoreRecord v s).mode = if s.flags.u then .user else s.mode := by
  rw [restoreRecord, finish_mode]
  simp [checkDue, hd, ho, delayAtRestore, State.returnMode_mode]

end RestoreRecord

section RestoreAfterUpdate

variable (v : BitVec 128) (ea : Word) (upd : Option (GReg × Word)) (s : State)

theorem effect_restoreRecord_commit :
    Effect s (restoreRecord v ((Place.mk ea upd).commit s)) (updateWrites upd) []
      { s.flags with x := Config.recordX v, u := Config.recordU v } where
  written := fun p hp => (State.reg_congr (restoreRecord_regs v _) _).trans
    ((Place.commit_writes upd ea s).1 p hp)
  otherRegs := fun g hg => (State.reg_congr (restoreRecord_regs v _) g).trans
    ((Place.commit_writes upd ea s).2 g hg)
  writtenSpecials := by simp
  otherSpecials := fun q hq _ => by rw [restoreRecord_special v _ hq, Place.commit_special]
  flags := by rw [restoreRecord_flags, Place.commit_flags]
  map := by rw [restoreRecord_memMap, Place.commit_memMap]

theorem keepsMemory_restoreRecord_commit :
    KeepsMemory s (restoreRecord v ((Place.mk ea upd).commit s)) :=
  keepsMemory_finish (by simp) (by simp) (by simp) _

end RestoreAfterUpdate

/-- Settles O54: RBF reads the record, makes its operand's update, and restores what the record
holds. -/
theorem returnFromBusFaultRestores : Obligations.ReturnFromBusFaultRestores := by
  intro s o ea upd hd ho hp hr v
  have delay : ((Place.mk ea upd).commit s).delay = none := (Place.commit_delay _ s).trans hd
  have once : ((Place.mk ea upd).commit s).onceMore = false :=
    (Place.commit_onceMore _ s).trans ho
  refine ⟨_, exec_rbf hp (readRecord_ok.mpr ⟨hr, rfl⟩), effect_restoreRecord_commit v ea upd s,
    keepsMemory_restoreRecord_commit v ea upd s, restoreRecord_pc v delay, rfl,
    restoreRecord_pfx v _, restoreRecord_delay v delay, rfl, rfl, ?_⟩
  rw [restoreRecord_mode v delay once, Place.commit_flags, Place.commit_mode]

/-! ### SETF, CLEARF and NOP -/

section Lists

variable (fl : Flags) (l : FlagList)

theorem Flags.setList_eq : fl.setList l = ⟨fl.f, fl.p, fl.u, l.m || fl.m, l.b || fl.b,
    l.i || fl.i, l.x, l.n || fl.n, l.z || fl.z, l.v || fl.v, l.c || fl.c⟩ := by
  simp only [Flags.setList, Bool.or_comm]

theorem Flags.clearList_eq : fl.clearList l = ⟨false, false, fl.u, fl.m, !l.b && fl.b,
    !l.i && fl.i, false, !l.n && fl.n, !l.z && fl.z, !l.v && fl.v, !l.c && fl.c⟩ := by
  simp only [Flags.clearList, Bool.and_comm]

theorem Flags.setList_axList : fl.setList axList = { fl with x := true } := by
  simp [Flags.setList, axList]

theorem Flags.setList_iList : fl.setList iList = { fl with i := true, x := false } := by
  simp [Flags.setList, iList]

theorem Flags.clearList_iList :
    fl.clearList iList = { fl with i := false, x := false, f := false, p := false } := by
  simp [Flags.clearList, iList]

variable {l} {i : Instr} {s : State}

theorem runsTo_setFlags (h : exec i s = outcome (setFlags l s)) :
    RunsTo i s [] (s.flags.setList l) s.npc0 true := runsTo_flags h

theorem runsTo_clearFlags (h : exec i s = outcome (clearFlags l s)) :
    RunsTo i s [] (s.flags.clearList l) s.npc0 true := runsTo_flags h

end Lists

/-- Settles O46: AX and EI are SETF, DI is CLEARF (R351, R353, R354), and a list's flags are worked
out in `Flags.setList` and `Flags.clearList`. -/
theorem flagInstructionResults : Obligations.FlagInstructionResults := by
  intro s l fl
  refine ⟨?_, ?_, ?_, ?_, ?_, ?_⟩
  · rw [← Flags.setList_eq]
    exact runsTo_setFlags rfl
  · rw [← Flags.clearList_eq]
    exact runsTo_clearFlags rfl
  · rw [← Flags.setList_axList]
    exact runsTo_setFlags rfl
  · rw [← Flags.setList_iList]
    exact runsTo_setFlags rfl
  · rw [← Flags.clearList_iList]
    exact runsTo_clearFlags rfl
  · exact runsTo_flags (f := s.flags) rfl

/-! ### BREAK -/

theorem State.trapAddress_eq (s : State) (n : BitVec 4) :
    s.trapAddress n = s.ibr + BitVec.ofNat 32 (8 * n.toNat) := by
  rw [State.trapAddress, BitVec.ofNat_mul, BitVec.ofNat_toNat]

theorem State.enterTrap_special (s : State) (a : Word) {p : SpecialReg} (hp : p ∈ storedSpecials)
    (hn : p ≠ .brp) : (s.enterTrap a).special p = s.special p := by
  cases p <;> simp [storedSpecials] at hp hn <;> rfl

/-- The end of an instruction that enters the trap, with `a` as the return address. -/
theorem effect_finish_enterTrap (s : State) (a : Word) (fl : Flow) :
    Effect s (finish (s.enterTrap a) fl) [] [(.brp, a)]
      { s.flags with f := true, u := decide (s.mode = .user), x := fl.x } where
  written := by simp
  otherRegs := fun g _ => finish_reg (s.enterTrap a) fl g
  writtenSpecials := fun p hp => by rw [List.mem_singleton.mp hp]; exact finish_brp _ fl
  otherSpecials := fun p hp hn => by
    rw [finish_special _ _ hp, State.enterTrap_special s a hp (by simpa using hn)]
  flags := finish_flags _ fl
  map := finish_memMap _ fl

/-- Settles O48: BREAK enters the trap and ends in a jump of its own, and with no delayed jump and
no restart pending nothing checks the U it has just written. -/
theorem breakTakesTheTrap : Obligations.BreakTakesTheTrap := by
  intro s n hd ho
  have unchecked : checkDue (s.enterTrap s.npc0) = false := by
    rw [checkDue_congr (State.enterTrap_delay s _) (State.enterTrap_onceMore s _), checkDue, hd, ho]
    rfl
  refine ⟨finish (s.enterTrap s.npc0) { npc := s.npc0, jump := some (s.trapAddress n) }, rfl,
    effect_finish_enterTrap s _ _,
    keepsMemory_finish (State.enterTrap_mem s _) (State.enterTrap_stored s _)
      (State.enterTrap_bfsrDraw s _) _,
    ⟨?_, ?_, finish_pfx _ _, rfl, rfl, rfl⟩, ?_⟩
  · rw [finish_pc, State.enterTrap_delay, hd]
    exact State.trapAddress_eq s n
  · rw [finish_delay, State.enterTrap_delay, hd]
  · rw [finish_mode, unchecked, Bool.and_false, if_neg Bool.false_ne_true, State.enterTrap_mode]

end Sys2Proof.Machine
end

section
/-! PROOFS. The statements about the immediate jumps (45_control_transfer.md R380 to R388). -/

namespace Sys2Proof.Machine

/-! ### Effects, update by update -/

/-- An operand's register update alone. -/
theorem Place.commit_effect (ea : Word) (upd : Option (GReg × Word)) (s : State) :
    Effect s ((Place.mk ea upd).commit s) (updateWrites upd) [] s.flags where
  written := (Place.commit_writes upd ea s).1
  otherRegs := (Place.commit_writes upd ea s).2
  writtenSpecials := by simp
  otherSpecials := fun p _ _ => Place.commit_special _ s p
  flags := Place.commit_flags _ s
  map := Place.commit_memMap _ s

section Effects

variable {s u : State} {regs : List (GReg × Word)} {sps : List (SpecialReg × Word)} {fl : Flags}

/-- A special register with storage, written besides. -/
theorem Effect.setSpecial (e : Effect s u regs [] fl) {p : SpecialReg} (hp : p ∈ storedSpecials)
    (v : Word) : Effect s (u.setSpecial p v) regs [(p, v)] fl where
  written := fun q hq => (State.reg_congr (State.setSpecial_regs u p v) _).trans (e.written q hq)
  otherRegs := fun g hg => (State.reg_congr (State.setSpecial_regs u p v) g).trans
    (e.otherRegs g hg)
  writtenSpecials := fun q hq => by
    rw [List.mem_singleton.mp hq, State.setSpecial_special u p p v hp, if_pos rfl]
  otherSpecials := fun q hq hn => by
    have other : p ≠ q := by rintro rfl; simp at hn
    rw [State.setSpecial_special u p q v hq, if_neg other]
    exact e.otherSpecials q hq (by simp)
  flags := by
    have notFlags : ¬ (p = .ccr ∨ p = .dccr) := by
      rintro (rfl | rfl) <;> exact absurd hp (by decide)
    rw [State.setSpecial_flags, if_neg notFlags, e.flags]
  map := (State.setSpecial_memMap u p v).trans e.map

/-- The mode is no part of an effect. -/
theorem Effect.returnMode (e : Effect s u regs sps fl) : Effect s u.returnMode regs sps fl := by
  rw [State.returnMode_eq]
  exact { e with }

/-- The end of the cycle writes X, which is no part of a special register with storage. -/
theorem Effect.finish (e : Effect s u regs sps fl) (hs : ∀ p ∈ sps, p.1 ∈ storedSpecials)
    (f : Flow) : Effect s (finish u f) regs sps { fl with x := f.x } where
  written := fun p hp => (finish_reg u f _).trans (e.written p hp)
  otherRegs := fun g hg => (finish_reg u f g).trans (e.otherRegs g hg)
  writtenSpecials := fun p hp => (finish_special u f (hs p hp)).trans (e.writtenSpecials p hp)
  otherSpecials := fun p hp hn => (finish_special u f hp).trans (e.otherSpecials p hp hn)
  flags := by rw [finish_flags, e.flags]
  map := (finish_memMap u f).trans e.map

end Effects

/-! ### Jumps -/

/-- With no delayed jump pending, an immediate jump goes to its target and leaves nothing
pending. -/
theorem control_finish_jump {u : State} (hd : u.delay = none) (npc a : Word) :
    Control (finish u { npc := npc, inhibit := true, jump := some a }) a none none true :=
  ⟨by rw [finish_pc, hd]; rfl, by rw [finish_delay, hd], finish_pfx u _, rfl, rfl, rfl⟩

/-- Memory, the mode and what is pending are in `u` as in `s`: the updates an immediate jump makes
before its cycle ends. -/
structure KeepsPending (s u : State) : Prop where
  mem : u.mem = s.mem
  stored : u.stored = s.stored
  bfsrDraw : u.bfsrDraw = s.bfsrDraw
  delay : u.delay = s.delay
  onceMore : u.onceMore = s.onceMore
  mode : u.mode = s.mode

/-- With no delayed jump pending, an instruction that ends in an immediate jump from `u` has the
effect of what led to `u`. -/
theorem jump_completes {i : Instr} {s u : State} {regs : List (GReg × Word)}
    {sps : List (SpecialReg × Word)} {npc a : Word} (hd : s.delay = none)
    (h : exec i s = .next (finish u { npc := npc, inhibit := true, jump := some a }))
    (e : Effect s u regs sps s.flags) (hs : ∀ p ∈ sps, p.1 ∈ storedSpecials)
    (k : KeepsPending s u) :
    Completes i s fun t => Effect s t regs sps (clearX s.flags) ∧ KeepsMemory s t ∧
      Control t a none none true ∧ t.mode = modeAfter s t.flags.u := by
  refine ⟨_, h, e.finish hs _, keepsMemory_finish k.mem k.stored k.bfsrDraw _,
    control_finish_jump (k.delay.trans hd) npc a, ?_⟩
  rw [finish_mode, finish_flags, checkDue_congr k.delay k.onceMore, k.mode]
  rfl

section Links

variable {i : Instr} {s : State} {upd : Option (GReg × Word)} {npc a : Word}

/-- A jump that writes no return pointer. -/
theorem jump_completes_plain (hd : s.delay = none)
    (h : exec i s = .next (jumpTo linkNone npc a ((Place.mk 0#32 upd).commit s))) :
    Completes i s fun t => Effect s t (updateWrites upd) [] (clearX s.flags) ∧ KeepsMemory s t ∧
      Control t a none none true ∧ t.mode = modeAfter s t.flags.u := by
  rw [jumpTo, linkNone] at h
  exact jump_completes hd h (Place.commit_effect _ upd s) (by simp) (by constructor <;> simp)

/-- A jump whose `link` writes `v` to the return pointer `p`. -/
theorem jump_completes_linked {p : SpecialReg} {v : Word} {link : Word → State → State}
    (hl : ∀ u : State, link npc u = u.setSpecial p v) (hp : p ∈ storedSpecials)
    (hd : s.delay = none)
    (h : exec i s = .next (jumpTo link npc a ((Place.mk 0#32 upd).commit s))) :
    Completes i s fun t =>
      Effect s t (updateWrites upd) [(p, v)] (clearX s.flags) ∧ KeepsMemory s t ∧
      Control t a none none true ∧ t.mode = modeAfter s t.flags.u := by
  rw [jumpTo, hl] at h
  exact jump_completes hd h ((Place.commit_effect _ upd s).setSpecial hp v) (by simpa using hp)
    (by constructor <;> simp)

end Links

/-- The register form, as a jump after an operand that updates nothing. -/
theorem jumpRegForm_next (link : Word → State → State) (x : GReg) (s : State) :
    outcome (jumpRegForm link (regOf x) s) =
      .next (jumpTo link s.npc0 (s.reg x) ((Place.mk 0#32 none).commit s)) :=
  outcome_next.mpr (jumpRegForm_ok.mpr ⟨x, rfl, rfl⟩)

theorem jumpMemForm_next (link : Word → State → State) {o : MemOperand} {s : State} {v : Word}
    {upd : Option (GReg × Word)} {npc : Word} (h : SourceReads .dword .ignored o s v upd npc) :
    outcome (jumpMemForm link o s) = .next (jumpTo link npc v ((Place.mk 0#32 upd).commit s)) :=
  outcome_next.mpr (jumpMemForm_ok.mpr ⟨v, upd, npc, h, rfl⟩)

/-- Settles O52: the forms differ in where the target is read, the instructions in the pointer. -/
theorem immediateJumpResults : Obligations.ImmediateJumpResults := by
  intro s hd jumps
  refine ⟨fun x => ?_, fun o v upd npc h => ?_⟩
  · have reads := fun link => jumpRegForm_next link x s
    exact ⟨jump_completes_plain (upd := none) hd (reads linkNone),
      jump_completes_linked (upd := none) (fun _ => rfl) (by decide) hd (reads linkSrp),
      jump_completes_linked (upd := none) (fun _ => rfl) (by decide) hd (reads linkIrp),
      jump_completes_linked (upd := none) (fun _ => rfl) (by decide) hd (reads linkSrpContext),
      jump_completes_linked (upd := none) (fun _ => rfl) (by decide) hd (reads linkIrpContext),
      jump_completes_linked (upd := none) (fun _ => rfl) (by decide) hd (reads linkBrpContext)⟩
  · have reads := fun link => jumpMemForm_next link h
    exact ⟨jump_completes_plain hd (reads linkNone),
      jump_completes_linked (fun _ => rfl) (by decide) hd (reads linkSrp),
      jump_completes_linked (fun _ => rfl) (by decide) hd (reads linkIrp),
      jump_completes_linked (fun _ => rfl) (by decide) hd (reads linkSrpContext),
      jump_completes_linked (fun _ => rfl) (by decide) hd (reads linkIrpContext),
      jump_completes_linked (fun _ => rfl) (by decide) hd (reads linkBrpContext)⟩

/-! ### JMPU -/

/-- JMPU reads its operand, then returns to the mode that U names, then jumps. -/
theorem exec_jmpu {o : MemOperand} {s : State} {v : Word} {upd : Option (GReg × Word)} {npc : Word}
    (ho : o ≠ .simple .immediate) (h : SourceReads .dword (.mustBe 3#4) o s v upd npc) :
    exec (.jmpu o) s =
      .next (finish ((Place.mk 0#32 upd).commit s).returnMode
        { npc := npc, inhibit := true, jump := some v }) := by
  have memory : notImmediate o = true := Bool.of_not_eq_false (ho ∘ notImmediate_false.mp)
  show execJmpu o s = _
  rw [execJmpu, memory, require_true, ok_bind, h.readSource, ok_bind]
  rfl

/-- The user-mode check of a restart, if one is due, asks for the same U again. -/
theorem finish_returnMode_mode (u : State) (f : Flow) :
    (finish u.returnMode f).mode = if u.flags.u then .user else u.mode := by
  rw [finish_mode, State.returnMode_mode, State.returnMode_flags]
  cases u.flags.u <;> simp

/-- Settles O53: the jump starts from the mode U names, and the end of the cycle keeps it. -/
theorem jumpToUserResults : Obligations.JumpToUserResults := by
  refine ⟨fun s o v upd npc hd ho h => ?_, fun s => rfl⟩
  have delay : ((Place.mk 0#32 upd).commit s).returnMode.delay = none := by
    rw [State.returnMode_delay, Place.commit_delay, hd]
  refine ⟨_, exec_jmpu ho h, (Place.commit_effect _ upd s).returnMode.finish (by simp) _,
    keepsMemory_finish (by simp) (by simp) (by simp) _, control_finish_jump delay npc v, ?_⟩
  rw [finish_returnMode_mode, Place.commit_flags, Place.commit_mode]

end Sys2Proof.Machine
end

section
/-! PROOFS. The statement about the return from the BREAK trap (60_exceptions.md R423). -/

namespace Sys2Proof.Machine

/-! ### Reading a completed instruction -/

/-- An instruction has one outcome, so what it completes with holds of the state it is known to end
in. -/
theorem Completes.of_next {i : Instr} {s t : State} {P : State → Prop} (c : Completes i s P)
    (h : exec i s = .next t) : P t := by
  obtain ⟨t', h', p⟩ := c
  obtain rfl : t' = t := Host.Outcome.next.inj (h'.symm.trans h)
  exact p

/-- With no write listed, an effect keeps every general register. -/
theorem Effect.reg_eq {s t : State} {sps : List (SpecialReg × Word)} {fl : Flags}
    (e : Effect s t [] sps fl) (g : GReg) : t.reg g = s.reg g :=
  e.otherRegs g List.not_mem_nil

/-! ### The mode after the cycle -/

theorem checkDue_eq_false {s : State} (hd : s.delay = none) (ho : s.onceMore = false) :
    checkDue s = false := by
  rw [checkDue, hd, ho]; rfl

theorem modeAfter_of_not_due {s : State} (hc : checkDue s = false) (u : Bool) :
    modeAfter s u = s.mode := by
  rw [modeAfter, hc, Bool.and_false, if_neg Bool.false_ne_true]

theorem modeAfter_of_due {s : State} (hc : checkDue s = true) (u : Bool) :
    modeAfter s u = if u then .user else s.mode := by
  rw [modeAfter, hc, Bool.and_true]

/-! ### BREAK, then RETB and its slot -/

/-- NOP, as an instruction that writes back the flags it finds. -/
theorem nop_runsTo (s : State) : RunsTo .nop s [] (clearX s.flags) s.npc0 false :=
  runsTo_flags (f := s.flags) rfl

/-- Settles O49: BREAK keeps the return address in BRP and the mode in U (O48), RETB leaves a jump
to BRP pending with the user-mode check (O51), and the end of the NOP's cycle does both. -/
theorem breakThenRetbReturns : Obligations.BreakThenRetbReturns := by
  intro s t u w n hd ho trap ret nop
  obtain ⟨trapped, -, t_control, t_mode⟩ := (breakTakesTheTrap s n hd ho).of_next trap
  obtain ⟨-, retb, -⟩ := delayedReturnResults t t_control.delay
  obtain ⟨returned, -, u_control, u_mode⟩ := retb.of_next ret
  obtain ⟨ended, -, w_ends⟩ := (nop_runsTo u).of_next nop
  have target : t.brp = s.pc + 2 := trapped.writtenSpecials (.brp, s.pc + 2) List.mem_cons_self
  have w_flags : w.flags =
      { s.flags with f := true, u := decide (s.mode = .user), x := false } := by
    rw [ended.flags, returned.flags, trapped.flags]; rfl
  have supervisor : u.mode = .supervisor := by
    rw [u_mode, modeAfter_of_not_due (checkDue_eq_false t_control.delay t_control.onceMore), t_mode]
  have due : checkDue u = true := by rw [checkDue, u_control.delay, Bool.or_true]
  refine ⟨?_, ?_, w_ends.control.delay, fun g => ?_, ?_⟩
  · rw [w_ends.control.pc, pcAfter, u_control.delay, ← target]; rfl
  · rw [w_ends.mode, w_flags, modeAfter_of_due due, supervisor]
    cases s.mode <;> rfl
  · calc w.reg g
      _ = u.reg g := ended.reg_eq g
      _ = t.reg g := returned.reg_eq g
      _ = s.reg g := trapped.reg_eq g
  · rw [w_flags]; exact ⟨rfl, rfl, rfl, rfl, rfl⟩

end Sys2Proof.Machine
end
